-- ==== Sys2Proof/Word.lean ====
section
/-! DEFINITION. The word types of the block (00_scope.md rule R8, 30_encoding.md rule R94). Only bit patterns that the
spec slices, masks, shifts or compares as numbers of a fixed width are bit vectors. -/

namespace Sys2Proof

/-- `u8`: an opcode, a payload byte, a colour channel (R8). Bit 0 is the least significant bit. -/
abbrev Byte := BitVec 8

/-- `u16`: a window coordinate or extent, an RGB565 colour (R8, R21, R22). -/
abbrev U16 := BitVec 16

/-- `i32`: the backlight operand, 32-bit two's complement (R23). -/
abbrev I32 := BitVec 32

/-- The 9-bit tagged byte `{dc, b}` of the wire protocol (R94): bit 8 is the control line, 0 for a Command byte and 1
for a data byte; bits 7..0 are the byte. -/
abbrev Tagged := BitVec 9

end Sys2Proof
end

