-- ==== Sys2Proof/Config.lean ====
section
/-! DEFINITION. The parameters of the block (00_scope.md rule R6), the instances the model accepts (rule R7, and rule R96
for the seven opcodes), and the reference instance. The parameters the spec leaves OPEN (`INIT_TABLE`, `CLEAR_COLOR`, the pin
identifiers) are opaque constants in the reference instance: nothing in Lean can evaluate them. -/

namespace Sys2Proof

/-- The parameter set of rule R6, every one of them a field ("a model takes every parameter as a configuration
field"). `TRANSPORT_LIVE` is not a value of the block but a premise about the environment's answers: it is
`Sys2Proof.Machine.State.TransportLive` in Safety.lean. -/
structure Parameters where
  /-- `WIDTH`, 240 (D00 §3). -/
  width : Nat
  /-- `HEIGHT`, 240 (D00 §3). -/
  height : Nat
  /-- `CHUNK_MAX`, the most bytes of one bus write of the pixel stream. -/
  chunkMax : Nat
  /-- `T_RST`, milliseconds after each of the first two levels of the reset pulse. -/
  tRst : Nat
  /-- `T_RST_POST`, milliseconds after the last level of the reset pulse; 0 means no such delay (R142). -/
  tRstPost : Nat
  /-- `T_SLPOUT`, milliseconds after the sleep-out Command, at least 120. -/
  tSlpout : Nat
  /-- `T_DISPON`, milliseconds after the display-on Command, at least 20. -/
  tDispon : Nat
  /-- `INIT_TABLE`, the ordered (opcode, payload) pairs; OPEN. -/
  initTable : List (Byte × List Byte)
  /-- `OP_CASET`, column-address-set. -/
  opCaset : Byte
  /-- `OP_RASET`, row-address-set. -/
  opRaset : Byte
  /-- `OP_RAMWR`, memory-write. -/
  opRamwr : Byte
  /-- `OP_TEON`, tearing-effect-on. -/
  opTeon : Byte
  /-- `OP_INVOFF`, display-inversion-off. -/
  opInvoff : Byte
  /-- `OP_SLPOUT`, sleep-out. -/
  opSlpout : Byte
  /-- `OP_DISPON`, display-on. -/
  opDispon : Byte
  /-- `CLEAR_COLOR`, the colour `clear()` fills with; OPEN. -/
  clearColor : U16
  /-- `PIN_RST`, `PIN_DC`, `PIN_BL`: board pin numbers; OPEN. -/
  pinRst : Nat
  pinDc : Nat
  pinBl : Nat
  deriving DecidableEq, Repr

namespace Parameters

/-- `FRAME_BYTES = WIDTH × HEIGHT × 2` (R6, R191). -/
def frameBytes (p : Parameters) : Nat := p.width * p.height * 2

/-- The seven named opcodes, in the order of rule R96. -/
def opcodes (p : Parameters) : List Byte :=
  [p.opCaset, p.opRaset, p.opRamwr, p.opTeon, p.opInvoff, p.opSlpout, p.opDispon]

/-- Well-formedness of a parameter set: rule R7, and the pairwise distinct opcodes of rule R96. -/
abbrev Wf (p : Parameters) : Prop :=
  1 ≤ p.width ∧ 1 ≤ p.height ∧ p.width - 1 ≤ 65535 ∧ p.height - 1 ≤ 65535 ∧ 1 ≤ p.chunkMax ∧ 1 ≤ p.tRst ∧
  120 ≤ p.tSlpout ∧ 20 ≤ p.tDispon ∧ (∀ e ∈ p.initTable, e.2.length ≤ p.chunkMax) ∧
  (p.pinRst ≠ p.pinDc ∧ p.pinRst ≠ p.pinBl ∧ p.pinDc ≠ p.pinBl) ∧ p.opcodes.Nodup

end Parameters

/-- An instance the model accepts: a parameter set that meets rule R7, which is "required of every instance a model
accepts". There is no other `Config`, so no state and no operation ever has an inadmissible parameter; construction
refuses one (`Sys2Proof.Machine.construct`). -/
structure Config extends Parameters where
  wf : toParameters.Wf
  deriving DecidableEq, Repr

namespace Config

/-- FREE VALUE (log entry 3): the contents of `INIT_TABLE`, which D00 does not give (D5). -/
opaque openInitTable : List (Byte × List Byte)

/-- FREE VALUE (log entry 3): `CLEAR_COLOR` (D11). -/
opaque openClearColor : U16

/-- FREE VALUE (log entry 3): the three pin numbers (D34), taken when they differ from one another (R7). -/
opaque openPins : Nat × Nat × Nat

/-- The three pin numbers of a triple, or 0, 1, 2 where the triple does not satisfy rule R7. Every triple that R7
admits is its own image, so no admissible wiring is shut out. -/
def distinctPins (p : Nat × Nat × Nat) : Nat × Nat × Nat :=
  if p.1 ≠ p.2.1 ∧ p.1 ≠ p.2.2 ∧ p.2.1 ≠ p.2.2 then p else (0, 1, 2)

/-- The entries of a table that meet rule R7's bound. Every table that R7 admits is its own image. -/
def admissibleTable (chunkMax : Nat) (t : List (Byte × List Byte)) : List (Byte × List Byte) :=
  t.filter fun e => e.2.length ≤ chunkMax

theorem distinctPins_distinct (p : Nat × Nat × Nat) :
    (distinctPins p).1 ≠ (distinctPins p).2.1 ∧ (distinctPins p).1 ≠ (distinctPins p).2.2 ∧
      (distinctPins p).2.1 ≠ (distinctPins p).2.2 := by
  unfold distinctPins; split
  · assumption
  · decide

theorem admissibleTable_bound (chunkMax : Nat) (t : List (Byte × List Byte)) :
    ∀ e ∈ admissibleTable chunkMax t, e.2.length ≤ chunkMax := by simp [admissibleTable]

/-- The reference values of rule R6's table; the OPEN ones stay free. The seven opcode numbers are parameter defaults
the spec takes from general knowledge (D4, G1). -/
def referenceParameters : Parameters where
  width := 240
  height := 240
  chunkMax := 4096
  tRst := 10
  tRstPost := 0
  tSlpout := 120
  tDispon := 20
  initTable := admissibleTable 4096 openInitTable
  opCaset := 0x2A#8
  opRaset := 0x2B#8
  opRamwr := 0x2C#8
  opTeon := 0x35#8
  opInvoff := 0x20#8
  opSlpout := 0x11#8
  opDispon := 0x29#8
  clearColor := openClearColor
  pinRst := (distinctPins openPins).1
  pinDc := (distinctPins openPins).2.1
  pinBl := (distinctPins openPins).2.2

/-- The reference instance. -/
def reference : Config where
  toParameters := referenceParameters
  wf := by
    refine ⟨by decide, by decide, by decide, by decide, by decide, by decide, by decide, by decide,
      admissibleTable_bound 4096 openInitTable, distinctPins_distinct openPins, by decide⟩

end Config
end Sys2Proof
end

