-- ==== Sys2Proof/Syntax.lean ====
section
/-! DEFINITION. The operations of the block as data: one constructor of `Instr` per row of spec/opcode_table.json, the
operand values the host presents with an operation (10_state.md rules R21 to R24), and the requests in which an
operation reaches the block (30_encoding.md rules R90 to R100, R107). -/

namespace Sys2Proof

/-- One pixel of an image as the image port returns it: three 8-bit channels (R24). -/
structure Rgb where
  r : Byte
  g : Byte
  b : Byte
  deriving DecidableEq, Repr

/-- The image operand of `show` (R24): its two sizes, compared as naturals, and its pixels in row-major order. The list
is the graph of `GetPixel`, a pure function of `(x, y)` for the whole of one `show` (R79, R195). An alpha channel is no
part of the port. -/
structure Image where
  width : Nat
  height : Nat
  pixels : List Rgb
  deriving DecidableEq, Repr

/-- The instruction set: the twenty rows of spec/opcode_table.json, in the table's order. -/
inductive Instr where
  /-- `reset()`, HOST 000 (R141). -/
  | reset
  /-- `init()`, HOST 001 (R143). -/
  | init
  /-- `clear()`, HOST 010 (R205). -/
  | clear
  /-- `fill(color)`, HOST 011 (R203). -/
  | fill (color : U16)
  /-- `setWindow(x, y, w, h)`, HOST 100 (R170). -/
  | setWindow (x y w h : U16)
  /-- `setBacklight(level)`, HOST 101 (R220). -/
  | setBacklight (level : I32)
  /-- `show(image)`, HOST 110 (R207). -/
  | showImage (image : Image)
  /-- `release()`, HOST 111 (R228). -/
  | release
  /-- `sendCommand(opcode)`, MICRO (R121). -/
  | sendCommand (opcode : Byte)
  /-- `sendData(bytes)`, MICRO (R123). -/
  | sendData (bytes : List Byte)
  /-- `stream(buf)`, MICRO_SEQ (R199). -/
  | stream (buf : List Byte)
  /-- CASET, the column-range transaction with its first and its inclusive last column (R171, R97). -/
  | caset (first last : U16)
  /-- RASET, the row-range transaction with its first and its inclusive last row (R172, R97). -/
  | raset (first last : U16)
  /-- RAMWR, the memory-write Command alone (R173). -/
  | ramwr
  /-- TEON, the tearing-effect-on Command (R147). -/
  | teon
  /-- INVOFF, the display-inversion-off Command (R148). -/
  | invoff
  /-- SLPOUT, the sleep-out Command and its delay (R149). -/
  | slpout
  /-- DISPON, the display-on Command and its delay (R150). -/
  | dispon
  /-- INIT_ENTRY, one entry of an initialisation table (R100, R146). -/
  | initEntry (opcode : Byte) (payload : List Byte)
  /-- DATA_BYTE, a Data Frame of one byte (R94, R123). -/
  | dataByte (d : Byte)
  deriving DecidableEq, Repr

/-- The operands a host call carries beside its `op` code (R90, R93). An operation's absent operands are absent, so a
call carries exactly one of these shapes. -/
inductive Operands where
  /-- no operand: `reset`, `init`, `clear`, `release` -/
  | none
  /-- the colour operand of `fill` (R22) -/
  | color (color : U16)
  /-- the four window operands of `setWindow` (R21) -/
  | window (x y w h : U16)
  /-- the signed operand of `setBacklight` (R23) -/
  | level (level : I32)
  /-- the image port of `show` (R24) -/
  | image (image : Image)
  deriving DecidableEq, Repr

/-- The six formats of spec/opcode_table.json (R107). -/
inductive Format where
  | host | micro | microSeq | wireCmd | wireTable | wireData
  deriving DecidableEq, Repr

/-- One operation as it is presented to the block: a host call `{op, operands}` (R90, R91), or the tagged bytes of one
of the five wire-level formats (R94, R107). The rows of those formats share bit patterns, so the format is part of the
request (log entry 5). Only the HOST format is on the public driver surface. -/
inductive Request where
  | host (op : BitVec 3) (operands : Operands)
  | micro (bytes : List Tagged)
  | microSeq (bytes : List Tagged)
  | wireCmd (bytes : List Tagged)
  | wireTable (bytes : List Tagged)
  | wireData (bytes : List Tagged)
  deriving DecidableEq, Repr

namespace Request

/-- The format of a request. -/
def format : Request → Format
  | .host _ _ => .host
  | .micro _ => .micro
  | .microSeq _ => .microSeq
  | .wireCmd _ => .wireCmd
  | .wireTable _ => .wireTable
  | .wireData _ => .wireData

end Request
end Sys2Proof
end

