-- ==== Sys2Proof/WellFormed.lean ====
section
/-! DEFINITION. Which instructions the spec gives a meaning for their operand values alone, whatever the state: the
hard constraints of `setWindow` (R170), the non-empty frame of `sendData` (R123), the payload bound of a table entry
(R7), and an image port that answers for every pixel it claims to have (R24). The two coordinates of a CASET or RASET
row are admitted in any order (DESIGN CHOICE, log entry 30). -/

namespace Sys2Proof

/-- Well-formed operands, for a parameter set `c`. -/
def wellFormed (c : Config) : Instr → Bool
  | .reset => true
  | .init => true
  | .clear => true
  | .fill _ => true
  | .setWindow x y w h =>
      decide (0 < w.toNat) && decide (0 < h.toNat) &&
        decide (x.toNat + w.toNat - 1 ≤ 65535) && decide (y.toNat + h.toNat - 1 ≤ 65535)
  | .setBacklight _ => true
  | .showImage image => image.pixels.length == image.width * image.height
  | .release => true
  | .sendCommand _ => true
  | .sendData bytes => !bytes.isEmpty
  | .stream _ => true
  | .caset _ _ => true
  | .raset _ _ => true
  | .ramwr => true
  | .teon => true
  | .invoff => true
  | .slpout => true
  | .dispon => true
  | .initEntry _ payload => decide (payload.length ≤ c.chunkMax)
  | .dataByte _ => true

end Sys2Proof
end

