-- ==== Sys2Proof/Decode.lean ====
section
/-! DEFINITION. The decoder (total on every request, rejecting by `none`), the encoder, the byte split of rule R8, and
the reading of a bare word of spec/opcode_table.json. -/

namespace Sys2Proof

/-! ## Bytes and tagged bytes -/

/-- `hi8(v) = v[15:8]` (R8). -/
def hi8 (v : U16) : Byte := v.extractLsb' 8 8

/-- `lo8(v) = v[7:0]` (R8). -/
def lo8 (v : U16) : Byte := v.extractLsb' 0 8

/-- A 16-bit value as it goes onto the bus: high byte first (R62). -/
def bigEndian (v : U16) : List Byte := [hi8 v, lo8 v]

/-- The tagged byte of a Command, `{0, opcode}` (R94). -/
def tagCommand (b : Byte) : Tagged := 0#1 ++ b

/-- The tagged byte of a data byte, `{1, d}` (R94). -/
def tagData (b : Byte) : Tagged := 1#1 ++ b

/-- Bit 8 of a tagged byte: set for a data byte (R94). -/
def isData (t : Tagged) : Bool := t.msb

/-- Bits 7..0 of a tagged byte (R94). -/
def byteOf (t : Tagged) : Byte := t.extractLsb' 0 8

/-- The bytes of a run of data-tagged bytes; `none` where a Command byte stands among them (R95). -/
def dataBytes (ts : List Tagged) : Option (List Byte) :=
  if ts.all isData then some (ts.map byteOf) else none

/-! ## Decoding -/

/-- A host call (R92). A call whose operands are not those of its operation is no call of the surface. -/
def decodeHost (op : BitVec 3) (operands : Operands) : Option Instr :=
  match op.toNat, operands with
  | 0, .none => some .reset
  | 1, .none => some .init
  | 2, .none => some .clear
  | 3, .color color => some (.fill color)
  | 4, .window x y w h => some (.setWindow x y w h)
  | 5, .level level => some (.setBacklight level)
  | 6, .image image => some (.showImage image)
  | 7, .none => some .release
  | _, _ => none

/-- One of the seven named Commands with the Data Frame that follows it (R96, R97). -/
def decodeNamed (c : Config) (opcode : Byte) (payload : List Byte) : Option Instr :=
  match payload with
  | [] =>
      if opcode = c.opRamwr then some .ramwr
      else if opcode = c.opTeon then some .teon
      else if opcode = c.opInvoff then some .invoff
      else if opcode = c.opSlpout then some .slpout
      else if opcode = c.opDispon then some .dispon
      else none
  | [b0, b1, b2, b3] =>
      if opcode = c.opCaset then some (.caset (b0 ++ b1) (b2 ++ b3))
      else if opcode = c.opRaset then some (.raset (b0 ++ b1) (b2 ++ b3))
      else none
  | _ => none

/-- A transaction: one Command byte and the data bytes after it (R95). -/
def decodeTransaction : List Tagged → Option (Byte × List Byte)
  | [] => none
  | t :: ts => if isData t then none else (dataBytes ts).map fun payload => (byteOf t, payload)

/-- MICRO: one Command byte is `sendCommand`, a non-empty run of data bytes is `sendData` (R94, R121, R123). -/
def decodeMicro : List Tagged → Option Instr
  | [] => none
  | t :: ts =>
      if isData t then (dataBytes (t :: ts)).map .sendData
      else if ts = [] then some (.sendCommand (byteOf t)) else none

/-- WIRE_DATA: exactly one data byte (R94). -/
def decodeWireData : List Tagged → Option Instr
  | [t] => if isData t then some (.dataByte (byteOf t)) else none
  | _ => none

/-- The decoder. The opcodes of the named Commands are parameters (R96), so it takes the parameter set. -/
def decode (c : Config) : Request → Option Instr
  | .host op operands => decodeHost op operands
  | .micro ts => decodeMicro ts
  | .microSeq ts => (dataBytes ts).map .stream
  | .wireCmd ts => (decodeTransaction ts).bind fun t => decodeNamed c t.1 t.2
  | .wireTable ts => (decodeTransaction ts).map fun t => .initEntry t.1 t.2
  | .wireData ts => decodeWireData ts

/-! ## Encoding -/

/-- The tagged bytes of a transaction (R94, R95). -/
def encodeTransaction (opcode : Byte) (payload : List Byte) : List Tagged :=
  tagCommand opcode :: payload.map tagData

/-- The encoder, from the tables of rules R92, R94, R96, R97 and R100. -/
def encode (c : Config) : Instr → Request
  | .reset => .host 0b000#3 .none
  | .init => .host 0b001#3 .none
  | .clear => .host 0b010#3 .none
  | .fill color => .host 0b011#3 (.color color)
  | .setWindow x y w h => .host 0b100#3 (.window x y w h)
  | .setBacklight level => .host 0b101#3 (.level level)
  | .showImage image => .host 0b110#3 (.image image)
  | .release => .host 0b111#3 .none
  | .sendCommand opcode => .micro [tagCommand opcode]
  | .sendData bytes => .micro (bytes.map tagData)
  | .stream buf => .microSeq (buf.map tagData)
  | .caset first last => .wireCmd (encodeTransaction c.opCaset (bigEndian first ++ bigEndian last))
  | .raset first last => .wireCmd (encodeTransaction c.opRaset (bigEndian first ++ bigEndian last))
  | .ramwr => .wireCmd (encodeTransaction c.opRamwr [])
  | .teon => .wireCmd (encodeTransaction c.opTeon [])
  | .invoff => .wireCmd (encodeTransaction c.opInvoff [])
  | .slpout => .wireCmd (encodeTransaction c.opSlpout [])
  | .dispon => .wireCmd (encodeTransaction c.opDispon [])
  | .initEntry opcode payload => .wireTable (encodeTransaction opcode payload)
  | .dataByte d => .wireData [tagData d]

/-! ## The opcode table -/

/-- One row of spec/opcode_table.json: its format, its width in bits, and the mask and pattern of its first word. -/
structure Row where
  format : Format
  width : Nat
  mask : Nat
  pattern : Nat
  deriving DecidableEq, Repr

/-- The row an instruction stands for. The seven named Commands' patterns are those of the default opcodes. -/
def rowOf : Instr → Row
  | .reset => ⟨.host, 3, 0x7, 0x0⟩
  | .init => ⟨.host, 3, 0x7, 0x1⟩
  | .clear => ⟨.host, 3, 0x7, 0x2⟩
  | .fill _ => ⟨.host, 3, 0x7, 0x3⟩
  | .setWindow _ _ _ _ => ⟨.host, 3, 0x7, 0x4⟩
  | .setBacklight _ => ⟨.host, 3, 0x7, 0x5⟩
  | .showImage _ => ⟨.host, 3, 0x7, 0x6⟩
  | .release => ⟨.host, 3, 0x7, 0x7⟩
  | .sendCommand _ => ⟨.micro, 9, 0x100, 0x000⟩
  | .sendData _ => ⟨.micro, 9, 0x100, 0x100⟩
  | .stream _ => ⟨.microSeq, 9, 0x100, 0x100⟩
  | .caset _ _ => ⟨.wireCmd, 9, 0x1FF, 0x02A⟩
  | .raset _ _ => ⟨.wireCmd, 9, 0x1FF, 0x02B⟩
  | .ramwr => ⟨.wireCmd, 9, 0x1FF, 0x02C⟩
  | .teon => ⟨.wireCmd, 9, 0x1FF, 0x035⟩
  | .invoff => ⟨.wireCmd, 9, 0x1FF, 0x020⟩
  | .slpout => ⟨.wireCmd, 9, 0x1FF, 0x011⟩
  | .dispon => ⟨.wireCmd, 9, 0x1FF, 0x029⟩
  | .initEntry _ _ => ⟨.wireTable, 9, 0x100, 0x000⟩
  | .dataByte _ => ⟨.wireData, 9, 0x100, 0x100⟩

/-- The first word of a request, as the table numbers its bits. -/
def headWord : Request → Option Nat
  | .host op _ => some op.toNat
  | .micro ts | .microSeq ts | .wireCmd ts | .wireTable ts | .wireData ts => ts.head?.map BitVec.toNat

/-! ## Bare words of the table -/

/-- Operands of zeros, in the shape that an operation takes (R92). -/
def zeroOperands (op : BitVec 3) : Operands :=
  match op.toNat with
  | 3 => .color 0
  | 4 => .window 0 0 0 0
  | 5 => .level 0
  | 6 => .image ⟨0, 0, []⟩
  | _ => .none

/-- The request a bare tagged byte is read as, with operand bytes of zeros. A Command byte with one of the seven named
opcodes is that Command's transaction; any other Command byte is `sendCommand`; a data byte is `DATA_BYTE`
(log entry 5: these are the rows whose operand the word carries). -/
def wireRequest (t : Tagged) : Request :=
  if isData t then .wireData [t]
  else if byteOf t = Config.reference.opCaset ∨ byteOf t = Config.reference.opRaset then
    .wireCmd (t :: List.replicate 4 (tagData 0))
  else if byteOf t ∈ Config.reference.opcodes then .wireCmd [t]
  else .micro [t]

/-- The request a word of the opcode table stands for: a HOST row is 3 bits (one byte), every other row is a 9-bit
tagged byte (two bytes). Bits beyond the row's width must be zero. -/
def tableRequest (nbits w : Nat) : Option Request :=
  if nbits = 8 then
    if w < 8 then some (.host (BitVec.ofNat 3 w) (zeroOperands (BitVec.ofNat 3 w))) else none
  else if nbits = 16 then
    if w < 512 then some (wireRequest (BitVec.ofNat 9 w)) else none
  else none

/-- The instruction the decoder reads from a word of the opcode table, its operands zero. -/
def decodeTableWord (nbits w : Nat) : Option Instr :=
  (tableRequest nbits w).bind (decode Config.reference)

end Sys2Proof
end

