-- ==== Sys2Proof/Machine/State.lean ====
section
/-! DEFINITION. The state of the block (10_state.md rules R20 to R36), the events of its trace (00_scope.md rule R11),
the actions its sequences are made of, the reasons a step can stop, and the state right after reset (rule R40). -/

namespace Sys2Proof.Machine

/-- The two-valued level of a pin (R9). `low` is "command" and `high` is "data" on the control line (R30). -/
inductive Level where
  | low | high
  deriving DecidableEq, Repr

/-- The three pins, standing for `PIN_RST`, `PIN_DC`, `PIN_BL` (R9). -/
inductive Pin where
  | rst | dc | bl
  deriving DecidableEq, Repr

/-- The Initializer's state (R26, R140). -/
inductive Phase where
  | uninitialized | resetting | configuring | sleepingOut | displayOn
  deriving DecidableEq, Repr

/-- `LatchVal` (R29): the level last driven, or `unknown` when the pin has not been driven since it was opened or the
last write to it failed. -/
inductive LatchVal where
  | known (l : Level)
  | unknown
  deriving DecidableEq, Repr

/-- The four handle flags `open[·]` (R27). -/
structure Handles where
  rst : Bool
  dc : Bool
  bl : Bool
  spi : Bool
  deriving DecidableEq, Repr

/-- The three output latches `lat[·]` (R29). -/
structure Latches where
  rst : LatchVal
  dc : LatchVal
  bl : LatchVal
  deriving DecidableEq, Repr

/-- An addressing window, both ends inclusive (R34, 90_conflicts.md C1). -/
structure Window where
  x0 : U16
  x1 : U16
  y0 : U16
  y1 : U16
  deriving DecidableEq, Repr

/-- The transport calls that can answer `error` (R11, R12, R13, R15 to R17). -/
inductive Call where
  | gpioOpen (p : Pin)
  | gpioWrite (p : Pin) (l : Level)
  | spiWrite (dc : Level) (bytes : List Byte)
  | gpioClose (p : Pin)
  | spiClose
  deriving DecidableEq, Repr

/-- The event alphabet of the trace (R11). -/
inductive Event where
  | evOpen (p : Pin)
  | evWrite (p : Pin) (l : Level)
  | evSpi (dc : Level) (bytes : List Byte)
  | evSleep (ms : Nat)
  | evClose (p : Pin)
  | evSpiClose
  | evFail (c : Call)
  deriving DecidableEq, Repr

/-- What the environment answers to one transport call: `ok`, `error`, or never (R12, R19, R39). -/
inductive Answer where
  | ok | error | noReturn
  deriving DecidableEq, Repr

/-- The result of a host operation (R25, R240). -/
inductive Result where
  | ok | configurationError | dimensionMismatchError | transportError
  deriving DecidableEq, Repr

/-- One entry of a fixed sequence: a transport call, or an assignment that the pseudocode writes between calls. -/
inductive Action where
  /-- `GpioOpen(p)` (R15). -/
  | gpioOpen (p : Pin)
  /-- `GpioWrite(p, l)` (R12). -/
  | gpioWrite (p : Pin) (l : Level)
  /-- `SpiWrite(bs)` (R13). -/
  | spiWrite (bytes : List Byte)
  /-- `Sleep(ms)` (R14). -/
  | sleep (ms : Nat)
  /-- `GpioClose(p)` (R16). -/
  | gpioClose (p : Pin)
  /-- `SpiClose()` (R17). -/
  | spiClose
  /-- `phase <- ph`. -/
  | setPhase (ph : Phase)
  /-- `last_cmd <- none ; win <- none ; armed <- false` (R141). -/
  | clearShadow
  /-- `armed <- false` (R121, R200). -/
  | disarm
  /-- `last_cmd <- some opcode` (R121). -/
  | setLastCmd (opcode : Byte)
  /-- `win <- some w ; armed <- true` (R173). -/
  | programWindow (w : Window)
  /-- The loop over `INIT_TABLE` goes on to the next entry (R143 step 3): the table index of the position advances. -/
  | nextEntry
  /-- `off = 0` (R199): a pixel stream starts, and with it the byte offset of the position. -/
  | startStream
  deriving DecidableEq, Repr

/-- How an operation ends: which clause of rule R246 applies when it meets a `TransportError`, and whether it writes a
status when it completes. -/
inductive Ending where
  /-- A host operation of R246 (a): an error leaves the display undefined. Status `Ok` on completion. -/
  | controllerFacing
  /-- A host operation of R246 (b) or (c): an error has no effect beyond the failing call's own. Status `Ok` on
  completion. -/
  | ownEffectOnly
  /-- A row outside the host surface (R107): an error as in R246 (a) (log entry 10). "Status written: none" (R121,
  R123; log entry 29). -/
  | internal
  deriving DecidableEq, Repr

/-- The sequencer position while an operation runs (R36): which operation, the actions it has completed, oldest first,
and the actions still to do. The call index, the table index and the byte offset are views of it
(Machine/Sequencer.lean). -/
structure Running where
  instr : Instr
  ending : Ending
  done : List Action
  rest : List Action
  deriving DecidableEq, Repr

/-- The state of the block. The fields from `phase` to `trace` are rule R20's record. -/
structure State where
  /-- The parameters (R6, R39): an instance that meets R7; fixed, never written by any step. -/
  cfg : Config
  /-- `phase` (R26). -/
  phase : Phase
  /-- `open[RST]`, `open[DC]`, `open[BL]`, `open[SPI]` (R27). -/
  handles : Handles
  /-- `lat[RST]`, `lat[DC]`, `lat[BL]` (R29). -/
  lat : Latches
  /-- `last_cmd` (R33), shadow. -/
  lastCmd : Option Byte
  /-- `win` (R34), shadow. -/
  win : Option Window
  /-- `armed` (R35), shadow. -/
  armed : Bool
  /-- `trace` (R32), oldest event first. -/
  trace : List Event
  /-- The status the last operation wrote (R25, R240), `none` when it wrote none (R121, R123) or is still running: an
  output, read by no rule, and gone when the next operation starts ("not kept as state between operations", log entry 29). -/
  result : Option Result
  /-- The sequencer position (R36); `none` between operations. -/
  seq : Option Running
  /-- The host's operations still to come, in order (R105): the input `op` and its operands (R21 to R25). -/
  requests : List Request
  /-- The environment's answers to the coming transport calls, in order (R39); a call past the end of the list is
  answered `ok` (log entry 2). -/
  answers : List Answer
  deriving DecidableEq, Repr

/-- Why the machine stops without an answer to the host. -/
inductive Fault where
  /-- A transport call never returns (R19, U6). Raised by every instruction that makes a call, at the first call whose
  answer is `noReturn`; carries that call's action and the state in which the block is stuck, to which no event has been
  added. Safe: the spec says the block makes no further step. -/
  | transportNeverReturns (a : Action) (stuck : State)
  /-- A bus write with `lat[DC] = Unknown`, which rule R13 derives never happens: every sequence writes `DC` first.
  Raised only by a sequencer position that no operation starts. Safe: the machine stops. -/
  | controlLineUnknown (stuck : State)
  deriving DecidableEq, Repr

/-- Why an operation is given no meaning. All are safe: nothing is claimed of the refused run. -/
inductive Refusal where
  /-- The instruction has no meaning in this model yet. -/
  | notModelled (mnemonic : String)
  /-- Any operation but `release()` on a session that is not live (R28, R291, U8, D18). -/
  | sessionNotLive
  /-- `setWindow` with `w = 0`, `h = 0`, or an end above 65535 (R174, U7, D24). -/
  | windowConstraint
  /-- `fill`, `clear`, `show` or `setWindow` while `phase` is not `DisplayOn` (R280, U1, D20). -/
  | pixelBeforeDisplayOn
  /-- `sendData` of no byte (U9). -/
  | emptyData
  /-- A table entry whose payload is longer than `CHUNK_MAX`, which rule R7 and D7 reject. -/
  | tableEntryTooLong
  /-- `show` of an image of the right size whose port does not answer for every pixel (U12, excluded by R24 and D25). -/
  | imageNotTotal
  /-- An operation issued while another runs: the host has no such move (R258, U5). -/
  | operationRunning
  /-- A request that is no call of the surface and no transaction of the wire protocol (R90, R95). -/
  | notAnOperation
  /-- A construction from parameters that do not meet rule R7 (D7): the model accepts no such instance (log entry 28).
  Raised by `construct` only. -/
  | parametersNotAdmissible
  deriving DecidableEq, Repr

/-- The state immediately after a successful construction (R40). The parameters are the reference instance, no operation
has been issued, and the environment's answers are all `ok` (log entries 1, 2). -/
def State.reset : State where
  cfg := Config.reference
  phase := .uninitialized
  handles := ⟨true, true, true, true⟩
  lat := ⟨.unknown, .unknown, .unknown⟩
  lastCmd := none
  win := none
  armed := false
  trace := [.evOpen .rst, .evOpen .dc, .evOpen .bl]
  result := some .ok
  seq := none
  requests := []
  answers := []

end Sys2Proof.Machine
end

