-- ==== Sys2Proof/Machine/Operands.lean ====
section
/-! DEFINITION. Operand assembly (30_encoding.md rules R101 to R103) and the Pixel Pipeline's pure functions
(43_pixel_pipeline.md rules R185, R188, R191, R195 to R197, R199). -/

namespace Sys2Proof.Machine

/-! ## Window operands -/

/-- `start + extent − 1` in exact natural arithmetic (R101, R170). -/
def lastOf (start extent : U16) : Nat := start.toNat + extent.toNat - 1

/-- The hard constraints of `setWindow` (R170). -/
def windowFits (x y w h : U16) : Bool :=
  decide (0 < w.toNat) && decide (0 < h.toNat) && decide (lastOf x w ≤ 65535) && decide (lastOf y h ≤ 65535)

/-- The inclusive window of `setWindow`'s operands (R170); meant where `windowFits`. -/
def windowOf (x y w h : U16) : Window :=
  ⟨x, BitVec.ofNat 16 (lastOf x w), y, BitVec.ofNat 16 (lastOf y h)⟩

/-- The full display, `(0, WIDTH − 1, 0, HEIGHT − 1)`: the window of `setWindow(0, 0, WIDTH, HEIGHT)` (R70, R203). -/
def fullWindow (c : Config) : Window :=
  ⟨0, BitVec.ofNat 16 (c.width - 1), 0, BitVec.ofNat 16 (c.height - 1)⟩

/-! ## Backlight operand -/

/-- `High` when `level > 0` as a signed comparison, else `Low` (R103, R220). -/
def backlightLevel (level : I32) : Level := if 0 < level.toInt then .high else .low

/-! ## Colour -/

/-- `pack565(R, G, B)` (R185), every operand widened to 16 bits before it is shifted. -/
def pack565 (r g b : Byte) : U16 :=
  ((r.setWidth 16 &&& 0xF8#16) <<< 8) ||| ((g.setWidth 16 &&& 0xFC#16) <<< 3) ||| (b.setWidth 16 >>> 3)

/-- `unpack565(p)` (R188), the low bits filled with zero. No operation of the block: it states the lossy round trip. -/
def unpack565 (p : U16) : Byte × Byte × Byte :=
  ((p.extractLsb' 11 5).setWidth 8 <<< 3, (p.extractLsb' 5 6).setWidth 8 <<< 2, (p.extractLsb' 0 5).setWidth 8 <<< 3)

/-! ## Image and frame buffer -/

/-- `GetPixel(x, y)` (R24, R195); `none` outside what the port answers for. -/
def getPixel (image : Image) (x y : Nat) : Option Rgb :=
  if x < image.width ∧ y < image.height then image.pixels[y * image.width + x]? else none

/-- Whether the port answers for every `0 ≤ x < img_width`, `0 ≤ y < img_height` (R24, D25). -/
def imageTotal (image : Image) : Bool := image.pixels.length == image.width * image.height

/-- The two bytes of one pixel of an image (R190, R196); no byte outside the port, where `show` never reads (R195). -/
def pixelBytes (image : Image) (x y : Nat) : List Byte :=
  match getPixel image x y with
  | some p => bigEndian (pack565 p.r p.g p.b)
  | none => []

/-- `convert(img)` (R196): rows outer, columns inner, high byte first, so that the pixel at `(x, y)` lies at
`2 × (y × WIDTH + x)` (R69). -/
def convert (c : Config) (image : Image) : List Byte :=
  (List.range c.height).flatMap fun y => (List.range c.width).flatMap fun x => pixelBytes image x y

/-- `solid(c)` (R197). -/
def solid (c : Config) (color : U16) : List Byte :=
  (List.replicate (c.width * c.height) (bigEndian color)).flatten

/-! ## Chunks -/

/-- `ceil(n / c)`, the number of chunks of a buffer of `n` bytes (R191). -/
def chunkCount (c n : Nat) : Nat := (n + c - 1) / c

/-- The first `k` slices of `c` bytes of a buffer, in increasing offset; the last one is what is left (R199). -/
def slices (c : Nat) : Nat → List Byte → List (List Byte)
  | 0, _ => []
  | k + 1, buf => buf.take c :: slices c k (buf.drop c)

/-- The chunks of a buffer of `n` bytes (R199). The length is an argument so that a frame need not be counted byte by
byte; it is always `len(buf)`. -/
def chunks (c n : Nat) (buf : List Byte) : List (List Byte) := slices c (chunkCount c n) buf

end Sys2Proof.Machine
end

