-- ==== Sys2Proof/Machine/Flags.lean ====
section
/-! DEFINITION. The status codes of the block. It has no flags or condition codes (10_state.md rule R25): the only
status is the result of an operation (60_exceptions.md rule R240); the phase has a binary encoding for an
implementation that wants one (10_state.md rule R26). -/

namespace Sys2Proof.Machine

/-- `result[1:0]` (R240). -/
def Result.code : Result → BitVec 2
  | .ok => 0b00#2
  | .configurationError => 0b01#2
  | .dimensionMismatchError => 0b10#2
  | .transportError => 0b11#2

/-- The 3-bit encoding of `phase` (R26); 5 to 7 are unused. -/
def Phase.code : Phase → BitVec 3
  | .uninitialized => 0#3
  | .resetting => 1#3
  | .configuring => 2#3
  | .sleepingOut => 3#3
  | .displayOn => 4#3

end Sys2Proof.Machine
end

