-- ==== Sys2Proof/Machine/Ops.lean ====
section
/-! DEFINITION. The named operations over the state: the trace, the latches and the handle flags; the transport calls
(00_scope.md rules R12 to R17) and their non-return (rule R19); a sequence of actions run to its end; raising an error,
which is the block's only exception (rule R18, 60_exceptions.md rules R246, R247, R250); and the checks that come before
an operation's first call (rule R249). -/

namespace Sys2Proof.Machine

namespace State

/-! ## Trace, latches, handles -/

/-- `trace <- trace ++ [e]` (R11). -/
def log (s : State) (e : Event) : State := { s with trace := s.trace ++ [e] }

/-- `lat[p]` (R29). -/
def latch (s : State) : Pin → LatchVal
  | .rst => s.lat.rst
  | .dc => s.lat.dc
  | .bl => s.lat.bl

/-- `lat[p] <- v` (R29). -/
def setLatch (s : State) (p : Pin) (v : LatchVal) : State :=
  match p with
  | .rst => { s with lat := { s.lat with rst := v } }
  | .dc => { s with lat := { s.lat with dc := v } }
  | .bl => { s with lat := { s.lat with bl := v } }

/-- `open[p]` for a pin (R27). -/
def isOpen (s : State) : Pin → Bool
  | .rst => s.handles.rst
  | .dc => s.handles.dc
  | .bl => s.handles.bl

/-- `open[p] <- v` for a pin (R27). -/
def setOpen (s : State) (p : Pin) (v : Bool) : State :=
  match p with
  | .rst => { s with handles := { s.handles with rst := v } }
  | .dc => { s with handles := { s.handles with dc := v } }
  | .bl => { s with handles := { s.handles with bl := v } }

/-- `open[SPI] <- v` (R27). -/
def setSpiOpen (s : State) (v : Bool) : State := { s with handles := { s.handles with spi := v } }

/-- The session is live: it owns all four handles (R28). -/
def live (s : State) : Bool := s.handles.rst && s.handles.dc && s.handles.bl && s.handles.spi

/-- `last_cmd <- none ; win <- none ; armed <- false` (R141, R246). -/
def clearShadow (s : State) : State := { s with lastCmd := none, win := none, armed := false }

/-- An operation starts: the status of the one before it is not kept (R25, log entry 29). -/
def begin (s : State) : State := { s with result := none }

/-- A status is written and returned to the host (R18, R25, R250). -/
def report (s : State) (r : Result) : State := { s with result := some r }

/-- An operation has completed: a host operation writes `Ok`, a row outside the host surface writes no status (R121,
R123, R240). -/
def finish (s : State) : Ending → State
  | .controllerFacing => s.report .ok
  | .ownEffectOnly => s.report .ok
  | .internal => s

end State

/-! ## Transport calls -/

/-- How an action ends: it completed, its call answered `error` (the call's own effect is in the state and a
`TransportError` is raised), or the block is stuck. -/
inductive Res where
  | ok (s : State)
  | err (s : State)
  | stuck (f : Fault)
  deriving DecidableEq, Repr

/-- One transport call: `onOk` on the answer `ok`; on `error` the event `EvFail(c)` and then `onErr`; on no return the
block is stuck with no event appended (R12, R13, R15 to R17, R19). Each call takes the next answer of the
environment. -/
def transportCall (a : Action) (c : Call) (onOk onErr : State → State) (s : State) : Res :=
  match s.answers with
  | [] => .ok (onOk s)
  | .ok :: rest => .ok (onOk { s with answers := rest })
  | .error :: rest => .err (onErr ({ s with answers := rest }.log (.evFail c)))
  | .noReturn :: _ => .stuck (.transportNeverReturns a s)

/-- `GpioOpen(p)` (R15). -/
def gpioOpen (p : Pin) (s : State) : Res :=
  transportCall (.gpioOpen p) (.gpioOpen p) (fun s => ((s.log (.evOpen p)).setOpen p true).setLatch p .unknown) id s

/-- `GpioWrite(p, l)` (R12). -/
def gpioWrite (p : Pin) (l : Level) (s : State) : Res :=
  transportCall (.gpioWrite p l) (.gpioWrite p l) (fun s => (s.log (.evWrite p l)).setLatch p (.known l))
    (fun s => s.setLatch p .unknown) s

/-- `SpiWrite(bs)` (R13): the event carries the level `lat[DC]` has at the call. -/
def spiWrite (bytes : List Byte) (s : State) : Res :=
  match s.lat.dc with
  | .known dc => transportCall (.spiWrite bytes) (.spiWrite dc bytes) (fun s => s.log (.evSpi dc bytes)) id s
  | .unknown => .stuck (.controlLineUnknown s)

/-- `Sleep(ms)` (R14). It has no error answer (D23), so an `error` in the environment's script is a completed delay;
like every call it may never return (R19). -/
def sleep (ms : Nat) (s : State) : Res :=
  match s.answers with
  | [] => .ok (s.log (.evSleep ms))
  | .noReturn :: _ => .stuck (.transportNeverReturns (.sleep ms) s)
  | _ :: rest => .ok ({ s with answers := rest }.log (.evSleep ms))

/-- `GpioClose(p)` (R16): the handle is marked not open whichever way the call answers (D17). -/
def gpioClose (p : Pin) (s : State) : Res :=
  transportCall (.gpioClose p) (.gpioClose p) (fun s => (s.log (.evClose p)).setOpen p false)
    (fun s => s.setOpen p false) s

/-- `SpiClose()` (R17). -/
def spiClose (s : State) : Res :=
  transportCall .spiClose .spiClose (fun s => (s.log .evSpiClose).setSpiOpen false) (fun s => s.setSpiOpen false) s

/-! ## Sequences -/

/-- One action of a sequence. The last two move the sequencer position only (R36). -/
def act (a : Action) (s : State) : Res :=
  match a with
  | .gpioOpen p => gpioOpen p s
  | .gpioWrite p l => gpioWrite p l s
  | .spiWrite bytes => spiWrite bytes s
  | .sleep ms => sleep ms s
  | .gpioClose p => gpioClose p s
  | .spiClose => spiClose s
  | .setPhase ph => .ok { s with phase := ph }
  | .clearShadow => .ok s.clearShadow
  | .disarm => .ok { s with armed := false }
  | .setLastCmd opcode => .ok { s with lastCmd := some opcode }
  | .programWindow w => .ok { s with win := some w, armed := true }
  | .nextEntry => .ok s
  | .startStream => .ok s

/-- A sequence in its order, ended at once by the first call that fails or never returns (R18, R72, R245). -/
def runActions : List Action → State → Res
  | [], s => .ok s
  | a :: rest, s =>
    match act a s with
    | .ok s' => runActions rest s'
    | .err s' => .err s'
    | .stuck f => .stuck f

/-! ## Errors: the block's exceptions -/

/-- `raise TransportError` (R18, R246, R250): clause (a) sets `phase <- Uninitialized` and clears the shadow fields
(for the rows outside the host surface too: log entry 10); clauses (b) and (c) change nothing beyond the failing call's
own effect. Control returns to the host. There is no return
from an error: the abandoned calls are never made (R251). -/
def raiseTransportError (e : Ending) (s : State) : State :=
  match e with
  | .controllerFacing => ({ s with phase := .uninitialized }.clearShadow).report .transportError
  | .ownEffectOnly => s.report .transportError
  | .internal => ({ s with phase := .uninitialized }.clearShadow).report .transportError

/-! ## Operations -/

/-- What an operation does, decided before its first transport call: it is refused, it ends in an error that changes
nothing (R247), or it runs a fixed sequence (R36, R106). -/
inductive Plan where
  | refuse (r : Refusal)
  | fail (e : Result)
  | go (ending : Ending) (actions : List Action)
  deriving DecidableEq, Repr

/-- An operation as one big step (R36, D27). -/
def perform (p : Plan) (s : State) : Host.Outcome State Fault Refusal :=
  match p with
  | .refuse r => .refused r
  | .fail e => .next (s.report e)
  | .go ending actions =>
    match runActions actions s.begin with
    | .ok s' => .next (s'.finish ending)
    | .err s' => .next (raiseTransportError ending s')
    | .stuck f => .fault f

/-- The host has no move while an operation is running (R258). -/
def whenIdle (s : State) (p : Plan) : Plan := if s.seq.isSome then .refuse .operationRunning else p

/-- Every operation but `release()` needs a live session; this check comes first (R28, R249 (1)). -/
def whenLive (s : State) (p : Plan) : Plan :=
  whenIdle s (if s.live then p else .refuse .sessionNotLive)

/-- The pixel operations and the public `setWindow` need `DisplayOn` (R280, R249 (4)). -/
def whenDisplayOn (s : State) (p : Plan) : Plan :=
  if s.phase = .displayOn then p else .refuse .pixelBeforeDisplayOn

end Sys2Proof.Machine
end

