-- ==== Sys2Proof/Machine/Framer.lean ====
section
/-! DEFINITION. The Command/Data Framer (40_framer.md): the two micro-operations, and the wire-level data byte. It is
the only part that writes the pin `DC` or the bus (rule R122). -/

namespace Sys2Proof.Machine

/-- The sequence of `sendCommand(opcode)` (R121): the control line before the bus write (R73, R124), the pin written on
every call (D8). -/
def sendCommandSeq (opcode : Byte) : List Action :=
  [.disarm, .gpioWrite .dc .low, .spiWrite [opcode], .setLastCmd opcode]

/-- The sequence of `sendData(bytes)` (R123): one bus write, the pin written on every call (D8). -/
def sendDataSeq (bytes : List Byte) : List Action := [.gpioWrite .dc .high, .spiWrite bytes]

/-- A transaction (R95, R125): the Command and, when its payload is not empty, one Data Frame (R100, R146). -/
def transactionSeq (opcode : Byte) (payload : List Byte) : List Action :=
  sendCommandSeq opcode ++ if payload.isEmpty then [] else sendDataSeq payload

/-- `sendCommand(opcode)` (R121), every opcode legal (R104). -/
def planSendCommand (opcode : Byte) (s : State) : Plan :=
  whenLive s (.go .internal (sendCommandSeq opcode))

/-- `sendData(bytes)` (R123); no meaning for no byte (U9). DESIGN CHOICE: by itself it runs with no Command before it,
`last_cmd` none included, and with any number of bytes (log entry 32). -/
def planSendData (bytes : List Byte) (s : State) : Plan :=
  whenLive s (if bytes.isEmpty then .refuse .emptyData else .go .internal (sendDataSeq bytes))

/-- A Data Frame of one byte (R94, R123). DESIGN CHOICE: by itself it runs with no Command before it, `last_cmd` none
included (log entry 32). -/
def planDataByte (d : Byte) (s : State) : Plan := whenLive s (.go .internal (sendDataSeq [d]))

def execSendCommand (opcode : Byte) (s : State) : Host.Outcome State Fault Refusal :=
  perform (planSendCommand opcode s) s

def execSendData (bytes : List Byte) (s : State) : Host.Outcome State Fault Refusal :=
  perform (planSendData bytes s) s

def execDataByte (d : Byte) (s : State) : Host.Outcome State Fault Refusal :=
  perform (planDataByte d s) s

end Sys2Proof.Machine
end

