-- ==== Sys2Proof/Machine/Initializer.lean ====
section
/-! DEFINITION. The Controller Initializer (41_initializer.md): `reset`, `init`, and the transactions `init` is made of
(a table entry and the four tail Commands). It owns the pin `RST`. -/

namespace Sys2Proof.Machine

/-- `resetBody()` (R141, R142): the pulse High, Low, High with a delay after each of the first two levels, and a third
delay when `T_RST_POST > 0`. -/
def resetBodySeq (c : Config) : List Action :=
  [.setPhase .resetting, .clearShadow,
   .gpioWrite .rst .high, .sleep c.tRst, .gpioWrite .rst .low, .sleep c.tRst, .gpioWrite .rst .high] ++
  if 0 < c.tRstPost then [.sleep c.tRstPost] else []

/-- `reset()` (R141): a stand-alone reset ends in `Uninitialized`. -/
def resetSeq (c : Config) : List Action := resetBodySeq c ++ [.setPhase .uninitialized]

/-- The table, entry by entry in list order (R143 step 3, R146). -/
def tableSeq (table : List (Byte × List Byte)) : List Action :=
  table.flatMap fun e => transactionSeq e.1 e.2 ++ [.nextEntry]

/-- `init()` (R143), steps 1 to 8 (R144 to R151). -/
def initSeq (c : Config) : List Action :=
  resetBodySeq c ++
  [.setPhase .configuring] ++
  tableSeq c.initTable ++
  sendCommandSeq c.opTeon ++
  sendCommandSeq c.opInvoff ++
  sendCommandSeq c.opSlpout ++
  [.setPhase .sleepingOut, .sleep c.tSlpout] ++
  sendCommandSeq c.opDispon ++
  [.sleep c.tDispon] ++
  [.setPhase .displayOn]

def planReset (s : State) : Plan := whenLive s (.go .controllerFacing (resetSeq s.cfg))

def planInit (s : State) : Plan := whenLive s (.go .controllerFacing (initSeq s.cfg))

/-- One table entry (R100, R146); a payload above `CHUNK_MAX` is rejected (R7, D7). -/
def planInitEntry (opcode : Byte) (payload : List Byte) (s : State) : Plan :=
  whenLive s
    (if s.cfg.chunkMax < payload.length then .refuse .tableEntryTooLong
     else .go .internal (transactionSeq opcode payload))

/-- The tearing-effect-on Command (R147), no Data Frame (D6). -/
def planTeon (s : State) : Plan := whenLive s (.go .internal (sendCommandSeq s.cfg.opTeon))

/-- The display-inversion-off Command (R148). -/
def planInvoff (s : State) : Plan := whenLive s (.go .internal (sendCommandSeq s.cfg.opInvoff))

/-- The sleep-out Command and its delay (R149). `phase <- SleepingOut` is `init()`'s own assignment (R26, R152), so it
stands in `initSeq` (log entry 7). -/
def planSlpout (s : State) : Plan :=
  whenLive s (.go .internal (sendCommandSeq s.cfg.opSlpout ++ [.sleep s.cfg.tSlpout]))

/-- The display-on Command and its delay (R150). -/
def planDispon (s : State) : Plan :=
  whenLive s (.go .internal (sendCommandSeq s.cfg.opDispon ++ [.sleep s.cfg.tDispon]))

def execReset (s : State) : Host.Outcome State Fault Refusal := perform (planReset s) s

def execInit (s : State) : Host.Outcome State Fault Refusal := perform (planInit s) s

def execInitEntry (opcode : Byte) (payload : List Byte) (s : State) : Host.Outcome State Fault Refusal :=
  perform (planInitEntry opcode payload s) s

def execTeon (s : State) : Host.Outcome State Fault Refusal := perform (planTeon s) s

def execInvoff (s : State) : Host.Outcome State Fault Refusal := perform (planInvoff s) s

def execSlpout (s : State) : Host.Outcome State Fault Refusal := perform (planSlpout s) s

def execDispon (s : State) : Host.Outcome State Fault Refusal := perform (planDispon s) s

end Sys2Proof.Machine
end

