-- ==== Sys2Proof/Machine/WindowManager.lean ====
section
/-! DEFINITION. The Addressing Window Manager (42_window.md): `setWindow` and its three transactions. -/

namespace Sys2Proof.Machine

/-- First transaction: the column range (R171, R97). -/
def casetSeq (c : Config) (first last : U16) : List Action :=
  sendCommandSeq c.opCaset ++ sendDataSeq (bigEndian first ++ bigEndian last)

/-- Second transaction: the row range (R172, R97). -/
def rasetSeq (c : Config) (first last : U16) : List Action :=
  sendCommandSeq c.opRaset ++ sendDataSeq (bigEndian first ++ bigEndian last)

/-- The body of `setWindow` for an inclusive window (R170): column, row, memory-write, then the shadow (R173). -/
def windowSeq (c : Config) (w : Window) : List Action :=
  casetSeq c w.x0 w.x1 ++ rasetSeq c w.y0 w.y1 ++ sendCommandSeq c.opRamwr ++ [.programWindow w]

/-- `setWindow(x, y, w, h)` (R170); checks in the order of rule R249. The display bounds are not checked (R175). -/
def planSetWindow (x y w h : U16) (s : State) : Plan :=
  whenLive s
    (if windowFits x y w h then whenDisplayOn s (.go .controllerFacing (windowSeq s.cfg (windowOf x y w h)))
     else .refuse .windowConstraint)

/-- The column-range transaction by itself (R171). DESIGN CHOICE: it runs with its ends in any order (log entry 30) and in
every phase (log entry 31). -/
def planCaset (first last : U16) (s : State) : Plan := whenLive s (.go .internal (casetSeq s.cfg first last))

/-- The row-range transaction by itself (R172). DESIGN CHOICE: it runs with its ends in any order (log entry 30) and in
every phase (log entry 31). -/
def planRaset (first last : U16) (s : State) : Plan := whenLive s (.go .internal (rasetSeq s.cfg first last))

/-- The memory-write Command by itself (R173). `win` and `armed` are `setWindow`'s own assignments (R34, R35), so they
stand in `windowSeq` (log entry 7). DESIGN CHOICE: it runs in every phase (log entry 31). -/
def planRamwr (s : State) : Plan := whenLive s (.go .internal (sendCommandSeq s.cfg.opRamwr))

def execSetWindow (x y w h : U16) (s : State) : Host.Outcome State Fault Refusal :=
  perform (planSetWindow x y w h s) s

def execCaset (first last : U16) (s : State) : Host.Outcome State Fault Refusal := perform (planCaset first last s) s

def execRaset (first last : U16) (s : State) : Host.Outcome State Fault Refusal := perform (planRaset first last s) s

def execRamwr (s : State) : Host.Outcome State Fault Refusal := perform (planRamwr s) s

end Sys2Proof.Machine
end

