-- ==== Sys2Proof/Machine/PixelPipeline.lean ====
section
/-! DEFINITION. The Pixel Pipeline (43_pixel_pipeline.md): `stream`, `fill`, `clear`, `show`. -/

namespace Sys2Proof.Machine

/-- `stream(buf)` for a buffer of `n` bytes (R199): one `sendData` per chunk, then `armed <- false` (R200). -/
def streamSeq (c : Config) (n : Nat) (buf : List Byte) : List Action :=
  [.startStream] ++ (chunks c.chunkMax n buf).flatMap sendDataSeq ++ [.disarm]

/-- A full frame: the full-display window, then the stream (R203, R207). -/
def frameSeq (c : Config) (buf : List Byte) : List Action :=
  windowSeq c (fullWindow c) ++ streamSeq c c.frameBytes buf

/-- `stream(buf)` (R199), for a buffer of any length. R199 says "Requires `armed`" and that it always holds; for the row
issued by itself this model drops that requirement, since the block reads no shadow field (D30, log entry 8).
DESIGN CHOICE: by itself it runs in every phase (log entry 31) and with no Command before it (log entry 32). -/
def planStream (buf : List Byte) (s : State) : Plan :=
  whenLive s (.go .internal (streamSeq s.cfg buf.length buf))

/-- `fill(color)` (R203). -/
def planFill (color : U16) (s : State) : Plan :=
  whenLive s (whenDisplayOn s (.go .controllerFacing (frameSeq s.cfg (solid s.cfg color))))

/-- `clear()` is `fill(CLEAR_COLOR)` (R205, D11). -/
def planClear (s : State) : Plan := planFill s.cfg.clearColor s

/-- `show(image)` (R207): the size check before everything but liveness (R208, R249 (2)), no event and no field changed
when it fails (R247); then the hazard, the conversion, the window and the stream (R209). -/
def planShow (image : Image) (s : State) : Plan :=
  whenLive s
    (if image.width = s.cfg.width ∧ image.height = s.cfg.height then
       whenDisplayOn s
         (if imageTotal image then .go .controllerFacing (frameSeq s.cfg (convert s.cfg image))
          else .refuse .imageNotTotal)
     else .fail .dimensionMismatchError)

def execStream (buf : List Byte) (s : State) : Host.Outcome State Fault Refusal := perform (planStream buf s) s

def execFill (color : U16) (s : State) : Host.Outcome State Fault Refusal := perform (planFill color s) s

def execClear (s : State) : Host.Outcome State Fault Refusal := perform (planClear s) s

def execShow (image : Image) (s : State) : Host.Outcome State Fault Refusal := perform (planShow image s) s

end Sys2Proof.Machine
end

