-- ==== Sys2Proof/Machine/Lifecycle.lean ====
section
/-! DEFINITION. Backlight Control and the session life cycle (44_backlight_lifecycle.md): `setBacklight`, `release`, and
construction, which is the block's reset and has no `op` code. -/

namespace Sys2Proof.Machine

/-- `setBacklight(level)` (R220): one call, on `BL`, in every phase of a live session (R222); an error leaves `phase`
and the shadow unchanged (R246 (b)). -/
def planSetBacklight (level : I32) (s : State) : Plan :=
  whenLive s (.go .ownEffectOnly [.gpioWrite .bl (backlightLevel level)])

/-- The sequence of `release()` (R228): a close of each handle that is open, in the order RST, DC, BL, SPI. A close
changes no other handle's flag, so which handles are open is decided before the first call. -/
def releaseSeq (owned : Handles) : List Action :=
  (if owned.rst then [.gpioClose .rst] else []) ++ (if owned.dc then [.gpioClose .dc] else []) ++
  (if owned.bl then [.gpioClose .bl] else []) ++ (if owned.spi then [.spiClose] else [])

/-- `release()` (R228): the one operation defined on a session that is not live (R28). -/
def planRelease (s : State) : Plan := whenIdle s (.go .ownEffectOnly (releaseSeq s.handles))

def execSetBacklight (level : I32) (s : State) : Host.Outcome State Fault Refusal :=
  perform (planSetBacklight level s) s

def execRelease (s : State) : Host.Outcome State Fault Refusal := perform (planRelease s) s

/-! ## Construction -/

/-- How a construction ends: with a live session; with an error and no session (R41; the trace of the attempt is kept
beside it); refused, for parameters that R7 does not admit; or stuck in a call that never returns. -/
inductive Constructed where
  | live (s : State)
  | failed (r : Result) (trace : List Event)
  | refused (r : Refusal)
  | stuck (f : Fault)
  deriving DecidableEq, Repr

/-- The bookkeeping of a construction before its first call: no pin open, nothing driven, an empty trace (R224, R273);
the SPI handle is given, not opened by the block. -/
def unopened (c : Config) (requests : List Request) (answers : List Answer) : State where
  cfg := c
  phase := .uninitialized
  handles := ⟨false, false, false, true⟩
  lat := ⟨.unknown, .unknown, .unknown⟩
  lastCmd := none
  win := none
  armed := false
  trace := []
  result := none
  seq := none
  requests := requests
  answers := answers

/-- The clean-up of a failed construction (R226): the pins already opened are closed in reverse order of opening, and
errors of these closes are not reported. -/
def closeQuietly : List Pin → State → Res
  | [], s => .ok s
  | p :: rest, s =>
    if s.isOpen p then
      match gpioClose p s with
      | .ok s' => closeQuietly rest s'
      | .err s' => closeQuietly rest s'
      | .stuck f => .stuck f
    else closeQuietly rest s

/-- Construction from an accepted instance (R224 to R226): `spi` and `gpio` say whether the two transport handles are
present. -/
def constructWith (c : Config) (spi gpio : Bool) (requests : List Request) (answers : List Answer) : Constructed :=
  if spi && gpio then
    match runActions [.gpioOpen .rst, .gpioOpen .dc, .gpioOpen .bl] (unopened c requests answers) with
    | .ok s => .live (s.report .ok)
    | .err s =>
      match closeQuietly [.bl, .dc, .rst] s with
      | .ok s' => .failed .transportError s'.trace
      | .err s' => .failed .transportError s'.trace
      | .stuck f => .stuck f
    | .stuck f => .stuck f
  else .failed .configurationError []

/-- `construct()` (R224): the model accepts the parameters that meet R7, and gives no meaning to a construction from
others (R7, D7). -/
def construct (p : Parameters) (spi gpio : Bool) (requests : List Request) (answers : List Answer) : Constructed :=
  if h : p.Wf then constructWith ⟨p, h⟩ spi gpio requests answers else .refused .parametersNotAdmissible

end Sys2Proof.Machine
end

