-- ==== Sys2Proof/Machine/Dispatch.lean ====
section
/-! DEFINITION. One arm per constructor of `Instr`: the meaning each row of spec/opcode_table.json is given. -/

namespace Sys2Proof.Machine

def exec (i : Instr) (s : State) : Host.Outcome State Fault Refusal :=
  match i with
  -- HOST
  | .reset => Sys2Proof.Machine.execReset s
  | .init => Sys2Proof.Machine.execInit s
  | .clear => Sys2Proof.Machine.execClear s
  | .fill color => Sys2Proof.Machine.execFill color s
  | .setWindow x y w h => Sys2Proof.Machine.execSetWindow x y w h s
  | .setBacklight level => Sys2Proof.Machine.execSetBacklight level s
  | .showImage image => Sys2Proof.Machine.execShow image s
  | .release => Sys2Proof.Machine.execRelease s
  -- MICRO and MICRO_SEQ
  | .sendCommand opcode => Sys2Proof.Machine.execSendCommand opcode s
  | .sendData bytes => Sys2Proof.Machine.execSendData bytes s
  | .stream buf => Sys2Proof.Machine.execStream buf s
  -- WIRE_CMD
  | .caset first last => Sys2Proof.Machine.execCaset first last s
  | .raset first last => Sys2Proof.Machine.execRaset first last s
  | .ramwr => Sys2Proof.Machine.execRamwr s
  | .teon => Sys2Proof.Machine.execTeon s
  | .invoff => Sys2Proof.Machine.execInvoff s
  | .slpout => Sys2Proof.Machine.execSlpout s
  | .dispon => Sys2Proof.Machine.execDispon s
  -- WIRE_TABLE and WIRE_DATA
  | .initEntry opcode payload => Sys2Proof.Machine.execInitEntry opcode payload s
  | .dataByte d => Sys2Proof.Machine.execDataByte d s

end Sys2Proof.Machine
end

