-- ==== Sys2Proof/Machine/Sequencer.lean ====
section
/-! DEFINITION. The sequencer position and the small-step view (10_state.md rule R36, decision D27): an operation is
started, and each tick completes one action of its sequence. `exec` is the big-step view of the same sequences. -/

namespace Sys2Proof.Machine

/-- What an instruction does, decided before its first call: the plan its meaning performs. -/
def planOf (i : Instr) (s : State) : Plan :=
  match i with
  | .reset => planReset s
  | .init => planInit s
  | .clear => planClear s
  | .fill color => planFill color s
  | .setWindow x y w h => planSetWindow x y w h s
  | .setBacklight level => planSetBacklight level s
  | .showImage image => planShow image s
  | .release => planRelease s
  | .sendCommand opcode => planSendCommand opcode s
  | .sendData bytes => planSendData bytes s
  | .stream buf => planStream buf s
  | .caset first last => planCaset first last s
  | .raset first last => planRaset first last s
  | .ramwr => planRamwr s
  | .teon => planTeon s
  | .invoff => planInvoff s
  | .slpout => planSlpout s
  | .dispon => planDispon s
  | .initEntry opcode payload => planInitEntry opcode payload s
  | .dataByte d => planDataByte d s

/-- Issue an operation to the small-step view: its sequence becomes the sequencer position (R36). -/
def start (i : Instr) (s : State) : Host.Outcome State Fault Refusal :=
  match planOf i s with
  | .refuse r => .refused r
  | .fail e => .next (s.report e)
  | .go ending actions => .next { s.begin with seq := some ⟨i, ending, [], actions⟩ }

/-- One small step of a running operation: the next action, or the return to the host. An `error` answer ends the
operation (R18) and the position is empty again (R36). -/
def advance (r : Running) (s : State) : Host.Outcome State Fault Refusal :=
  match r.rest with
  | [] => .next ({ s with seq := none }.finish r.ending)
  | a :: rest =>
    match act a s with
    | .ok s' => .next { s' with seq := some { r with done := r.done ++ [a], rest := rest } }
    | .err s' => .next (raiseTransportError r.ending { s' with seq := none })
    | .stuck f => .fault f

/-! ## Views of the position -/

/-- Whether an action is a transport call (R12 to R17). -/
def Action.isCall : Action → Bool
  | .gpioOpen _ => true
  | .gpioWrite _ _ => true
  | .spiWrite _ => true
  | .sleep _ => true
  | .gpioClose _ => true
  | .spiClose => true
  | .setPhase _ => false
  | .clearShadow => false
  | .disarm => false
  | .setLastCmd _ => false
  | .programWindow _ => false
  | .nextEntry => false
  | .startStream => false

/-- The bytes an action puts on the bus. -/
def Action.busBytes : Action → Nat
  | .spiWrite bytes => bytes.length
  | _ => 0

/-- How far through its sequence of transport calls an operation is (R36). -/
def Running.callIndex (r : Running) : Nat := r.done.countP Action.isCall

/-- The index `i` into `INIT_TABLE` of a running `init()`: the entries sent completely (R36). -/
def Running.tableIndex (r : Running) : Nat := r.done.count .nextEntry

/-- The byte offset `off` of a running pixel stream: the bytes written since it started (R36, R199). -/
def Running.byteOffset (r : Running) : Nat :=
  ((r.done.dropWhile fun a => a != .startStream).map Action.busBytes).sum

end Sys2Proof.Machine
end

