-- ==== Sys2Proof/Machine/Step.lean ====
section
/-! DEFINITION. One step of the machine. The block has no program counter and fetches nothing (10_state.md rule R36):
the host's operations reach it one at a time, in order (rule R105, 60_exceptions.md rule R258). -/

namespace Sys2Proof.Machine

/-- One step. A running operation advances by one action; otherwise the next request is taken, decoded and executed as
one big step; with no request the block waits (R260, R272). -/
def step (s : State) : Host.Outcome State Fault Refusal :=
  match s.seq with
  | some r => advance r s
  | none =>
    match s.requests with
    | [] => .next s
    | q :: rest =>
      match decode s.cfg q with
      | some i => exec i { s with requests := rest }
      | none => .refused .notAnOperation

/-- The host withdraws the request at the head of its program, as it does after a refusal (95_test_vectors.md P4, P5). -/
def State.dropRequest (s : State) : State := { s with requests := s.requests.tail }

/-- `s` with the instruction of a bare table word presented as the next request, and no operation running, so that the
next step runs exactly it. A word that stands for no request becomes an empty one, which `step` refuses. -/
def State.withFetchWord (s : State) (nbits w : Nat) : State :=
  { s with seq := none, requests := (tableRequest nbits w).getD (.micro []) :: s.requests }

end Sys2Proof.Machine
end

