-- ==== Sys2Proof/Machine/Wire.lean ====
section
/-! DEFINITION. The wire view of a trace (00_scope.md rule R300): what the display controller sees. It adds no behaviour
to the block and no rule of the block reads it. -/

namespace Sys2Proof.Machine

/-- One item of the wire view (R300). -/
inductive WireItem where
  | wByte (dc : Level) (b : Byte)
  | wRst (l : Level)
  | wBl (l : Level)
  | wWait (ms : Nat)
  | wUnknown
  deriving DecidableEq, Repr

/-- What one event shows on the wire (R300). -/
def wireOf : Event → List WireItem
  | .evSpi dc bytes => bytes.map (.wByte dc)
  | .evWrite .rst l => [.wRst l]
  | .evWrite .bl l => [.wBl l]
  | .evWrite .dc _ => []
  | .evSleep ms => [.wWait ms]
  | .evFail _ => [.wUnknown]
  | .evOpen _ => []
  | .evClose _ => []
  | .evSpiClose => []

/-- `wire(trace)` (R300). -/
def wire (trace : List Event) : List WireItem := trace.flatMap wireOf

end Sys2Proof.Machine
end

