-- ==== Sys2Proof/Safety.lean ====
section
/-! DEFINITION. The terms in which claims are made: the premises about the environment (00_scope.md rule R19,
10_state.md rule R39), the event lists the rules give, what a trace says of the pins and handles, and the invariants of a
session (10_state.md rule R43). Nothing here is used by the machine. -/

namespace Sys2Proof.Machine

/-! ## Premises on a state -/

/-- `TRANSPORT_LIVE` (R6, R19, D23): every coming transport call returns. -/
abbrev State.TransportLive (s : State) : Prop := Answer.noReturn ∉ s.answers

/-- Every coming transport call answers `ok`. -/
abbrev State.TransportOk (s : State) : Prop := ∀ a ∈ s.answers, a = Answer.ok

/-- A live session with no operation running: the state in which every host operation is defined (R28, R258). -/
abbrev State.Idle (s : State) : Prop := s.seq = none ∧ s.live = true

/-! ## Event lists -/

/-- The events of a completed `sendCommand` (R121). -/
def commandEvents (opcode : Byte) : List Event := [.evWrite .dc .low, .evSpi .low [opcode]]

/-- The events of a completed `sendData` (R123). -/
def dataEvents (bytes : List Byte) : List Event := [.evWrite .dc .high, .evSpi .high bytes]

/-- The events of a completed reset pulse (R141, R142). -/
def pulseEvents (c : Config) : List Event :=
  [.evWrite .rst .high, .evSleep c.tRst, .evWrite .rst .low, .evSleep c.tRst, .evWrite .rst .high] ++
  if c.tRstPost = 0 then [] else [.evSleep c.tRstPost]

/-- The events of one table entry: the Command, and one Data Frame unless the payload is empty (R146). -/
def entryEvents (e : Byte × List Byte) : List Event :=
  commandEvents e.1 ++ if e.2 = [] then [] else dataEvents e.2

/-- The events of a completed `init()` (R143). -/
def initEvents (c : Config) : List Event :=
  pulseEvents c ++ c.initTable.flatMap entryEvents ++ commandEvents c.opTeon ++ commandEvents c.opInvoff ++
  commandEvents c.opSlpout ++ [.evSleep c.tSlpout] ++ commandEvents c.opDispon ++ [.evSleep c.tDispon]

/-- The ten events of a completed `setWindow` for an inclusive window (R170). -/
def windowEvents (c : Config) (w : Window) : List Event :=
  [.evWrite .dc .low, .evSpi .low [c.opCaset],
   .evWrite .dc .high, .evSpi .high [hi8 w.x0, lo8 w.x0, hi8 w.x1, lo8 w.x1],
   .evWrite .dc .low, .evSpi .low [c.opRaset],
   .evWrite .dc .high, .evSpi .high [hi8 w.y0, lo8 w.y0, hi8 w.y1, lo8 w.y1],
   .evWrite .dc .low, .evSpi .low [c.opRamwr]]

/-- The events of a completed `stream(buf)`: one pair per chunk (R199). -/
def streamEvents (c : Config) (buf : List Byte) : List Event :=
  (chunks c.chunkMax buf.length buf).flatMap dataEvents

/-- The events of a full frame: the window of the whole display, then the stream (R203, R207). -/
def frameEvents (c : Config) (w : Window) (buf : List Byte) : List Event := windowEvents c w ++ streamEvents c buf

/-- The state a completed `fill`, `clear` or `show` leaves, for the window `w` and the frame `buf` (R199, R200, R203):
the frame's events, `DC` high, the window programmed, its arming used up, the calls' answers taken, the result `Ok`. -/
def afterFrame (w : Window) (buf : List Byte) (s : State) : State :=
  { s with
    trace := s.trace ++ frameEvents s.cfg w buf
    lat := { s.lat with dc := .known .high }
    lastCmd := some s.cfg.opRamwr
    win := some w
    armed := false
    answers := s.answers.drop (frameEvents s.cfg w buf).length
    result := some .ok }

/-- The data bytes a list of events put on the bus, in order. -/
def dataBytesOf (events : List Event) : List Byte :=
  events.flatMap fun e => match e with | .evSpi .high bytes => bytes | _ => []

/-- The delays of a list of events, summed (R295). -/
def totalSleep (events : List Event) : Nat :=
  (events.map fun e => match e with | .evSleep ms => ms | _ => 0).sum

/-- Whether an event is on pin `p`: a write, an opening or a closing of it, completed or failed. -/
def Event.onPin (p : Pin) : Event → Bool
  | .evOpen q => q == p
  | .evWrite q _ => q == p
  | .evClose q => q == p
  | .evFail (.gpioOpen q) => q == p
  | .evFail (.gpioWrite q _) => q == p
  | .evFail (.gpioClose q) => q == p
  | _ => false

/-- Whether an event records a failed call. -/
def Event.isFail : Event → Bool
  | .evFail _ => true
  | _ => false

/-! ## Calls and answers -/

/-- The event that a transport call records when it completes (R12, R13, R15 to R17). -/
def Call.completed : Call → Event
  | .gpioOpen p => .evOpen p
  | .gpioWrite p l => .evWrite p l
  | .spiWrite dc bytes => .evSpi dc bytes
  | .gpioClose p => .evClose p
  | .spiClose => .evSpiClose

/-- The coming calls that record `events`, one answer for each, all complete: each is answered `ok`, or is a delay, which
has no error answer (R14, D23; log entry 11). -/
def CallsComplete (answers : List Answer) (events : List Event) : Prop :=
  ∀ (k : Nat) (e : Event), events[k]? = some e →
    answers[k]? = some .ok ∨ answers[k]? = some .error ∧ ∃ ms, e = .evSleep ms

/-! ## What a trace says -/

/-- The latch value a trace leaves pin `p` with (R12, R15, R29). -/
def latchOf (p : Pin) (t : List Event) : LatchVal :=
  t.foldl (fun v e =>
    match e with
    | .evOpen q => if q = p then .unknown else v
    | .evWrite q l => if q = p then .known l else v
    | .evFail (.gpioWrite q _) => if q = p then .unknown else v
    | _ => v) .unknown

/-- Whether a trace leaves pin `p` open (R15, R16). -/
def openOf (p : Pin) (t : List Event) : Bool :=
  t.foldl (fun v e =>
    match e with
    | .evOpen q => if q = p then true else v
    | .evClose q => if q = p then false else v
    | .evFail (.gpioClose q) => if q = p then false else v
    | _ => v) false

/-- Whether a trace leaves the SPI handle open; it is given open at construction (R17, R224). -/
def spiOpenOf (t : List Event) : Bool :=
  t.foldl (fun v e =>
    match e with
    | .evSpiClose => false
    | .evFail .spiClose => false
    | _ => v) true

/-- The Command a trace leaves as the last one the controller was told (R33): a completed Command sets it, the reset
pulse clears it, and so does a failed call on the bus, the control line or the reset line (R246 (a)). -/
def lastCmdOf (t : List Event) : Option Byte :=
  t.foldl (fun v e =>
    match e with
    | .evSpi .low [opcode] => some opcode
    | .evWrite .rst _ => none
    | .evFail (.spiWrite _ _) => none
    | .evFail (.gpioWrite .dc _) => none
    | .evFail (.gpioWrite .rst _) => none
    | _ => v) none

/-- How many close calls a trace records on pin `p`, completed or failed (R229). -/
def closeCalls (p : Pin) (t : List Event) : Nat :=
  t.countP fun e => e == .evClose p || e == .evFail (.gpioClose p)

/-- How many close calls a trace records on the SPI handle (R229). -/
def spiCloseCalls (t : List Event) : Nat :=
  t.countP fun e => e == .evSpiClose || e == .evFail .spiClose

/-! ## Invariants -/

/-- The data write that comes next in a trace is a window payload: the Command just sent is column-address-set or
row-address-set, and only the control-line write has come since (R171, R172). -/
def AtWindowPayload (c : Config) (before : List Event) : Prop :=
  ∃ front opcode, (opcode = c.opCaset ∨ opcode = c.opRaset) ∧
    before = front ++ [.evWrite .dc .low, .evSpi .low [opcode], .evWrite .dc .high]

/-- Rule R43 (a), (b), (c): every bus write is immediately preceded by the control-line write of its own level; a
Command is one byte; a data write is at least one byte and at most `CHUNK_MAX`. The one exception to the last bound is a
window payload, whose four bytes go in one write whatever `CHUNK_MAX` is (R66, R171, R172, 90_conflicts.md C7); it
matters only for an instance with `CHUNK_MAX` below 4 (log entry 9). -/
def Framed (c : Config) (t : List Event) : Prop :=
  ∀ (before after : List Event) (dc : Level) (bytes : List Byte), t = before ++ .evSpi dc bytes :: after →
    (∃ front, before = front ++ [.evWrite .dc dc]) ∧ 1 ≤ bytes.length ∧
    (dc = .low → bytes.length = 1) ∧
    (dc = .high → bytes.length ≤ c.chunkMax ∨ bytes.length = 4 ∧ AtWindowPayload c before)

/-- The invariant of a session whose host uses the public surface only (R43, R107): the session is between operations,
`phase` is one of the two values seen there (R152), the trace is framed, and an armed controller was last told
memory-write for a programmed window. -/
structure SessionInv (s : State) : Prop where
  between : s.seq = none
  surface : ∀ q ∈ s.requests, q.format = .host
  phase : s.phase = .uninitialized ∨ s.phase = .displayOn
  framed : Framed s.cfg s.trace
  armed : s.armed = true → s.lastCmd = some s.cfg.opRamwr ∧ s.win ≠ none

/-- The pins and handles are what the trace says (R27, R29, R32). -/
structure PinsFollowTrace (s : State) : Prop where
  latch : ∀ p, s.latch p = latchOf p s.trace
  isOpen : ∀ p, s.isOpen p = openOf p s.trace
  spiOpen : s.handles.spi = spiOpenOf s.trace

/-- No handle is closed twice (R229): a handle that is open was never the subject of a close call, any other of exactly
one. -/
structure ClosedOnce (s : State) : Prop where
  between : s.seq = none
  pins : ∀ p, closeCalls p s.trace = if s.isOpen p then 0 else 1
  spi : spiCloseCalls s.trace = if s.handles.spi then 0 else 1

/-- The transitions of `phase` inside one operation that succeeds or fails (R152, the pairs of the complete table). -/
def PhaseMove : Phase → Phase → Prop
  | _, .resetting => True
  | .resetting, .uninitialized => True
  | .resetting, .configuring => True
  | .configuring, .sleepingOut => True
  | .sleepingOut, .displayOn => True
  | .configuring, .uninitialized => True
  | .sleepingOut, .uninitialized => True
  | .displayOn, .uninitialized => True
  | a, b => a = b

/-- When `phase` moves (R152, the third column of the table; points by D19): what must be true where the operation `i`,
started in `s`, takes the small step from `t` to `u` and `phase` changes in it. -/
structure PhaseMoveWhen (i : Instr) (s t u : State) : Prop where
  /-- The first step of `reset()` or `init()` (R141): no call has been made. -/
  resetting : u.phase = .resetting → (i = .reset ∨ i = .init) ∧ u.trace = s.trace
  /-- The reset body inside `init()` has completed (R145). -/
  configuring : u.phase = .configuring → i = .init ∧ u.trace = s.trace ++ pulseEvents s.cfg
  /-- The sleep-out Command inside `init()` has returned, and nothing after it has been called (R149). -/
  sleepingOut : u.phase = .sleepingOut → i = .init ∧
    (∃ front, u.trace = front ++ [.evSpi .low [s.cfg.opSlpout]]) ∧
    u.trace ++ [.evSleep s.cfg.tSlpout] ++ commandEvents s.cfg.opDispon ++ [.evSleep s.cfg.tDispon] =
      s.trace ++ initEvents s.cfg
  /-- The final delay inside `init()` has returned (R151). -/
  displayOn : u.phase = .displayOn → i = .init ∧
    (∃ front, u.trace = front ++ [.evSleep s.cfg.tDispon]) ∧ u.trace = s.trace ++ initEvents s.cfg
  /-- A stand-alone `reset()` completes (R141); or a call failed (R246 (a)): never inside `setBacklight` or `release`, in
  `DisplayOn` never inside `reset` or `init`, and in a phase that the operation has entered only inside those two. -/
  uninitialized : u.phase = .uninitialized →
    (i = .reset ∧ t.phase = .resetting ∧ u.trace = s.trace ++ pulseEvents s.cfg) ∨
    (u.result = some .transportError ∧ (∃ c, u.trace = t.trace ++ [.evFail c]) ∧
      (∀ level, i ≠ .setBacklight level) ∧ i ≠ .release ∧
      (t.phase = .displayOn → i ≠ .reset ∧ i ≠ .init) ∧ (t.phase ≠ s.phase → i = .reset ∨ i = .init))

/-- A fault with the sequencer position of its stuck state set aside: the big step holds none (R36, D27). -/
def Fault.withoutPosition : Fault → Fault
  | .transportNeverReturns a stuck => .transportNeverReturns a { stuck with seq := none }
  | .controlLineUnknown stuck => .controlLineUnknown { stuck with seq := none }

/-- The operations that need `DisplayOn` (R280, D20). That no row outside the host surface is among them is log
entry 31. -/
def NeedsDisplayOn (i : Instr) : Prop :=
  i = .clear ∨ (∃ color, i = .fill color) ∨ (∃ image, i = .showImage image) ∨ ∃ x y w h, i = .setWindow x y w h

/-- `n` small steps, stopping at the first that gives no next state. -/
def ticks : Nat → State → Host.Outcome State Fault Refusal
  | 0, s => .next s
  | n + 1, s =>
    match step s with
    | .next t => ticks n t
    | other => other

end Sys2Proof.Machine
end

