-- ==== Sys2Proof/Certificates/Slice0/Obligations.lean ====
section
/-! DEFINITION. The statements about the model. Each docstring names the rules of spec/ it formalises; where a clause
rests on a decision of the spec's writer or of this model, it says so. -/

open Sys2Proof Sys2Proof.Machine

/-! ## Encodings -/

/-- R92 (the codes are the spec's decision D12): each of the eight `op` codes, with the operands of its operation,
selects that operation. -/
def Obligations.HostCodesSelectOperations : Prop :=
  ∀ (c : Config) (color x y w h : U16) (level : I32) (image : Image),
    decode c (.host 0b000#3 .none) = some .reset ∧
    decode c (.host 0b001#3 .none) = some .init ∧
    decode c (.host 0b010#3 .none) = some .clear ∧
    decode c (.host 0b011#3 (.color color)) = some (.fill color) ∧
    decode c (.host 0b100#3 (.window x y w h)) = some (.setWindow x y w h) ∧
    decode c (.host 0b101#3 (.level level)) = some (.setBacklight level) ∧
    decode c (.host 0b110#3 (.image image)) = some (.showImage image) ∧
    decode c (.host 0b111#3 .none) = some .release

/-- Words of the opcode table, written out from its patterns, decode to their rows' instructions (R92, R94, R96; the
numbers of the named Commands are parameter defaults, D4). -/
def Obligations.TableWordsDecode : Prop :=
  decodeTableWord 8 0b000 = some .reset ∧
  decodeTableWord 8 0b101 = some (.setBacklight 0) ∧
  decodeTableWord 16 0b0_1111_1111 = some (.sendCommand 0xFF) ∧
  decodeTableWord 16 0b1_1110_1111 = some (.dataByte 0xEF) ∧
  decodeTableWord 16 0b0_0010_1010 = some (.caset 0 0) ∧
  decodeTableWord 16 0b0_0010_1100 = some .ramwr ∧
  decodeTableWord 16 0b0_0001_0001 = some .slpout ∧
  decodeTableWord 8 0b1000 = none

/-- Decoding what the encoder writes for a well-formed instruction gives that instruction, every operand included, for
every accepted instance, whose seven opcodes are distinct (R90 to R100, R96). -/
def Obligations.DecodeOfEncode : Prop :=
  ∀ (c : Config) (i : Instr), wellFormed c i = true → decode c (encode c i) = some i

/-- A request that decodes is the encoding of what it decodes to: no two requests decode to one instruction, and no bit
of a request is dropped (R90 to R100). -/
def Obligations.EncodeOfDecode : Prop :=
  ∀ (c : Config) (q : Request) (i : Instr), decode c q = some i → encode c i = q

/-! ## Construction and reset -/

/-- R40 (phase by D19, latches by D15): the state after a successful construction. -/
def Obligations.ResetValues : Prop :=
  State.reset.phase = .uninitialized ∧
  State.reset.handles = ⟨true, true, true, true⟩ ∧
  State.reset.lat = ⟨.unknown, .unknown, .unknown⟩ ∧
  State.reset.lastCmd = none ∧ State.reset.win = none ∧ State.reset.armed = false ∧
  State.reset.trace = [.evOpen .rst, .evOpen .dc, .evOpen .bl]

/-- R224: with both transport handles present and every call answered `ok`, construction gives the state of R40 with
result `Ok`, for every parameter set that R7 admits. -/
def Obligations.ConstructSucceeds : Prop :=
  ∀ (c : Config) (requests : List Request) (answers : List Answer), (∀ a ∈ answers, a = Answer.ok) →
    construct c.toParameters true true requests answers =
      .live { State.reset with cfg := c, requests := requests, answers := answers.drop 3 }

/-- R225: construction raises `ConfigurationError` exactly when a transport handle is missing; it then makes no transport
call and leaves no session; and no operation raises it. The parameters are any that R7 admits. -/
def Obligations.ConfigurationErrorOfConstruction : Prop :=
  (∀ (c : Config) (spi gpio : Bool) (requests : List Request) (answers : List Answer),
    ((spi = false ∨ gpio = false) ↔
      ∃ trace, construct c.toParameters spi gpio requests answers = .failed .configurationError trace) ∧
    (spi = false ∨ gpio = false →
      construct c.toParameters spi gpio requests answers = .failed .configurationError [])) ∧
  (∀ (s t : State) (i : Instr), exec i s = .next t → t.result ≠ some .configurationError)

/-- R226 (order by D16): when opening a pin fails, the pins already open are closed in reverse order, whatever those
closes answer short of never returning, and the result is `TransportError`. -/
def Obligations.ConstructUnwinds : Prop :=
  ∀ (c : Config) (requests : List Request) (rest : List Answer), Answer.noReturn ∉ rest →
    construct c.toParameters true true requests (.error :: rest) = .failed .transportError [.evFail (.gpioOpen .rst)] ∧
    (∃ e, construct c.toParameters true true requests (.ok :: .error :: rest) =
        .failed .transportError [.evOpen .rst, .evFail (.gpioOpen .dc), e] ∧
      (e = .evClose .rst ∨ e = .evFail (.gpioClose .rst))) ∧
    (∃ e₁ e₂, construct c.toParameters true true requests (.ok :: .ok :: .error :: rest) =
        .failed .transportError [.evOpen .rst, .evOpen .dc, .evFail (.gpioOpen .bl), e₁, e₂] ∧
      (e₁ = .evClose .dc ∨ e₁ = .evFail (.gpioClose .dc)) ∧
      (e₂ = .evClose .rst ∨ e₂ = .evFail (.gpioClose .rst)))

/-- The reset state meets the three invariants below (R43, R27, R29, R229). -/
def Obligations.ResetMeetsInvariants : Prop :=
  SessionInv State.reset ∧ PinsFollowTrace State.reset ∧ ClosedOnce State.reset

/-! ## What each operation does when every call answers `ok` -/

/-- R121: `sendCommand(opcode)` from any idle live session. "Status written: none". Everything not written here is
unchanged. The control-line write on every call is D8 (log entry 19); that the status before is cleared is log entry 29;
that the row runs in every phase is log entry 31. -/
def Obligations.SendCommandCompletes : Prop :=
  ∀ (s : State) (opcode : Byte), s.Idle → s.TransportOk →
    exec (.sendCommand opcode) s = .next { s with
      trace := s.trace ++ [.evWrite .dc .low, .evSpi .low [opcode]]
      lat := { s.lat with dc := .known .low }
      lastCmd := some opcode
      armed := false
      answers := s.answers.drop 2
      result := none }

/-- R123: `sendData(bytes)` of at least one byte, and the one-byte frame of a DATA_BYTE row: one bus write with the
control line high, `last_cmd` unchanged. "Status written: none". That a row runs by itself with no Command before it,
`last_cmd` none included, is log entry 32, and in every phase log entry 31; that the status before is
cleared is log entry 29. -/
def Obligations.SendDataCompletes : Prop :=
  ∀ (s : State) (bytes : List Byte) (d : Byte), s.Idle → s.TransportOk → 1 ≤ bytes.length →
    exec (.sendData bytes) s = .next { s with
      trace := s.trace ++ [.evWrite .dc .high, .evSpi .high bytes]
      lat := { s.lat with dc := .known .high }
      answers := s.answers.drop 2
      result := none } ∧
    exec (.dataByte d) s = .next { s with
      trace := s.trace ++ [.evWrite .dc .high, .evSpi .high [d]]
      lat := { s.lat with dc := .known .high }
      answers := s.answers.drop 2
      result := none }

/-- R121, R123 (latch by D22, shadow by D21): where the Framer's control-line write fails the bus write is not made and
the latch is unknown; where the bus write fails the latch keeps what was written and `last_cmd` is not the opcode.
That the phase and the shadow follow clause (a) of R246 for a micro-operation issued by itself is log entry 10; that it
runs in every phase is log entry 31, and `sendData` with no Command before it log entry 32. -/
def Obligations.FramerFailures : Prop :=
  ∀ (s : State) (opcode : Byte) (bytes : List Byte) (rest : List Answer), s.Idle → 1 ≤ bytes.length →
    exec (.sendCommand opcode) { s with answers := .error :: rest } = .next { s with
      trace := s.trace ++ [.evFail (.gpioWrite .dc .low)]
      lat := { s.lat with dc := .unknown }
      phase := .uninitialized, lastCmd := none, win := none, armed := false
      answers := rest, result := some .transportError } ∧
    exec (.sendCommand opcode) { s with answers := .ok :: .error :: rest } = .next { s with
      trace := s.trace ++ [.evWrite .dc .low, .evFail (.spiWrite .low [opcode])]
      lat := { s.lat with dc := .known .low }
      phase := .uninitialized, lastCmd := none, win := none, armed := false
      answers := rest, result := some .transportError } ∧
    exec (.sendData bytes) { s with answers := .error :: rest } = .next { s with
      trace := s.trace ++ [.evFail (.gpioWrite .dc .high)]
      lat := { s.lat with dc := .unknown }
      phase := .uninitialized, lastCmd := none, win := none, armed := false
      answers := rest, result := some .transportError } ∧
    exec (.sendData bytes) { s with answers := .ok :: .error :: rest } = .next { s with
      trace := s.trace ++ [.evWrite .dc .high, .evFail (.spiWrite .high bytes)]
      lat := { s.lat with dc := .known .high }
      phase := .uninitialized, lastCmd := none, win := none, armed := false
      answers := rest, result := some .transportError }

/-- R141, R142: `reset()` in every phase of a live session: High, Low, High on `RST` with `T_RST` after each of the
first two, a third delay only when `T_RST_POST` is positive; the session ends in `Uninitialized` (D19) with the shadow
cleared (D30). -/
def Obligations.ResetCompletes : Prop :=
  ∀ s : State, s.Idle → s.TransportOk →
    exec .reset s = .next { s with
      trace := s.trace ++
        [.evWrite .rst .high, .evSleep s.cfg.tRst, .evWrite .rst .low, .evSleep s.cfg.tRst, .evWrite .rst .high] ++
        (if s.cfg.tRstPost = 0 then [] else [.evSleep s.cfg.tRstPost])
      lat := { s.lat with rst := .known .high }
      phase := .uninitialized, lastCmd := none, win := none, armed := false
      answers := s.answers.drop (if s.cfg.tRstPost = 0 then 5 else 6)
      result := some .ok }

/-- R143 to R151 (phase points by D19, no tail payload by D6): `init()` for every table and every admissible delay. -/
def Obligations.InitCompletes : Prop :=
  ∀ s : State, s.Idle → s.TransportOk →
    exec .init s = .next { s with
      trace := s.trace ++ initEvents s.cfg
      lat := { s.lat with rst := .known .high, dc := .known .low }
      phase := .displayOn
      lastCmd := some s.cfg.opDispon, win := none, armed := false
      answers := s.answers.drop (initEvents s.cfg).length
      result := some .ok }

/-- R147, R148, R149, R150, R173: the five named Commands without a payload, each sent as a Command with no Data Frame
(D6), sleep-out and display-on followed by their delay. That none of them writes `phase`, `win` or sets `armed` by
itself is log entry 7; that `ramwr` runs in every phase is log entry 31. That they write no
status (`result := none`) is log entry 29, from "Status written: none" of R121 and "not kept as state between operations"
of R25. -/
def Obligations.BareCommandsComplete : Prop :=
  ∀ s : State, s.Idle → s.TransportOk →
    (∀ p ∈ [(Instr.ramwr, s.cfg.opRamwr, []), (Instr.teon, s.cfg.opTeon, []), (Instr.invoff, s.cfg.opInvoff, []),
        (Instr.slpout, s.cfg.opSlpout, [Event.evSleep s.cfg.tSlpout]),
        (Instr.dispon, s.cfg.opDispon, [Event.evSleep s.cfg.tDispon])],
      exec p.1 s = .next { s with
        trace := s.trace ++ [.evWrite .dc .low, .evSpi .low [p.2.1]] ++ p.2.2
        lat := { s.lat with dc := .known .low }
        lastCmd := some p.2.1
        armed := false
        answers := s.answers.drop (2 + p.2.2.length)
        result := none })

/-- R171, R172, R97, R62, with the control-line write on every call of D8 (log entry 19): the two range transactions: the
Command, then exactly four data bytes in one bus write, the first and the inclusive last coordinate, each high byte first
(its two bytes are `v / 256` and `v mod 256`). That a row runs in every phase, and with its last coordinate below its
first, are the model's choices (log entries 31, 30); that it writes no status is log entry
29. -/
def Obligations.RangeTransactionsComplete : Prop :=
  ∀ (s : State) (first last : U16) (b₀ b₁ b₂ b₃ : Byte), s.Idle → s.TransportOk →
    first.toNat = b₀.toNat * 256 + b₁.toNat → last.toNat = b₂.toNat * 256 + b₃.toNat →
    ∀ p ∈ [(Instr.caset first last, s.cfg.opCaset), (Instr.raset first last, s.cfg.opRaset)],
      exec p.1 s = .next { s with
        trace := s.trace ++
          [.evWrite .dc .low, .evSpi .low [p.2], .evWrite .dc .high, .evSpi .high [b₀, b₁, b₂, b₃]]
        lat := { s.lat with dc := .known .high }
        lastCmd := some p.2
        armed := false
        answers := s.answers.drop 4
        result := none }

/-- R146, R100 (empty payload by D7): one table entry: its Command, and its whole payload in one Data Frame unless it is
empty. That it writes no status (`result := none`) is log entry 29, from "Status written: none" of R121 and R123 and "not
kept as state between operations" of R25; that it runs in every phase is log entry 31. A payload longer than `CHUNK_MAX`
is refused (IllFormedOperandsAreRefused, log entry 15). -/
def Obligations.InitEntryCompletes : Prop :=
  ∀ (s : State) (opcode : Byte) (payload : List Byte), s.Idle → s.TransportOk → payload.length ≤ s.cfg.chunkMax →
    exec (.initEntry opcode payload) s = .next { s with
      trace := s.trace ++ [.evWrite .dc .low, .evSpi .low [opcode]] ++
        (if payload = [] then [] else [.evWrite .dc .high, .evSpi .high payload])
      lat := { s.lat with dc := .known (if payload = [] then .low else .high) }
      lastCmd := some opcode
      armed := false
      answers := s.answers.drop (if payload = [] then 2 else 4)
      result := none }

/-- R170 to R173: `setWindow(x, y, w, h)` for all operands that meet the hard constraints, on or off the display
(R175), in `DisplayOn` (D20). The control-line write on every call is D8 (log entry 19). -/
def Obligations.SetWindowCompletes : Prop :=
  ∀ (s : State) (x y w h x2 y2 : U16), s.Idle → s.TransportOk → s.phase = .displayOn →
    0 < w.toNat → 0 < h.toNat →
    x2.toNat = x.toNat + w.toNat - 1 → y2.toNat = y.toNat + h.toNat - 1 →
    exec (.setWindow x y w h) s = .next { s with
      trace := s.trace ++
        [.evWrite .dc .low, .evSpi .low [s.cfg.opCaset],
         .evWrite .dc .high, .evSpi .high [hi8 x, lo8 x, hi8 x2, lo8 x2],
         .evWrite .dc .low, .evSpi .low [s.cfg.opRaset],
         .evWrite .dc .high, .evSpi .high [hi8 y, lo8 y, hi8 y2, lo8 y2],
         .evWrite .dc .low, .evSpi .low [s.cfg.opRamwr]]
      lat := { s.lat with dc := .known .low }
      lastCmd := some s.cfg.opRamwr
      win := some ⟨x, x2, y, y2⟩
      armed := true
      answers := s.answers.drop 10
      result := some .ok }

/-- R199, R200 (chunk sizes by D10, one `sendData` per chunk by D9): `stream(buf)` for a buffer of any length. R199 says
"Requires `armed` (it always holds: every caller has just run `setWindow`)"; for the row issued by itself this statement
drops that stated requirement and claims the completion armed or not, which is the model's reading (log entry 8).
That the row runs in every phase is log entry 31, and with no Command before it log entry 32. That it writes no status
(`result := none`) is log entry 29, from "Status written: none" of R123 and "not kept as state between operations" of
R25. -/
def Obligations.StreamCompletes : Prop :=
  ∀ (s : State) (buf : List Byte), s.Idle → s.TransportOk →
    exec (.stream buf) s = .next { s with
      trace := s.trace ++ (chunks s.cfg.chunkMax buf.length buf).flatMap
        (fun chunk => [.evWrite .dc .high, .evSpi .high chunk])
      lat := { s.lat with dc := if buf = [] then s.lat.dc else .known .high }
      armed := false
      answers := s.answers.drop (2 * (chunks s.cfg.chunkMax buf.length buf).length)
      result := none }

/-- R203: `fill(color)` for every colour: the full-display window, then `WIDTH × HEIGHT` copies of the colour's two
bytes, high byte first, in chunks. -/
def Obligations.FillCompletes : Prop :=
  ∀ (s : State) (color x1 y1 : U16), s.Idle → s.TransportOk → s.phase = .displayOn →
    x1.toNat + 1 = s.cfg.width → y1.toNat + 1 = s.cfg.height →
    exec (.fill color) s = .next (afterFrame ⟨0, x1, 0, y1⟩
      (List.replicate (s.cfg.width * s.cfg.height) [hi8 color, lo8 color]).flatten s)

/-- R205 (the reading is D11): `clear()` does exactly what `fill(CLEAR_COLOR)` does, errors and refusals included, and so
completes as that fill, whatever the colour is (it is a free value of the reference instance, log entry 3). -/
def Obligations.ClearCompletes : Prop :=
  ∀ (s : State) (x1 y1 : U16),
    exec .clear s = exec (.fill s.cfg.clearColor) s ∧
    (s.Idle → s.TransportOk → s.phase = .displayOn →
      x1.toNat + 1 = s.cfg.width → y1.toNat + 1 = s.cfg.height →
      exec .clear s = .next (afterFrame ⟨0, x1, 0, y1⟩
        (List.replicate (s.cfg.width * s.cfg.height) [hi8 s.cfg.clearColor, lo8 s.cfg.clearColor]).flatten s))

/-- R207, R196, R69: `show(image)` of an image of the display's size: the frame is any list of `FRAME_BYTES` bytes that
holds the packed pixel `(x, y)`, high byte first, at `2 × (y × WIDTH + x)`. -/
def Obligations.ShowCompletes : Prop :=
  ∀ (s : State) (image : Image) (buf : List Byte) (x1 y1 : U16),
    s.Idle → s.TransportOk → s.phase = .displayOn →
    image.width = s.cfg.width → image.height = s.cfg.height → image.pixels.length = image.width * image.height →
    x1.toNat + 1 = s.cfg.width → y1.toNat + 1 = s.cfg.height →
    buf.length = s.cfg.width * s.cfg.height * 2 →
    (∀ x y p, x < s.cfg.width → y < s.cfg.height → getPixel image x y = some p →
      buf[2 * (y * s.cfg.width + x)]? = some (hi8 (pack565 p.r p.g p.b)) ∧
      buf[2 * (y * s.cfg.width + x) + 1]? = some (lo8 (pack565 p.r p.g p.b))) →
    exec (.showImage image) s = .next (afterFrame ⟨0, x1, 0, y1⟩ buf s)

/-- R220, R103: `setBacklight(level)` in every phase of a live session: one write of `BL`, `High` exactly when the signed
level is positive; where that write fails the latch is unknown and the phase and the shadow are unchanged. The code 101
is D12 (log entry 21); what the failure leaves is D21 and D22 (log entry 25). -/
def Obligations.SetBacklightDrivesBl : Prop :=
  ∀ (s : State) (level : I32) (l : Level) (rest : List Answer), s.Idle → (l = .high ↔ 0 < level.toInt) →
    decode s.cfg (.host 0b101#3 (.level level)) = some (.setBacklight level) ∧
    (s.TransportOk → exec (.setBacklight level) s = .next { s with
      trace := s.trace ++ [.evWrite .bl l]
      lat := { s.lat with bl := .known l }
      answers := s.answers.drop 1
      result := some .ok }) ∧
    (s.answers = .error :: rest → exec (.setBacklight level) s = .next { s with
      trace := s.trace ++ [.evFail (.gpioWrite .bl l)]
      lat := { s.lat with bl := .unknown }
      answers := rest
      result := some .transportError })

/-- R228 (four handles and their order by D17): `release()` closes each handle that is open, live session or not, and
nothing else changes (R230). -/
def Obligations.ReleaseCompletes : Prop :=
  ∀ s : State, s.seq = none → s.TransportOk →
    ∃ closes : List Event,
      closes = (if s.handles.rst then [.evClose .rst] else []) ++ (if s.handles.dc then [.evClose .dc] else []) ++
        (if s.handles.bl then [.evClose .bl] else []) ++ (if s.handles.spi then [.evSpiClose] else []) ∧
      exec .release s = .next { s with
        trace := s.trace ++ closes
        handles := ⟨false, false, false, false⟩
        answers := s.answers.drop closes.length
        result := some .ok }

/-- R228, R246 (c) (D17): where the close number `k` of a live session fails, its handle is marked not open, the later
ones stay open, and a further `release()` closes exactly those. -/
def Obligations.ReleaseFailures : Prop :=
  ∀ (s : State) (rest : List Answer), s.Idle →
    ∀ p ∈ [(0, [Event.evFail (.gpioClose .rst)], (⟨false, true, true, true⟩ : Handles)),
        (1, [.evClose .rst, .evFail (.gpioClose .dc)], ⟨false, false, true, true⟩),
        (2, [.evClose .rst, .evClose .dc, .evFail (.gpioClose .bl)], ⟨false, false, false, true⟩),
        (3, [.evClose .rst, .evClose .dc, .evClose .bl, .evFail .spiClose], ⟨false, false, false, false⟩)],
      exec .release { s with answers := List.replicate p.1 .ok ++ .error :: rest } = .next { s with
        trace := s.trace ++ p.2.1
        handles := p.2.2
        answers := rest
        result := some .transportError }

/-- R229: after a `release()` that succeeded, a second one makes no transport call, changes no field and returns `Ok`,
whatever the environment would answer. -/
def Obligations.ReleaseIsIdempotent : Prop :=
  ∀ (s t : State) (answers : List Answer), exec .release s = .next t → t.result = some .ok →
    exec .release { t with answers := answers } = .next { t with answers := answers }

/-! ## Refusals and the size check -/

/-- R258, U5; R28, R291 (D18): no operation can be issued while another runs; and between operations every operation but
`release()` is refused on a session that is not live, before any other check (R249 (1)). -/
def Obligations.OutOfTurnIsRefused : Prop :=
  ∀ (s : State) (i : Instr),
    (s.seq ≠ none → exec i s = .refused .operationRunning) ∧
    (s.seq = none → s.live = false → i ≠ .release → exec i s = .refused .sessionNotLive)

/-- R174 (D24): a window that breaks a hard constraint is refused, in every phase: no wrap, no clamp, no error. -/
def Obligations.WindowConstraintIsRefused : Prop :=
  ∀ (s : State) (x y w h : U16), s.Idle →
    (w.toNat = 0 ∨ h.toNat = 0 ∨ 65535 < x.toNat + w.toNat - 1 ∨ 65535 < y.toNat + h.toNat - 1) →
    exec (.setWindow x y w h) s = .refused .windowConstraint

/-- R280, U1 (for `setWindow`, D20): a pixel operation that gets past the earlier checks of R249 is refused unless the
phase is `DisplayOn`. -/
def Obligations.PixelBeforeDisplayOnIsRefused : Prop :=
  ∀ (s : State) (color x y w h : U16) (image : Image), s.Idle → s.phase ≠ .displayOn →
    image.width = s.cfg.width → image.height = s.cfg.height →
    0 < w.toNat → 0 < h.toNat → x.toNat + w.toNat - 1 ≤ 65535 → y.toNat + h.toNat - 1 ≤ 65535 →
    ∀ i ∈ [Instr.fill color, .clear, .showImage image, .setWindow x y w h],
      exec i s = .refused .pixelBeforeDisplayOn

/-- R208, R247: `show` of an image of another size returns `DimensionMismatchError` in every phase of a live session and
changes no field of the state, the trace included; no answer of the environment is used up. -/
def Obligations.ShowSizeMismatch : Prop :=
  ∀ (s : State) (image : Image), s.Idle → (image.width ≠ s.cfg.width ∨ image.height ≠ s.cfg.height) →
    exec (.showImage image) s = .next { s with result := some .dimensionMismatchError }

/-- U9, R7 (D7), U12 (D25): the operands the spec gives no meaning are refused by name. -/
def Obligations.IllFormedOperandsAreRefused : Prop :=
  ∀ (s : State) (opcode : Byte) (payload : List Byte) (image : Image), s.Idle →
    exec (.sendData []) s = .refused .emptyData ∧
    (s.cfg.chunkMax < payload.length → exec (.initEntry opcode payload) s = .refused .tableEntryTooLong) ∧
    (image.width = s.cfg.width → image.height = s.cfg.height → s.phase = .displayOn →
      image.pixels.length ≠ image.width * image.height → exec (.showImage image) s = .refused .imageNotTotal)

/-! ## The colour converter and the frame -/

/-- R187: the field identities of the packer, for all 2^24 colours; and its three terms may as well be added, which the
spec derives from R185. -/
def Obligations.PackFields : Prop :=
  ∀ r g b : Byte,
    (pack565 r g b).extractLsb' 11 5 = r.extractLsb' 3 5 ∧
    (pack565 r g b).extractLsb' 5 6 = g.extractLsb' 2 6 ∧
    (pack565 r g b).extractLsb' 0 5 = b.extractLsb' 3 5 ∧
    pack565 r g b =
      ((r.setWidth 16 &&& 0xF8#16) <<< 8) + ((g.setWidth 16 &&& 0xFC#16) <<< 3) + (b.setWidth 16 >>> 3)

/-- R188: the lossy round trip. -/
def Obligations.UnpackOfPack : Prop :=
  ∀ r g b : Byte, unpack565 (pack565 r g b) = (r &&& 0xF8#8, g &&& 0xFC#8, b &&& 0xF8#8)

/-- R190: the two bytes of a packed pixel, in channel terms. -/
def Obligations.PixelByteSplit : Prop :=
  ∀ r g b : Byte,
    hi8 (pack565 r g b) = (r &&& 0xF8#8) ||| (g >>> 5) ∧
    lo8 (pack565 r g b) = ((g <<< 3) &&& 0xE0#8) ||| (b >>> 3)

/-- R189: the packer truncates, is monotone in each channel, and reaches every 16-bit value (the last from
95_test_vectors.md section 2.4). -/
def Obligations.PackTruncates : Prop :=
  (∀ r g b : Byte, pack565 r g b = pack565 (r &&& 0xF8#8) (g &&& 0xFC#8) (b &&& 0xF8#8)) ∧
  (∀ r r' g g' b b' : Byte, r ≤ r' → g ≤ g' → b ≤ b' → pack565 r g b ≤ pack565 r' g' b') ∧
  (∀ p : U16, ∃ r g b : Byte, pack565 r g b = p)

/-- R199, R191 (D10): the chunks of a buffer concatenate to it; there are `ceil(N / CHUNK_MAX)` of them; none is empty;
all but the last have exactly `CHUNK_MAX` bytes. -/
def Obligations.ChunksPartitionTheBuffer : Prop :=
  ∀ (c : Nat) (buf : List Byte), 1 ≤ c →
    (chunks c buf.length buf).flatten = buf ∧
    (chunks c buf.length buf).length = (buf.length + c - 1) / c ∧
    (∀ chunk ∈ chunks c buf.length buf, 1 ≤ chunk.length ∧ chunk.length ≤ c) ∧
    (∀ chunk ∈ (chunks c buf.length buf).dropLast, chunk.length = c)

/-- R69, R196, R197: a converted image and a solid frame have exactly `FRAME_BYTES` bytes, and the pixel at `(x, y)` lies
at `2 × (y × WIDTH + x)`, high byte first. -/
def Obligations.FrameLayout : Prop :=
  ∀ (c : Config) (image : Image) (color : U16), image.width = c.width → image.height = c.height →
    image.pixels.length = image.width * image.height →
    (convert c image).length = c.frameBytes ∧ (solid c color).length = c.frameBytes ∧
    ∀ x y, x < c.width → y < c.height →
      (∃ p, getPixel image x y = some p ∧
        (convert c image)[2 * (y * c.width + x)]? = some (hi8 (pack565 p.r p.g p.b)) ∧
        (convert c image)[2 * (y * c.width + x) + 1]? = some (lo8 (pack565 p.r p.g p.b))) ∧
      (solid c color)[2 * (y * c.width + x)]? = some (hi8 color) ∧
      (solid c color)[2 * (y * c.width + x) + 1]? = some (lo8 color)

/-- R207 (corner case): `show` of an image whose every pixel is `(R, G, B)` does what `fill(pack565(R, G, B))` does, in
every state and whatever the environment answers. -/
def Obligations.ShowOfUniformImageIsFill : Prop :=
  ∀ (s : State) (image : Image) (r g b : Byte),
    image.width = s.cfg.width → image.height = s.cfg.height →
    image.pixels = List.replicate (image.width * image.height) ⟨r, g, b⟩ →
    exec (.showImage image) s = exec (.fill (pack565 r g b)) s

/-- R201, R210: a `fill`, `clear` or `show` that returns `Ok` appends `10 + 2 × ceil(FRAME_BYTES / CHUNK_MAX)` events;
its data writes after the memory-write Command total exactly `FRAME_BYTES` bytes, none longer than `CHUNK_MAX`. -/
def Obligations.FrameByteTotals : Prop :=
  ∀ (s t : State) (color : U16) (image : Image),
    ∀ i ∈ [Instr.fill color, .clear, .showImage image], exec i s = .next t → t.result = some .ok →
      ∃ window stream : List Event, t.trace = s.trace ++ window ++ stream ∧
        window.length = 10 ∧ window.getLast? = some (.evSpi .low [s.cfg.opRamwr]) ∧
        stream.length = 2 * ((s.cfg.frameBytes + s.cfg.chunkMax - 1) / s.cfg.chunkMax) ∧
        (dataBytesOf stream).length = s.cfg.width * s.cfg.height * 2 ∧
        ∀ e ∈ stream, e = .evWrite .dc .high ∨ ∃ bytes, e = .evSpi .high bytes ∧ bytes.length ≤ s.cfg.chunkMax

/-- R204, R99, R126: on the wire a `fill` is the eleven bytes of the full-display window and then `WIDTH × HEIGHT` copies
of the colour's two bytes with the control line high, however they were cut into bus writes. -/
def Obligations.WireViewOfFill : Prop :=
  ∀ (s t : State) (color x1 y1 : U16), x1.toNat + 1 = s.cfg.width → y1.toNat + 1 = s.cfg.height →
    exec (.fill color) s = .next t → t.result = some .ok →
    wire t.trace = wire s.trace ++
      [.wByte .low s.cfg.opCaset, .wByte .high 0, .wByte .high 0, .wByte .high (hi8 x1), .wByte .high (lo8 x1),
       .wByte .low s.cfg.opRaset, .wByte .high 0, .wByte .high 0, .wByte .high (hi8 y1), .wByte .high (lo8 y1),
       .wByte .low s.cfg.opRamwr] ++
      (List.replicate (s.cfg.width * s.cfg.height) [WireItem.wByte .high (hi8 color), .wByte .high (lo8 color)]).flatten

/-- R154, R295, R254: a completed `init()` appends the number of events of R154, for every table, and sleeps
`2 × T_RST + T_RST_POST + T_SLPOUT + T_DISPON` milliseconds in all. -/
def Obligations.InitCounts : Prop :=
  ∀ s t : State, exec .init s = .next t → t.result = some .ok →
    t.trace.length = s.trace.length + 5 + (if 0 < s.cfg.tRstPost then 1 else 0) +
      (s.cfg.initTable.map fun e => 2 + 2 * (if e.2 = [] then 0 else 1)).sum + 10 ∧
    totalSleep t.trace = totalSleep s.trace + (2 * s.cfg.tRst + s.cfg.tRstPost + s.cfg.tSlpout + s.cfg.tDispon)

/-! ## Errors -/

/-- R246 (D21), R247: what an operation that returned `TransportError` leaves, by its clause: a controller-facing one is
back in `Uninitialized` with the shadow cleared; `setBacklight` and `release` keep the phase and the shadow. For
the rows outside the host surface this is log entry 10. -/
def Obligations.TransportErrorState : Prop :=
  ∀ (s t : State) (i : Instr), exec i s = .next t → t.result = some .transportError →
    ((∀ level, i ≠ .setBacklight level) → i ≠ .release →
      t.phase = .uninitialized ∧ t.lastCmd = none ∧ t.win = none ∧ t.armed = false) ∧
    ((∃ level, i = .setBacklight level) ∨ i = .release →
      t.phase = s.phase ∧ t.lastCmd = s.lastCmd ∧ t.win = s.win ∧ t.armed = s.armed)

/-- R243, R244, R245, R249 (R12, R13, R16, R17): an `error` answer ends the operation, and nothing else makes it return
`TransportError`. Errors are precise and at most one is raised: the trace is what it was, the events of the calls that
completed, and the failed call, in the place of that call's own event in the error-free run of the same operation. And
whichever call of that run is answered `error`, after calls that all complete, the operation ends there in
`TransportError`. That a row outside the host surface completes with no status is log entry 29; that a delay completes on
`error` too is D23, log entry 11. -/
def Obligations.ErrorsArePrecise : Prop :=
  ∀ (s : State) (i : Instr),
    (∀ t, exec i s = .next t → t.result = some .transportError →
      ∃ (completed : List Event) (c : Call) (missing : List Event) (u : State),
        t.trace = s.trace ++ completed ++ [.evFail c] ∧ (∀ e ∈ completed, e.isFail = false) ∧
        CallsComplete s.answers completed ∧ s.answers[completed.length]? = some .error ∧
        exec i { s with answers := [] } = .next u ∧ (u.result = some .ok ∨ u.result = none) ∧
        u.trace = s.trace ++ completed ++ c.completed :: missing) ∧
    (∀ (completed : List Event) (c : Call) (missing : List Event) (u : State),
      exec i { s with answers := [] } = .next u → u.trace = s.trace ++ completed ++ c.completed :: missing →
      CallsComplete s.answers completed → s.answers[completed.length]? = some .error →
      ∃ t, exec i s = .next t ∧ t.result = some .transportError ∧
        t.trace = s.trace ++ completed ++ [.evFail c] ∧ t.answers = s.answers.drop (completed.length + 1))

/-- R240 to R242, R25, R121, R123: of the three errors, no operation raises `ConfigurationError`, and
`DimensionMismatchError` is raised exactly by a `show` of the wrong size; every host operation writes a status at its
end, and a row outside the host surface writes none unless it raises `TransportError`; the status of the operation before
is not kept and changes nothing.
The statuses of the rows outside the host surface, and that the one before is not kept, are log entry 29. -/
def Obligations.ResultsByOperation : Prop :=
  ∀ (s : State) (i : Instr),
    (∀ t, exec i s = .next t →
      t.result ≠ some .configurationError ∧
      (t.result = some .dimensionMismatchError ↔
        ∃ image, i = .showImage image ∧ (image.width ≠ s.cfg.width ∨ image.height ≠ s.cfg.height)) ∧
      ((encode s.cfg i).format = .host → t.result ≠ none) ∧
      ((encode s.cfg i).format ≠ .host → t.result = none ∨ t.result = some .transportError)) ∧
    ∀ r, exec i { s with result := r } = exec i s

/-- R19, R13: the only fault an operation meets is a call that never returns. The trace of the stuck block is the trace the
operation started from and one event for each call that returned before, none of them a failure, and no event for the
blocked call: the events are the first ones of the same operation's error-free run, as many as there are answers before
the first `noReturn`, and the blocked call is the one whose event `e` comes next in that run. In particular no bus write
is ever made with an unknown control line. And whichever call of the error-free run never returns, after calls that all
complete, the block is stuck there. The fault form is log entry 12; that a delay completes on `error` too is D23, log
entry 11. -/
def Obligations.OnlyHangsStop : Prop :=
  ∀ (s : State) (i : Instr),
    (∀ f, exec i s = .fault f →
      Answer.noReturn ∈ s.answers ∧
      ∃ (a : Action) (stuck : State) (completed : List Event) (e : Event) (missing : List Event) (u v : State),
        f = .transportNeverReturns a stuck ∧ a.isCall = true ∧
        stuck.trace = s.trace ++ completed ∧ (∀ e ∈ completed, e.isFail = false) ∧
        CallsComplete s.answers completed ∧
        completed.length = (s.answers.takeWhile (fun x => x != .noReturn)).length ∧
        stuck.answers = s.answers.drop completed.length ∧
        exec i { s with answers := [] } = .next u ∧ u.trace = s.trace ++ completed ++ e :: missing ∧
        act a { stuck with answers := [] } = .ok v ∧ v.trace = stuck.trace ++ [e]) ∧
    (∀ (completed : List Event) (e : Event) (missing : List Event) (u : State),
      exec i { s with answers := [] } = .next u → u.trace = s.trace ++ completed ++ e :: missing →
      CallsComplete s.answers completed → s.answers[completed.length]? = some .noReturn →
      ∃ a stuck, exec i s = .fault (.transportNeverReturns a stuck) ∧ a.isCall = true ∧
        stuck.trace = s.trace ++ completed ∧ stuck.answers = s.answers.drop completed.length)

/-- Termination under `TRANSPORT_LIVE` (R19, R295): with every call returning, every well-formed operation ends. Only the
pixel operations and `setWindow` need `DisplayOn` for it (R280), and `release()` alone ends on a session that is not live
too (R228). That the rows outside the host surface need no phase is log entry 31; that `stream` ends
when not armed too is log entry 8 (R199 reads "Requires `armed`"); that `sendData`, DATA_BYTE and `stream` end with no
Command before them is log entry 32 (R104, R123); that CASET and RASET take their ends in any order is log entry 30. -/
def Obligations.LiveTransportCompletes : Prop :=
  ∀ (s : State) (i : Instr), s.seq = none → s.TransportLive → wellFormed s.cfg i = true →
    (s.live = true ∨ i = .release) → (NeedsDisplayOn i → s.phase = .displayOn) → ∃ t, exec i s = .next t

/-! ## Frames -/

/-- R39, R36: no operation writes a parameter, the host's further requests, or leaves a sequencer position behind, and
the answers it leaves are a tail of those it had. -/
def Obligations.FrameOfEveryOperation : Prop :=
  ∀ (s t : State) (i : Instr), exec i s = .next t →
    t.cfg = s.cfg ∧ t.requests = s.requests ∧ t.seq = s.seq ∧ t.answers <:+ s.answers

/-- R42: which operation touches which handle and which latch, errors included: handles only `release`; `RST` only
`reset` and `init`; `BL` only `setBacklight`; `DC` none of `reset`, `setBacklight`, `release`. -/
def Obligations.PinFrames : Prop :=
  ∀ (s t : State) (i : Instr), exec i s = .next t →
    (i ≠ .release → t.handles = s.handles) ∧
    (i ≠ .reset → i ≠ .init → t.lat.rst = s.lat.rst) ∧
    ((∀ level, i ≠ .setBacklight level) → t.lat.bl = s.lat.bl) ∧
    ((i = .reset ∨ i = .release ∨ ∃ level, i = .setBacklight level) → t.lat.dc = s.lat.dc)

/-- R42, R152, R26: an operation that does not return `TransportError` leaves `phase` alone unless it is `reset` or
`init`; the window is written only by `reset`, `init`, `setWindow`, `fill`, `clear` and `show`; `setBacklight` and
`release` write no shadow field. That the rows CASET, RASET, RAMWR, SLPOUT and DISPON issued by themselves write
neither is log entry 7. -/
def Obligations.PhaseAndShadowFrames : Prop :=
  ∀ (s t : State) (i : Instr), exec i s = .next t → t.result ≠ some .transportError →
    (i ≠ .reset → i ≠ .init → t.phase = s.phase) ∧
    (i ∉ [Instr.reset, .init, .clear] → (∀ c, i ≠ .fill c) → (∀ x y w h, i ≠ .setWindow x y w h) →
      (∀ m, i ≠ .showImage m) → t.win = s.win) ∧
    ((i = .release ∨ ∃ level, i = .setBacklight level) → t.lastCmd = s.lastCmd ∧ t.win = s.win ∧ t.armed = s.armed)

/-- Who appends what, read from the operation bodies and the matrix of R42. An event on `BL` only `setBacklight` (R222: "No
other operation writes `BL`") and `release` (R228). An event on `RST` only `reset` and `init`, which run `resetBody` (R141,
R143, R144; the `lat[RST]` column of R42), and `release` (R228); the events of `release` are given by ReleaseCompletes and
ReleaseFailures. `reset`, `setBacklight` and `release` write neither `DC` nor the bus: R141 ("`reset()` does not touch
`DC`, `BL` or the bus"), R222, R230 ("drives no pin and sends nothing", decision D17, log entry 23), and R122, by which
only the Framer does. The rows outside the host surface are made of R121 and R123. -/
def Obligations.PinOwnership : Prop :=
  ∀ (s t : State) (i : Instr), exec i s = .next t → ∃ added, t.trace = s.trace ++ added ∧
    ∀ e ∈ added,
      (e.onPin .bl = true → i = .release ∨ ∃ level, i = .setBacklight level) ∧
      (e.onPin .rst = true → i = .release ∨ i = .reset ∨ i = .init) ∧
      ((i = .reset ∨ i = .release ∨ ∃ level, i = .setBacklight level) →
        (∀ l, e ≠ .evWrite .dc l) ∧ (∀ dc bytes, e ≠ .evSpi dc bytes))

/-! ## The step, and invariants that every step keeps -/

/-- R36, R105: between operations, a step takes the next request and is exactly the execution of the instruction it
decodes to; a request that is no call or transaction is refused (log entry 14); with no request the block waits and
nothing changes (R260, R272). -/
def Obligations.StepRunsTheRequest : Prop :=
  ∀ (s : State) (q : Request) (rest : List Request) (i : Instr), s.seq = none →
    (s.requests = q :: rest → decode s.cfg q = some i → step s = exec i { s with requests := rest }) ∧
    (s.requests = q :: rest → decode s.cfg q = none → step s = .refused .notAnOperation) ∧
    (s.requests = [] → step s = .next s)

/-- R32, R43 (e): the trace only grows, at every step of every state, running operations included. -/
def Obligations.TraceOnlyGrows : Prop := ∀ s t : State, step s = .next t → s.trace <+: t.trace

/-- R43 (a) to (d), R152: every step keeps the session invariant. Its bound on a data write is R43 (b)'s but for a window
payload, which is four bytes whatever `CHUNK_MAX` is (log entry 9). -/
def Obligations.StepKeepsSessionInv : Prop := ∀ s t : State, SessionInv s → step s = .next t → SessionInv t

/-- R12, R15 to R17, R27, R29: every step keeps the latches and the handle flags equal to what the trace says, running
operations included. -/
def Obligations.StepKeepsPinsFollowTrace : Prop :=
  ∀ s t : State, PinsFollowTrace s → step s = .next t → PinsFollowTrace t

/-- R229: every step keeps it true that no handle is the subject of two close calls. -/
def Obligations.StepKeepsClosedOnce : Prop := ∀ s t : State, ClosedOnce s → step s = .next t → ClosedOnce t

/-- R33 (ghost state, D30): `last_cmd` is a function of the trace: every operation keeps it so. That a failed row
outside the host surface clears it is log entry 10. -/
def Obligations.LastCommandFollowsTrace : Prop :=
  ∀ (s t : State) (i : Instr), s.lastCmd = lastCmdOf s.trace → exec i s = .next t → t.lastCmd = lastCmdOf t.trace

/-! ## The sequencer position -/

/-- R36 (D27): the big step and the small steps agree, for every instruction, state and environment, whatever the outcome.
Where the big step answers a next state, the operation started as a sequencer position and advanced action by action ends
in exactly that state; one view refuses exactly when the other does, for the same reason; and one hangs exactly when the
other does, in the same call and the same state, its trace included, but for the position that only the small steps
hold (log entry 26). -/
def Obligations.SmallStepsAgree : Prop :=
  ∀ (s : State) (i : Instr), s.seq = none →
    (∀ t, exec i s = .next t → ∃ s₁ n, start i s = .next s₁ ∧ ticks n s₁ = .next t ∧ t.seq = none) ∧
    (∀ r, exec i s = .refused r ↔ start i s = .refused r) ∧
    (∀ f, exec i s = .fault f → ∃ s₁ n f', start i s = .next s₁ ∧ ticks n s₁ = .fault f' ∧ f'.withoutPosition = f) ∧
    (∀ s₁ n u f', start i s = .next s₁ → ticks n s₁ = .next u → u.seq ≠ none → step u = .fault f' →
      exec i s = .fault f'.withoutPosition)

/-- R152 (points by D19): at every small step of every started operation, `phase` makes a transition of the table or
stays; and where it makes one, it does so at the point that the table's third column gives ("A row gives the only way to
make that transition"). That a failing row outside the host surface goes to `Uninitialized` too is log entry 10. -/
def Obligations.PhaseMovesByTheTable : Prop :=
  ∀ (s s₁ t u : State) (i : Instr) (n : Nat), s.seq = none → start i s = .next s₁ → ticks n s₁ = .next t →
    t.seq ≠ none → step t = .next u →
      PhaseMove t.phase u.phase ∧ (t.phase ≠ u.phase → PhaseMoveWhen i s t u)

/-- R36: the position of a started operation, at every small step while it runs: it names the operation; what it has done
and what it has left make up the operation's fixed sequence; it has advanced by one call for each event recorded; the
number of table entries sent is at most `len(INIT_TABLE)`; and the byte offset is at most the length of the stream, which
is `FRAME_BYTES` for a frame and `len(buf)` for a `stream` issued by itself, where it is the number of data bytes put on
the bus so far. -/
def Obligations.PositionBounds : Prop :=
  ∀ (s s₁ t : State) (i : Instr) (n : Nat) (r : Running), s.seq = none → start i s = .next s₁ →
    ticks n s₁ = .next t → t.seq = some r →
    r.instr = i ∧ planOf i s = .go r.ending (r.done ++ r.rest) ∧
    (∃ added, t.trace = s.trace ++ added ∧ r.callIndex = added.length ∧
      (∀ buf, i = .stream buf → r.byteOffset = (dataBytesOf added).length ∧ r.byteOffset ≤ buf.length)) ∧
    r.tableIndex ≤ s.cfg.initTable.length ∧
    ((∀ buf, i ≠ .stream buf) → r.byteOffset ≤ s.cfg.frameBytes)

/-- R7 (D7): construction from parameters that R7 does not admit is refused, whatever the handles and the environment;
and whatever construction makes a session of has parameters that R7 admits. -/
def Obligations.InadmissibleParametersAreRefused : Prop :=
  ∀ (p : Parameters) (spi gpio : Bool) (requests : List Request) (answers : List Answer),
    (¬ p.Wf → construct p spi gpio requests answers = .refused .parametersNotAdmissible) ∧
    ∀ s, construct p spi gpio requests answers = .live s → p.Wf ∧ s.cfg.toParameters = p
end

