-- ==== Sys2Proof/Laws/Decode.lean ====
section
/-! SUPPORT. The small lemmas of the tagged byte, the byte split and the transaction, in both directions. -/

namespace Sys2Proof

@[simp] theorem byteOf_tagData (b : Byte) : byteOf (tagData b) = b := by
  apply BitVec.eq_of_getLsbD_eq; intro i hi
  unfold byteOf tagData
  rw [BitVec.getLsbD_extractLsb']; erw [BitVec.getLsbD_append]; simp [hi]

@[simp] theorem byteOf_tagCommand (b : Byte) : byteOf (tagCommand b) = b := by
  apply BitVec.eq_of_getLsbD_eq; intro i hi
  unfold byteOf tagCommand
  rw [BitVec.getLsbD_extractLsb']; erw [BitVec.getLsbD_append]; simp [hi]

@[simp] theorem isData_tagData (b : Byte) : isData (tagData b) = true := by
  unfold isData tagData; erw [BitVec.msb_append]; simp

@[simp] theorem isData_tagCommand (b : Byte) : isData (tagCommand b) = false := by
  unfold isData tagCommand; erw [BitVec.msb_append]; simp

/-- A data-tagged byte is the tag of its byte. -/
theorem tagData_byteOf {t : Tagged} (h : isData t = true) : tagData (byteOf t) = t := by
  unfold isData at h; unfold tagData byteOf
  apply BitVec.eq_of_getLsbD_eq; intro i hi
  erw [BitVec.getLsbD_append]; simp only [BitVec.getLsbD_extractLsb']
  by_cases h8 : i < 8
  · simp [h8]
  · obtain rfl : i = 8 := by omega
    simp [BitVec.msb_eq_getLsbD_last] at h ⊢; exact h

/-- A Command-tagged byte is the tag of its byte. -/
theorem tagCommand_byteOf {t : Tagged} (h : isData t = false) : tagCommand (byteOf t) = t := by
  unfold isData at h; unfold tagCommand byteOf
  apply BitVec.eq_of_getLsbD_eq; intro i hi
  erw [BitVec.getLsbD_append]; simp only [BitVec.getLsbD_extractLsb']
  by_cases h8 : i < 8
  · simp [h8]
  · obtain rfl : i = 8 := by omega
    simp [BitVec.msb_eq_getLsbD_last] at h ⊢; exact h

/-- The two bytes of a 16-bit value make it up again (R8). -/
@[simp] theorem hi8_append_lo8 (v : U16) : hi8 v ++ lo8 v = v := by
  apply BitVec.eq_of_getLsbD_eq; intro i hi
  unfold hi8 lo8
  erw [BitVec.getLsbD_append]; simp only [BitVec.getLsbD_extractLsb']
  by_cases h8 : i < 8
  · simp [h8]
  · have : i - 8 < 8 := by omega
    have h' : 8 + (i - 8) = i := by omega
    simp [h8, this, h']

@[simp] theorem hi8_append (a b : Byte) : hi8 (a ++ b) = a := by
  apply BitVec.eq_of_getLsbD_eq; intro i hi
  unfold hi8
  rw [BitVec.getLsbD_extractLsb']; erw [BitVec.getLsbD_append]; simp [hi]

@[simp] theorem lo8_append (a b : Byte) : lo8 (a ++ b) = b := by
  apply BitVec.eq_of_getLsbD_eq; intro i hi
  unfold lo8
  rw [BitVec.getLsbD_extractLsb']; erw [BitVec.getLsbD_append]; simp [hi]

/-- `v = hi8(v) × 256 + lo8(v)` (R8). -/
theorem toNat_eq_hi8_lo8 (v : U16) : v.toNat = (hi8 v).toNat * 256 + (lo8 v).toNat := by
  have := v.isLt
  simp [hi8, lo8, Nat.shiftRight_eq_div_pow]
  omega

/-- The bytes of a run of data tags. -/
theorem dataBytes_map_tagData (bytes : List Byte) : dataBytes (bytes.map tagData) = some bytes := by
  simp [dataBytes, Function.comp_def]

/-- A run whose bytes are read is the run of their data tags. -/
theorem map_tagData_of_dataBytes {ts : List Tagged} {bytes : List Byte} (h : dataBytes ts = some bytes) :
    bytes.map tagData = ts := by
  unfold dataBytes at h; split at h <;> cases h
  rename_i ha
  rw [List.map_map]
  conv_rhs => rw [← List.map_id ts]
  exact List.map_congr_left fun t ht => tagData_byteOf (List.all_eq_true.1 ha t ht)

/-- A transaction is read back. -/
theorem decodeTransaction_encode (opcode : Byte) (payload : List Byte) :
    decodeTransaction (encodeTransaction opcode payload) = some (opcode, payload) := by
  simp [encodeTransaction, decodeTransaction, dataBytes_map_tagData]

/-- What is read as a transaction is its encoding. -/
theorem encodeTransaction_of_decode {ts : List Tagged} {opcode : Byte} {payload : List Byte}
    (h : decodeTransaction ts = some (opcode, payload)) : encodeTransaction opcode payload = ts := by
  cases ts with
  | nil => cases h
  | cons t ts =>
    simp only [decodeTransaction] at h
    split at h
    · cases h
    · rename_i hd
      cases hb : dataBytes ts with
      | none => simp [hb] at h
      | some bytes =>
        simp only [hb, Option.map_some, Option.some.injEq, Prod.mk.injEq] at h
        obtain ⟨rfl, rfl⟩ := h
        simp [encodeTransaction, map_tagData_of_dataBytes hb, tagCommand_byteOf (by simpa using hd)]

end Sys2Proof
end

