-- ==== Sys2Proof/Laws/State.lean ====
section
/-! SUPPORT. One lemma per field per update of the state, so that no proof unfolds a record update. -/

namespace Sys2Proof.Machine.State

variable (s : State)

/-! ## `log` -/

@[simp] theorem log_cfg (e : Event) : (s.log e).cfg = s.cfg := rfl
@[simp] theorem log_phase (e : Event) : (s.log e).phase = s.phase := rfl
@[simp] theorem log_handles (e : Event) : (s.log e).handles = s.handles := rfl
@[simp] theorem log_lat (e : Event) : (s.log e).lat = s.lat := rfl
@[simp] theorem log_lastCmd (e : Event) : (s.log e).lastCmd = s.lastCmd := rfl
@[simp] theorem log_win (e : Event) : (s.log e).win = s.win := rfl
@[simp] theorem log_armed (e : Event) : (s.log e).armed = s.armed := rfl
@[simp] theorem log_trace (e : Event) : (s.log e).trace = s.trace ++ [e] := rfl
@[simp] theorem log_result (e : Event) : (s.log e).result = s.result := rfl
@[simp] theorem log_seq (e : Event) : (s.log e).seq = s.seq := rfl
@[simp] theorem log_requests (e : Event) : (s.log e).requests = s.requests := rfl
@[simp] theorem log_answers (e : Event) : (s.log e).answers = s.answers := rfl

/-! ## `setLatch` -/

@[simp] theorem setLatch_cfg (p : Pin) (v : LatchVal) : (s.setLatch p v).cfg = s.cfg := by cases p <;> rfl
@[simp] theorem setLatch_phase (p : Pin) (v : LatchVal) : (s.setLatch p v).phase = s.phase := by cases p <;> rfl
@[simp] theorem setLatch_handles (p : Pin) (v : LatchVal) : (s.setLatch p v).handles = s.handles := by cases p <;> rfl
@[simp] theorem setLatch_lastCmd (p : Pin) (v : LatchVal) : (s.setLatch p v).lastCmd = s.lastCmd := by cases p <;> rfl
@[simp] theorem setLatch_win (p : Pin) (v : LatchVal) : (s.setLatch p v).win = s.win := by cases p <;> rfl
@[simp] theorem setLatch_armed (p : Pin) (v : LatchVal) : (s.setLatch p v).armed = s.armed := by cases p <;> rfl
@[simp] theorem setLatch_trace (p : Pin) (v : LatchVal) : (s.setLatch p v).trace = s.trace := by cases p <;> rfl
@[simp] theorem setLatch_result (p : Pin) (v : LatchVal) : (s.setLatch p v).result = s.result := by cases p <;> rfl
@[simp] theorem setLatch_seq (p : Pin) (v : LatchVal) : (s.setLatch p v).seq = s.seq := by cases p <;> rfl
@[simp] theorem setLatch_requests (p : Pin) (v : LatchVal) : (s.setLatch p v).requests = s.requests := by cases p <;> rfl
@[simp] theorem setLatch_answers (p : Pin) (v : LatchVal) : (s.setLatch p v).answers = s.answers := by cases p <;> rfl

/-! ## `setOpen` -/

@[simp] theorem setOpen_cfg (p : Pin) (v : Bool) : (s.setOpen p v).cfg = s.cfg := by cases p <;> rfl
@[simp] theorem setOpen_phase (p : Pin) (v : Bool) : (s.setOpen p v).phase = s.phase := by cases p <;> rfl
@[simp] theorem setOpen_lat (p : Pin) (v : Bool) : (s.setOpen p v).lat = s.lat := by cases p <;> rfl
@[simp] theorem setOpen_lastCmd (p : Pin) (v : Bool) : (s.setOpen p v).lastCmd = s.lastCmd := by cases p <;> rfl
@[simp] theorem setOpen_win (p : Pin) (v : Bool) : (s.setOpen p v).win = s.win := by cases p <;> rfl
@[simp] theorem setOpen_armed (p : Pin) (v : Bool) : (s.setOpen p v).armed = s.armed := by cases p <;> rfl
@[simp] theorem setOpen_trace (p : Pin) (v : Bool) : (s.setOpen p v).trace = s.trace := by cases p <;> rfl
@[simp] theorem setOpen_result (p : Pin) (v : Bool) : (s.setOpen p v).result = s.result := by cases p <;> rfl
@[simp] theorem setOpen_seq (p : Pin) (v : Bool) : (s.setOpen p v).seq = s.seq := by cases p <;> rfl
@[simp] theorem setOpen_requests (p : Pin) (v : Bool) : (s.setOpen p v).requests = s.requests := by cases p <;> rfl
@[simp] theorem setOpen_answers (p : Pin) (v : Bool) : (s.setOpen p v).answers = s.answers := by cases p <;> rfl

/-! ## `setSpiOpen` -/

@[simp] theorem setSpiOpen_cfg (v : Bool) : (s.setSpiOpen v).cfg = s.cfg := rfl
@[simp] theorem setSpiOpen_phase (v : Bool) : (s.setSpiOpen v).phase = s.phase := rfl
@[simp] theorem setSpiOpen_handles (v : Bool) : (s.setSpiOpen v).handles = { s.handles with spi := v } := rfl
@[simp] theorem setSpiOpen_lat (v : Bool) : (s.setSpiOpen v).lat = s.lat := rfl
@[simp] theorem setSpiOpen_lastCmd (v : Bool) : (s.setSpiOpen v).lastCmd = s.lastCmd := rfl
@[simp] theorem setSpiOpen_win (v : Bool) : (s.setSpiOpen v).win = s.win := rfl
@[simp] theorem setSpiOpen_armed (v : Bool) : (s.setSpiOpen v).armed = s.armed := rfl
@[simp] theorem setSpiOpen_trace (v : Bool) : (s.setSpiOpen v).trace = s.trace := rfl
@[simp] theorem setSpiOpen_result (v : Bool) : (s.setSpiOpen v).result = s.result := rfl
@[simp] theorem setSpiOpen_seq (v : Bool) : (s.setSpiOpen v).seq = s.seq := rfl
@[simp] theorem setSpiOpen_requests (v : Bool) : (s.setSpiOpen v).requests = s.requests := rfl
@[simp] theorem setSpiOpen_answers (v : Bool) : (s.setSpiOpen v).answers = s.answers := rfl

/-! ## `clearShadow` -/

@[simp] theorem clearShadow_cfg : s.clearShadow.cfg = s.cfg := rfl
@[simp] theorem clearShadow_phase : s.clearShadow.phase = s.phase := rfl
@[simp] theorem clearShadow_handles : s.clearShadow.handles = s.handles := rfl
@[simp] theorem clearShadow_lat : s.clearShadow.lat = s.lat := rfl
@[simp] theorem clearShadow_lastCmd : s.clearShadow.lastCmd = none := rfl
@[simp] theorem clearShadow_win : s.clearShadow.win = none := rfl
@[simp] theorem clearShadow_armed : s.clearShadow.armed = false := rfl
@[simp] theorem clearShadow_trace : s.clearShadow.trace = s.trace := rfl
@[simp] theorem clearShadow_result : s.clearShadow.result = s.result := rfl
@[simp] theorem clearShadow_seq : s.clearShadow.seq = s.seq := rfl
@[simp] theorem clearShadow_requests : s.clearShadow.requests = s.requests := rfl
@[simp] theorem clearShadow_answers : s.clearShadow.answers = s.answers := rfl

/-! ## `begin` -/

@[simp] theorem begin_cfg : s.begin.cfg = s.cfg := rfl
@[simp] theorem begin_phase : s.begin.phase = s.phase := rfl
@[simp] theorem begin_handles : s.begin.handles = s.handles := rfl
@[simp] theorem begin_lat : s.begin.lat = s.lat := rfl
@[simp] theorem begin_lastCmd : s.begin.lastCmd = s.lastCmd := rfl
@[simp] theorem begin_win : s.begin.win = s.win := rfl
@[simp] theorem begin_armed : s.begin.armed = s.armed := rfl
@[simp] theorem begin_trace : s.begin.trace = s.trace := rfl
@[simp] theorem begin_result : s.begin.result = none := rfl
@[simp] theorem begin_seq : s.begin.seq = s.seq := rfl
@[simp] theorem begin_requests : s.begin.requests = s.requests := rfl
@[simp] theorem begin_answers : s.begin.answers = s.answers := rfl

/-! ## `finish` -/

@[simp] theorem finish_cfg (e : Ending) : (s.finish e).cfg = s.cfg := by cases e <;> rfl
@[simp] theorem finish_phase (e : Ending) : (s.finish e).phase = s.phase := by cases e <;> rfl
@[simp] theorem finish_handles (e : Ending) : (s.finish e).handles = s.handles := by cases e <;> rfl
@[simp] theorem finish_lat (e : Ending) : (s.finish e).lat = s.lat := by cases e <;> rfl
@[simp] theorem finish_lastCmd (e : Ending) : (s.finish e).lastCmd = s.lastCmd := by cases e <;> rfl
@[simp] theorem finish_win (e : Ending) : (s.finish e).win = s.win := by cases e <;> rfl
@[simp] theorem finish_armed (e : Ending) : (s.finish e).armed = s.armed := by cases e <;> rfl
@[simp] theorem finish_trace (e : Ending) : (s.finish e).trace = s.trace := by cases e <;> rfl
@[simp] theorem finish_result (e : Ending) :
    (s.finish e).result = if e = .internal then s.result else some .ok := by cases e <;> rfl
@[simp] theorem finish_seq (e : Ending) : (s.finish e).seq = s.seq := by cases e <;> rfl
@[simp] theorem finish_requests (e : Ending) : (s.finish e).requests = s.requests := by cases e <;> rfl
@[simp] theorem finish_answers (e : Ending) : (s.finish e).answers = s.answers := by cases e <;> rfl

/-! ## `report` -/

@[simp] theorem report_cfg (r : Result) : (s.report r).cfg = s.cfg := rfl
@[simp] theorem report_phase (r : Result) : (s.report r).phase = s.phase := rfl
@[simp] theorem report_handles (r : Result) : (s.report r).handles = s.handles := rfl
@[simp] theorem report_lat (r : Result) : (s.report r).lat = s.lat := rfl
@[simp] theorem report_lastCmd (r : Result) : (s.report r).lastCmd = s.lastCmd := rfl
@[simp] theorem report_win (r : Result) : (s.report r).win = s.win := rfl
@[simp] theorem report_armed (r : Result) : (s.report r).armed = s.armed := rfl
@[simp] theorem report_trace (r : Result) : (s.report r).trace = s.trace := rfl
@[simp] theorem report_result (r : Result) : (s.report r).result = some r := rfl
@[simp] theorem report_seq (r : Result) : (s.report r).seq = s.seq := rfl
@[simp] theorem report_requests (r : Result) : (s.report r).requests = s.requests := rfl
@[simp] theorem report_answers (r : Result) : (s.report r).answers = s.answers := rfl

/-! ## Reading a latch or a handle after a write -/

@[simp] theorem latch_setLatch (p q : Pin) (v : LatchVal) :
    (s.setLatch p v).latch q = if p = q then v else s.latch q := by
  cases p <;> cases q <;> rfl

@[simp] theorem isOpen_setOpen (p q : Pin) (v : Bool) :
    (s.setOpen p v).isOpen q = if p = q then v else s.isOpen q := by
  cases p <;> cases q <;> rfl

@[simp] theorem setOpen_handles_spi (p : Pin) (v : Bool) : (s.setOpen p v).handles.spi = s.handles.spi := by
  cases p <;> rfl

@[simp] theorem latch_log (e : Event) (p : Pin) : (s.log e).latch p = s.latch p := by cases p <;> rfl

@[simp] theorem isOpen_log (e : Event) (p : Pin) : (s.log e).isOpen p = s.isOpen p := by cases p <;> rfl

@[simp] theorem latch_setOpen (p q : Pin) (v : Bool) : (s.setOpen p v).latch q = s.latch q := by
  cases p <;> cases q <;> rfl

@[simp] theorem isOpen_setLatch (p q : Pin) (v : LatchVal) : (s.setLatch p v).isOpen q = s.isOpen q := by
  cases p <;> cases q <;> rfl

/-! ## Reading one latch field after a write -/

@[simp] theorem setLatch_rst (v : LatchVal) : (s.setLatch .rst v).lat = { s.lat with rst := v } := rfl

@[simp] theorem setOpen_rst (v : Bool) : (s.setOpen .rst v).handles = { s.handles with rst := v } := rfl

@[simp] theorem setLatch_dc (v : LatchVal) : (s.setLatch .dc v).lat = { s.lat with dc := v } := rfl

@[simp] theorem setOpen_dc (v : Bool) : (s.setOpen .dc v).handles = { s.handles with dc := v } := rfl

@[simp] theorem setLatch_bl (v : LatchVal) : (s.setLatch .bl v).lat = { s.lat with bl := v } := rfl

@[simp] theorem setOpen_bl (v : Bool) : (s.setOpen .bl v).handles = { s.handles with bl := v } := rfl

end Sys2Proof.Machine.State
end

