-- ==== Sys2Proof/Laws/Ops.lean ====
section
/-! SUPPORT. What the shared operations can do, said once: one inversion lemma for an action, one for a sequence of
actions, one for the performance of a plan. -/

namespace Sys2Proof.Machine

/-! ## The effect of an action -/

/-- The effect of an action whose call, if it makes one, answers `ok`; it neither reads nor writes the answers. -/
def effect (a : Action) (s : State) : State :=
  match a with
  | .gpioOpen p => ((s.log (.evOpen p)).setOpen p true).setLatch p .unknown
  | .gpioWrite p l => (s.log (.evWrite p l)).setLatch p (.known l)
  | .spiWrite bytes =>
    match s.lat.dc with
    | .known dc => s.log (.evSpi dc bytes)
    | .unknown => s
  | .sleep ms => s.log (.evSleep ms)
  | .gpioClose p => (s.log (.evClose p)).setOpen p false
  | .spiClose => (s.log .evSpiClose).setSpiOpen false
  | .setPhase ph => { s with phase := ph }
  | .clearShadow => s.clearShadow
  | .disarm => { s with armed := false }
  | .setLastCmd opcode => { s with lastCmd := some opcode }
  | .programWindow w => { s with win := some w, armed := true }
  | .nextEntry => s
  | .startStream => s

/-- The call an action makes in a state, if it is one that can fail. -/
def failingCall (a : Action) (s : State) : Option Call :=
  match a with
  | .gpioOpen p => some (.gpioOpen p)
  | .gpioWrite p l => some (.gpioWrite p l)
  | .spiWrite bytes =>
    match s.lat.dc with
    | .known dc => some (.spiWrite dc bytes)
    | .unknown => none
  | .gpioClose p => some (.gpioClose p)
  | .spiClose => some .spiClose
  | _ => none

/-- The effect of an action whose call `c` answers `error`. -/
def failEffect (c : Call) (s : State) : State :=
  match c with
  | .gpioOpen _ => s.log (.evFail c)
  | .gpioWrite p _ => (s.log (.evFail c)).setLatch p .unknown
  | .spiWrite _ _ => s.log (.evFail c)
  | .gpioClose p => (s.log (.evFail c)).setOpen p false
  | .spiClose => (s.log (.evFail c)).setSpiOpen false

/-- `s` with other answers to come. -/
def State.withAnswers (s : State) (answers : List Answer) : State := { s with answers := answers }

section
variable (s : State) (x y : List Answer)
@[simp] theorem State.withAnswers_cfg : (s.withAnswers x).cfg = s.cfg := rfl
@[simp] theorem State.withAnswers_phase : (s.withAnswers x).phase = s.phase := rfl
@[simp] theorem State.withAnswers_handles : (s.withAnswers x).handles = s.handles := rfl
@[simp] theorem State.withAnswers_lat : (s.withAnswers x).lat = s.lat := rfl
@[simp] theorem State.withAnswers_lastCmd : (s.withAnswers x).lastCmd = s.lastCmd := rfl
@[simp] theorem State.withAnswers_win : (s.withAnswers x).win = s.win := rfl
@[simp] theorem State.withAnswers_armed : (s.withAnswers x).armed = s.armed := rfl
@[simp] theorem State.withAnswers_trace : (s.withAnswers x).trace = s.trace := rfl
@[simp] theorem State.withAnswers_result : (s.withAnswers x).result = s.result := rfl
@[simp] theorem State.withAnswers_seq : (s.withAnswers x).seq = s.seq := rfl
@[simp] theorem State.withAnswers_requests : (s.withAnswers x).requests = s.requests := rfl
@[simp] theorem State.withAnswers_answers : (s.withAnswers x).answers = x := rfl
@[simp] theorem State.withAnswers_withAnswers : (s.withAnswers x).withAnswers y = s.withAnswers y := rfl
@[simp] theorem State.withAnswers_isOpen (p : Pin) : (s.withAnswers x).isOpen p = s.isOpen p := by cases p <;> rfl
@[simp] theorem State.withAnswers_latch (p : Pin) : (s.withAnswers x).latch p = s.latch p := by cases p <;> rfl
@[simp] theorem State.withAnswers_self : s.withAnswers s.answers = s := rfl
end

/-- An effect does not depend on the answers to come. -/
theorem effect_withAnswers (a : Action) (s : State) (x : List Answer) :
    effect a (s.withAnswers x) = (effect a s).withAnswers x := by
  cases a with
  | gpioOpen p => cases p <;> rfl
  | gpioWrite p l => cases p <;> rfl
  | spiWrite b => simp only [effect, State.withAnswers_lat]; split <;> rfl
  | gpioClose p => cases p <;> rfl
  | _ => rfl

theorem failEffect_withAnswers (c : Call) (s : State) (x : List Answer) :
    failEffect c (s.withAnswers x) = (failEffect c s).withAnswers x := by
  cases c with
  | gpioWrite p l => cases p <;> rfl
  | gpioClose p => cases p <;> rfl
  | _ => rfl

theorem failingCall_withAnswers (a : Action) (s : State) (x : List Answer) :
    failingCall a (s.withAnswers x) = failingCall a s := by
  cases a <;> rfl

/-- An effect leaves the answers alone. -/
@[simp] theorem effect_answers (a : Action) (s : State) : (effect a s).answers = s.answers := by
  cases a <;> simp only [effect] <;> (try split) <;> simp

/-! ## One action -/

/-- Everything a transport call can do. -/
theorem transportCall_cases (a : Action) (c : Call) (onOk onErr : State → State) (s : State) :
    (∃ n, (∀ x ∈ s.answers.take n, x = .ok) ∧
        transportCall a c onOk onErr s = .ok (onOk (s.withAnswers (s.answers.drop n)))) ∨
    (.error ∈ s.answers ∧ ∃ n, transportCall a c onOk onErr s =
        .err (onErr ((s.withAnswers (s.answers.drop n)).log (.evFail c)))) ∨
    (.noReturn ∈ s.answers ∧ transportCall a c onOk onErr s = .stuck (.transportNeverReturns a s)) := by
  unfold transportCall
  split
  · rename_i h; exact .inl ⟨0, by simp, by simp⟩
  · rename_i rest h; exact .inl ⟨1, by simp [h], by simp [h, State.withAnswers]⟩
  · rename_i rest h; exact .inr (.inl ⟨by simp [h], 1, by simp [h, State.withAnswers]⟩)
  · rename_i rest h; exact .inr (.inr ⟨by simp [h], rfl⟩)

/-- Everything an action can do: complete with its effect; fail at its call; or leave the block stuck, in a call that
never returns or in a bus write with an unknown control line. -/
theorem act_cases (a : Action) (s : State) :
    (∃ n, act a s = .ok ((effect a s).withAnswers (s.answers.drop n))) ∨
    (∃ c n, failingCall a s = some c ∧ .error ∈ s.answers ∧
      act a s = .err ((failEffect c s).withAnswers (s.answers.drop n))) ∨
    (a.isCall = true ∧ .noReturn ∈ s.answers ∧ act a s = .stuck (.transportNeverReturns a s)) ∨
    ((∃ bytes, a = .spiWrite bytes) ∧ s.lat.dc = .unknown ∧ act a s = .stuck (.controlLineUnknown s)) := by
  have pass (t : State) (h : t.answers = s.answers) : t = t.withAnswers (s.answers.drop 0) := by
    simp [← h]
  cases a with
  | gpioOpen p =>
    simp only [act, gpioOpen]
    rcases transportCall_cases (.gpioOpen p) (.gpioOpen p)
      (fun s => ((s.log (.evOpen p)).setOpen p true).setLatch p .unknown) id s with ⟨n, -, h⟩ | ⟨he, n, h⟩ | ⟨he, h⟩
    · exact .inl ⟨n, by rw [h, ← effect_withAnswers]; rfl⟩
    · exact .inr (.inl ⟨.gpioOpen p, n, rfl, he, by rw [h, ← failEffect_withAnswers]; rfl⟩)
    · exact .inr (.inr (.inl ⟨rfl, he, h⟩))
  | gpioWrite p l =>
    simp only [act, gpioWrite]
    rcases transportCall_cases (.gpioWrite p l) (.gpioWrite p l)
      (fun s => (s.log (.evWrite p l)).setLatch p (.known l)) (fun s => s.setLatch p .unknown) s
      with ⟨n, -, h⟩ | ⟨he, n, h⟩ | ⟨he, h⟩
    · exact .inl ⟨n, by rw [h, ← effect_withAnswers]; rfl⟩
    · exact .inr (.inl ⟨.gpioWrite p l, n, rfl, he, by rw [h, ← failEffect_withAnswers]; rfl⟩)
    · exact .inr (.inr (.inl ⟨rfl, he, h⟩))
  | spiWrite bytes =>
    simp only [act, spiWrite]
    cases hdc : s.lat.dc with
    | unknown => exact .inr (.inr (.inr ⟨⟨bytes, rfl⟩, rfl, rfl⟩))
    | known dc =>
      rcases transportCall_cases (.spiWrite bytes) (.spiWrite dc bytes) (fun s => s.log (.evSpi dc bytes)) id s
        with ⟨n, -, h⟩ | ⟨he, n, h⟩ | ⟨he, h⟩
      · exact .inl ⟨n, by rw [← effect_withAnswers]; simp [h, effect, hdc]⟩
      · exact .inr (.inl ⟨.spiWrite dc bytes, n, by simp [failingCall, hdc], he,
          by rw [← failEffect_withAnswers]; simp [h, failEffect]⟩)
      · exact .inr (.inr (.inl ⟨rfl, he, h⟩))
  | sleep ms =>
    simp only [act, sleep]
    split
    · rename_i h; exact .inl ⟨0, by simp [effect, h, State.withAnswers, State.log]⟩
    · rename_i h; exact .inr (.inr (.inl ⟨rfl, by simp [h], rfl⟩))
    · rename_i h; exact .inl ⟨1, by simp [effect, h, State.withAnswers, State.log]⟩
  | gpioClose p =>
    simp only [act, gpioClose]
    rcases transportCall_cases (.gpioClose p) (.gpioClose p) (fun s => (s.log (.evClose p)).setOpen p false)
      (fun s => s.setOpen p false) s with ⟨n, -, h⟩ | ⟨he, n, h⟩ | ⟨he, h⟩
    · exact .inl ⟨n, by rw [h, ← effect_withAnswers]; rfl⟩
    · exact .inr (.inl ⟨.gpioClose p, n, rfl, he, by rw [h, ← failEffect_withAnswers]; rfl⟩)
    · exact .inr (.inr (.inl ⟨rfl, he, h⟩))
  | spiClose =>
    simp only [act, spiClose]
    rcases transportCall_cases .spiClose .spiClose (fun s => (s.log .evSpiClose).setSpiOpen false)
      (fun s => s.setSpiOpen false) s with ⟨n, -, h⟩ | ⟨he, n, h⟩ | ⟨he, h⟩
    · exact .inl ⟨n, by rw [h, ← effect_withAnswers]; rfl⟩
    · exact .inr (.inl ⟨.spiClose, n, rfl, he, by rw [h, ← failEffect_withAnswers]; rfl⟩)
    · exact .inr (.inr (.inl ⟨rfl, he, h⟩))
  | setPhase ph => exact .inl ⟨0, rfl⟩
  | clearShadow => exact .inl ⟨0, rfl⟩
  | disarm => exact .inl ⟨0, rfl⟩
  | setLastCmd op => exact .inl ⟨0, rfl⟩
  | programWindow w => exact .inl ⟨0, rfl⟩
  | nextEntry => exact .inl ⟨0, rfl⟩
  | startStream => exact .inl ⟨0, rfl⟩

/-! ## A sequence -/

/-- The effects of a sequence, in order. -/
def effects (acts : List Action) (s : State) : State := acts.foldl (fun s a => effect a s) s

@[simp] theorem effects_nil (s : State) : effects [] s = s := rfl
@[simp] theorem effects_cons (a : Action) (acts : List Action) (s : State) :
    effects (a :: acts) s = effects acts (effect a s) := rfl
theorem effects_append (xs ys : List Action) (s : State) : effects (xs ++ ys) s = effects ys (effects xs s) :=
  List.foldl_append

theorem effects_withAnswers (acts : List Action) (s : State) (x : List Answer) :
    effects acts (s.withAnswers x) = (effects acts s).withAnswers x := by
  induction acts generalizing s with
  | nil => rfl
  | cons a acts ih => simp only [effects_cons, effect_withAnswers, ih]

@[simp] theorem effects_answers (acts : List Action) (s : State) : (effects acts s).answers = s.answers := by
  induction acts generalizing s with
  | nil => rfl
  | cons a acts ih => simp [ih]

theorem runActions_append (xs ys : List Action) (s : State) :
    runActions (xs ++ ys) s =
      match runActions xs s with
      | .ok t => runActions ys t
      | .err t => .err t
      | .stuck f => .stuck f := by
  induction xs generalizing s with
  | nil => rfl
  | cons a xs ih =>
    simp only [List.cons_append, runActions]
    cases act a s <;> simp [ih]

/-- Everything a sequence can do. Where it stops early, the actions before the one that stopped have had their effects,
and nothing after it has happened (R245). -/
theorem runActions_cases (acts : List Action) (s : State) :
    (∃ n, runActions acts s = .ok ((effects acts s).withAnswers (s.answers.drop n))) ∨
    (∃ before a after c n, acts = before ++ a :: after ∧ failingCall a (effects before s) = some c ∧
      .error ∈ s.answers ∧
      runActions acts s = .err ((failEffect c (effects before s)).withAnswers (s.answers.drop n))) ∨
    (∃ before a after n, acts = before ++ a :: after ∧ a.isCall = true ∧ .noReturn ∈ s.answers ∧
      runActions acts s =
        .stuck (.transportNeverReturns a ((effects before s).withAnswers (s.answers.drop n)))) ∨
    (∃ before bytes after n, acts = before ++ .spiWrite bytes :: after ∧ (effects before s).lat.dc = .unknown ∧
      runActions acts s = .stuck (.controlLineUnknown ((effects before s).withAnswers (s.answers.drop n)))) := by
  induction acts generalizing s with
  | nil => exact .inl ⟨0, rfl⟩
  | cons a acts ih =>
    rcases act_cases a s with ⟨m, h⟩ | ⟨c, n, hc, he, h⟩ | ⟨hi, he, h⟩ | ⟨⟨b, rfl⟩, hu, h⟩
    · simp only [runActions, h]
      have mem {x : Answer} (hx : x ∈ s.answers.drop m) : x ∈ s.answers := List.mem_of_mem_drop hx
      rcases ih ((effect a s).withAnswers (s.answers.drop m)) with
        ⟨n, h'⟩ | ⟨bf, a', af, c, n, rfl, hc, he, h'⟩ | ⟨bf, a', af, n, rfl, hi, he, h'⟩ | ⟨bf, b, af, n, rfl, hu, h'⟩
      · exact .inl ⟨m + n, by simp [h', effects_withAnswers, List.drop_drop]⟩
      · refine .inr (.inl ⟨a :: bf, a', af, c, m + n, rfl, ?_, mem (by simpa using he), ?_⟩)
        · simpa [effects_withAnswers, failingCall_withAnswers] using hc
        · simp [h', effects_withAnswers, failEffect_withAnswers, List.drop_drop]
      · refine .inr (.inr (.inl ⟨a :: bf, a', af, m + n, rfl, hi, mem (by simpa using he), ?_⟩))
        simp [h', effects_withAnswers, List.drop_drop]
      · refine .inr (.inr (.inr ⟨a :: bf, b, af, m + n, rfl, ?_, ?_⟩))
        · simpa [effects_withAnswers] using hu
        · simp [h', effects_withAnswers, List.drop_drop]
    · exact .inr (.inl ⟨[], a, acts, c, n, rfl, hc, he, by simp [runActions, h]⟩)
    · exact .inr (.inr (.inl ⟨[], a, acts, 0, rfl, hi, he, by simp [runActions, h]⟩))
    · exact .inr (.inr (.inr ⟨[], b, acts, 0, rfl, hu, by simp [runActions, h]⟩))

/-! ## A plan, and an instruction -/

/-- Every instruction performs its plan. -/
theorem exec_eq_perform (i : Instr) (s : State) : exec i s = perform (planOf i s) s := by cases i <;> rfl

/-- When the performance of a plan answers a next state. -/
theorem perform_next {p : Plan} {s t : State} (h : perform p s = .next t) :
    (∃ e, p = .fail e ∧ t = s.report e) ∨
    (∃ o acts u, p = .go o acts ∧ runActions acts s.begin = .ok u ∧ t = u.finish o) ∨
    (∃ o acts u, p = .go o acts ∧ runActions acts s.begin = .err u ∧ t = raiseTransportError o u) := by
  unfold perform at h
  split at h
  · cases h
  · cases h; exact .inl ⟨_, rfl, rfl⟩
  · split at h <;> cases h
    · exact .inr (.inl ⟨_, _, _, rfl, ‹_›, rfl⟩)
    · exact .inr (.inr ⟨_, _, _, rfl, ‹_›, rfl⟩)

end Sys2Proof.Machine
end

