-- ==== Sys2Proof/Laws/Sequences.lean ====
section
/-! SUPPORT. The effects of the block's fixed sequences, each said once, and their completion when every transport call
answers `ok`. -/

namespace Sys2Proof.Machine

/-! ## The control line is known at every bus write -/

/-- Whether every bus write of a sequence finds the control line driven, `known` saying whether it is at the start
(R13's derived clause). -/
def dcReady (known : Bool) : List Action → Bool
  | [] => true
  | .spiWrite _ :: rest => known && dcReady known rest
  | .gpioWrite .dc _ :: rest => dcReady true rest
  | .gpioOpen .dc :: rest => dcReady false rest
  | _ :: rest => dcReady known rest

theorem dcReady_of_false {known : Bool} {acts : List Action} (h : dcReady false acts = true) :
    dcReady known acts = true := by
  induction acts generalizing known with
  | nil => rfl
  | cons a acts ih =>
    cases a with
    | spiWrite b => simp [dcReady] at h
    | gpioWrite p l => cases p <;> first | exact h | exact ih h
    | gpioOpen p => cases p <;> first | exact h | exact ih h
    | _ => exact ih h

theorem dcReady_append {known : Bool} {xs ys : List Action} (hx : dcReady known xs = true)
    (hy : dcReady false ys = true) : dcReady known (xs ++ ys) = true := by
  induction xs generalizing known with
  | nil => exact dcReady_of_false hy
  | cons a xs ih =>
    cases a with
    | spiWrite b =>
      simp only [List.cons_append, dcReady, Bool.and_eq_true] at hx ⊢
      exact ⟨hx.1, ih hx.2⟩
    | gpioWrite p l => cases p <;> exact ih hx
    | gpioOpen p => cases p <;> exact ih hx
    | _ => exact ih hx

theorem dcReady_flatMap {α : Type} {f : α → List Action} (h : ∀ x, dcReady false (f x) = true) (xs : List α) :
    dcReady false (xs.flatMap f) = true := by
  induction xs with
  | nil => rfl
  | cons x xs ih => rw [List.flatMap_cons]; exact dcReady_append (h x) ih

/-- What an action leaves the control-line latch with, as `dcReady` follows it. -/
theorem effect_dc_known {known : Bool} {a : Action} {acts : List Action} {s : State}
    (h : dcReady known (a :: acts) = true) (hs : known = true → s.lat.dc ≠ .unknown) :
    ∃ known', dcReady known' acts = true ∧ (known' = true → (effect a s).lat.dc ≠ .unknown) := by
  cases a with
  | gpioOpen p => cases p <;> refine ⟨_, h, ?_⟩ <;> simp_all [effect]
  | gpioWrite p l => cases p <;> refine ⟨_, h, ?_⟩ <;> simp_all [effect]
  | spiWrite b =>
    simp only [dcReady, Bool.and_eq_true] at h
    refine ⟨known, h.2, fun hk => ?_⟩
    simp only [effect]; split <;> simpa using hs hk
  | _ => exact ⟨known, h, by simpa [effect] using hs⟩

/-- A ready sequence never makes a bus write with an unknown control line. -/
theorem dc_known_of_ready {known : Bool} {before after : List Action} {bytes : List Byte} {s : State}
    (h : dcReady known (before ++ .spiWrite bytes :: after) = true) (hs : known = true → s.lat.dc ≠ .unknown) :
    (effects before s).lat.dc ≠ .unknown := by
  induction before generalizing known s with
  | nil => simp only [List.nil_append, dcReady, Bool.and_eq_true] at h; exact hs h.1
  | cons a before ih =>
    obtain ⟨k, hk, hs'⟩ := effect_dc_known h hs
    exact ih hk hs'

/-! ## Completion under an `ok` transport -/

/-- Each call records one event and takes one answer; an assignment does neither. -/
theorem act_of_transportOk {a : Action} {s : State} (ho : s.TransportOk)
    (hd : ∀ bytes, a = .spiWrite bytes → s.lat.dc ≠ .unknown) :
    ∃ events, (effect a s).trace = s.trace ++ events ∧
      act a s = .ok ((effect a s).withAnswers (s.answers.drop events.length)) := by
  have call (a : Action) (c : Call) (f g : State → State) (hf : ∀ x, f (s.withAnswers x) = (f s).withAnswers x)
      (hfa : (f s).answers = s.answers) :
      transportCall a c f g s = .ok ((f s).withAnswers (s.answers.drop 1)) := by
    unfold transportCall
    cases h : s.answers with
    | nil => simpa [h, hfa] using (State.withAnswers_self (f s)).symm
    | cons x rest =>
      obtain rfl : x = .ok := ho x (by simp [h])
      simpa [State.withAnswers] using hf rest
  cases a with
  | gpioOpen p => 
    refine ⟨[.evOpen p], by simp [effect], ?_⟩
    simp only [act, gpioOpen, effect]
    exact call _ _ _ _ (fun x => by cases p <;> rfl) (by simp)
  | gpioWrite p l => 
    refine ⟨[.evWrite p l], by simp [effect], ?_⟩
    simp only [act, gpioWrite, effect]
    exact call _ _ _ _ (fun x => by cases p <;> rfl) (by simp)
  | spiWrite b =>
    cases hdc : s.lat.dc with
    | unknown => exact absurd hdc (hd b rfl)
    | known dc =>
      refine ⟨[.evSpi dc b], by simp [effect, hdc], ?_⟩
      simp only [act, spiWrite, hdc, effect]
      exact call _ _ _ _ (fun x => rfl) rfl
  | sleep ms =>
    refine ⟨[.evSleep ms], by simp [effect], ?_⟩
    simp only [act, sleep, effect]
    cases h : s.answers with
    | nil => simp [State.withAnswers, State.log, h]
    | cons x rest => obtain rfl : x = .ok := ho x (by simp [h]); simp [State.withAnswers, State.log]
  | gpioClose p =>
    refine ⟨[.evClose p], by simp [effect], ?_⟩
    simp only [act, gpioClose, effect]
    exact call _ _ _ _ (fun x => by cases p <;> rfl) (by simp)
  | spiClose =>
    refine ⟨[.evSpiClose], by simp [effect], ?_⟩
    simp only [act, spiClose, effect]
    exact call _ _ _ _ (fun x => rfl) rfl
  | setPhase ph => exact ⟨[], by simp [effect], rfl⟩
  | clearShadow => exact ⟨[], by simp [effect], rfl⟩
  | disarm => exact ⟨[], by simp [effect], rfl⟩
  | setLastCmd op => exact ⟨[], by simp [effect], rfl⟩
  | programWindow w => exact ⟨[], by simp [effect], rfl⟩
  | nextEntry => exact ⟨[], by simp [effect], rfl⟩
  | startStream => exact ⟨[], by simp [effect], rfl⟩

theorem runActions_of_transportOk {acts : List Action} {s : State} (ho : s.TransportOk)
    (hr : dcReady false acts = true) :
    ∃ events, (effects acts s).trace = s.trace ++ events ∧
      runActions acts s = .ok ((effects acts s).withAnswers (s.answers.drop events.length)) := by
  suffices H : ∀ known (acts : List Action) (s : State), s.TransportOk → dcReady known acts = true →
      (known = true → s.lat.dc ≠ .unknown) → ∃ events, (effects acts s).trace = s.trace ++ events ∧
        runActions acts s = .ok ((effects acts s).withAnswers (s.answers.drop events.length)) from
    H false acts s ho hr (by simp)
  intro known acts
  induction acts generalizing known with
  | nil => intro s _ _ _; exact ⟨[], by simp, by simp [runActions]⟩
  | cons a acts ih =>
    intro s ho hr hs
    have hd : ∀ bytes, a = .spiWrite bytes → s.lat.dc ≠ .unknown := by
      rintro bytes rfl
      simp only [dcReady, Bool.and_eq_true] at hr
      exact hs hr.1
    obtain ⟨ev, ht, ha⟩ := act_of_transportOk ho hd
    obtain ⟨k, hk, hs'⟩ := effect_dc_known hr hs
    obtain ⟨ev', ht', ha'⟩ := ih k ((effect a s).withAnswers (s.answers.drop ev.length))
      (fun x hx => ho x (List.mem_of_mem_drop hx)) hk (by simpa using hs')
    refine ⟨ev ++ ev', by simpa [effects_withAnswers, ht] using ht', ?_⟩
    simp [runActions, ha, ha', effects_withAnswers, List.drop_drop]

/-! ## The status of the operation before -/

/-- An effect does not depend on the status. -/
theorem effect_begin (a : Action) (s : State) : effect a s.begin = (effect a s).begin := by
  cases a with
  | gpioOpen p => cases p <;> rfl
  | gpioWrite p l => cases p <;> rfl
  | spiWrite b => simp only [effect, State.begin_lat]; split <;> rfl
  | gpioClose p => cases p <;> rfl
  | _ => rfl

theorem effects_begin (acts : List Action) (s : State) : effects acts s.begin = (effects acts s).begin := by
  induction acts generalizing s with
  | nil => rfl
  | cons a acts ih => rw [effects_cons, effect_begin, ih, effects_cons]

theorem failingCall_begin (a : Action) (s : State) : failingCall a s.begin = failingCall a s := by cases a <;> rfl

theorem failEffect_begin (c : Call) (s : State) : failEffect c s.begin = (failEffect c s).begin := by
  cases c with
  | gpioWrite p l => cases p <;> rfl
  | gpioClose p => cases p <;> rfl
  | _ => rfl

/-- The status an error returns replaces whatever stood there. -/
theorem raiseTransportError_begin (e : Ending) (s : State) : raiseTransportError e s.begin = raiseTransportError e s := by
  cases e <;> rfl

/-! ## The sequences -/

@[simp] theorem dcReady_sendCommandSeq (op : Byte) : dcReady false (sendCommandSeq op) = true := rfl
@[simp] theorem dcReady_sendDataSeq (bytes : List Byte) : dcReady false (sendDataSeq bytes) = true := rfl

theorem dcReady_transactionSeq (op : Byte) (payload : List Byte) :
    dcReady false (transactionSeq op payload) = true := by
  unfold transactionSeq; split <;> rfl

theorem dcReady_resetBodySeq (c : Config) : dcReady false (resetBodySeq c) = true := by
  unfold resetBodySeq; split <;> rfl

theorem dcReady_resetSeq (c : Config) : dcReady false (resetSeq c) = true :=
  dcReady_append (dcReady_resetBodySeq c) rfl

theorem dcReady_tableSeq (t : List (Byte × List Byte)) : dcReady false (tableSeq t) = true :=
  dcReady_flatMap (fun e : Byte × List Byte => dcReady_append (dcReady_transactionSeq e.1 e.2) rfl) t

theorem dcReady_initSeq (c : Config) : dcReady false (initSeq c) = true := by
  unfold initSeq
  simp only [List.append_assoc]
  exact dcReady_append (dcReady_resetBodySeq c)
    (dcReady_append (ys := _) rfl (dcReady_append (dcReady_tableSeq _) rfl))

theorem dcReady_windowSeq (c : Config) (w : Window) : dcReady false (windowSeq c w) = true := rfl

theorem dcReady_streamSeq (c : Config) (n : Nat) (buf : List Byte) : dcReady false (streamSeq c n buf) = true :=
  dcReady_append (dcReady_append (xs := [.startStream]) rfl (dcReady_flatMap dcReady_sendDataSeq _)) rfl

theorem dcReady_releaseSeq (owned : Handles) : dcReady false (releaseSeq owned) = true := by
  rcases owned with ⟨_ | _, _ | _, _ | _, _ | _⟩ <;> rfl

theorem dcReady_frameSeq (c : Config) (buf : List Byte) : dcReady false (frameSeq c buf) = true :=
  dcReady_append (dcReady_windowSeq c _) (dcReady_streamSeq c _ buf)

theorem effects_sendCommandSeq (op : Byte) (s : State) :
    effects (sendCommandSeq op) s =
      { s with
        trace := s.trace ++ commandEvents op, lat := { s.lat with dc := .known .low }
        lastCmd := some op, armed := false } := by
  simp [effects, sendCommandSeq, effect, State.log, State.setLatch, commandEvents]

theorem effects_sendDataSeq (bytes : List Byte) (s : State) :
    effects (sendDataSeq bytes) s =
      { s with trace := s.trace ++ dataEvents bytes, lat := { s.lat with dc := .known .high } } := by
  simp [effects, sendDataSeq, effect, State.log, State.setLatch, dataEvents]

theorem effects_transactionSeq (op : Byte) (payload : List Byte) (s : State) :
    effects (transactionSeq op payload) s =
      { s with
        trace := s.trace ++ entryEvents (op, payload)
        lat := { s.lat with dc := .known (if payload = [] then .low else .high) }
        lastCmd := some op, armed := false } := by
  cases payload <;>
    simp [transactionSeq, effects_append, effects_sendCommandSeq, effects_sendDataSeq, entryEvents]

/-- The whole table: its events in order; the Framer's latch and shadow are whatever the last entry left. -/
theorem effects_tableSeq (t : List (Byte × List Byte)) (s : State) :
    ∃ dc lastCmd armed, effects (tableSeq t) s =
      { s with
        trace := s.trace ++ t.flatMap entryEvents, lat := { s.lat with dc := dc }
        lastCmd := lastCmd, armed := armed } := by
  induction t generalizing s with
  | nil => exact ⟨s.lat.dc, s.lastCmd, s.armed, by simp [tableSeq]⟩
  | cons e t ih =>
    obtain ⟨dc, lc, ar, h⟩ := ih (effects (transactionSeq e.1 e.2) s)
    refine ⟨dc, lc, ar, ?_⟩
    have : tableSeq (e :: t) = transactionSeq e.1 e.2 ++ [.nextEntry] ++ tableSeq t := rfl
    rw [this, effects_append, effects_append]
    simp only [effects_cons, effects_nil, effect]
    rw [h, effects_transactionSeq]
    simp

theorem effects_resetBodySeq (c : Config) (s : State) :
    effects (resetBodySeq c) s =
      { s with
        trace := s.trace ++ pulseEvents c, lat := { s.lat with rst := .known .high }
        phase := .resetting, lastCmd := none, win := none, armed := false } := by
  rcases Nat.eq_zero_or_pos c.tRstPost with h | h
  · simp [resetBodySeq, h, effects, effect, State.log, State.setLatch, State.clearShadow, pulseEvents]
  · simp [resetBodySeq, h, Nat.pos_iff_ne_zero.mp h, effects, effect, State.log, State.setLatch, State.clearShadow,
      pulseEvents]

theorem effects_initSeq (c : Config) (s : State) :
    effects (initSeq c) s =
      { s with
        trace := s.trace ++ initEvents c, lat := { s.lat with rst := .known .high, dc := .known .low }
        phase := .displayOn, lastCmd := some c.opDispon, win := none, armed := false } := by
  simp only [initSeq, effects_append, effects_resetBodySeq]
  obtain ⟨dc, lc, ar, h⟩ := effects_tableSeq c.initTable (effects [.setPhase .configuring]
    { s with
      trace := s.trace ++ pulseEvents c, lat := { s.lat with rst := .known .high }
      phase := .resetting, lastCmd := none, win := none, armed := false })
  rw [h]
  simp [effects_sendCommandSeq, effect, State.log, initEvents]

theorem effects_windowSeq (c : Config) (w : Window) (s : State) :
    effects (windowSeq c w) s =
      { s with
        trace := s.trace ++ windowEvents c w, lat := { s.lat with dc := .known .low }
        lastCmd := some c.opRamwr, win := some w, armed := true } := by
  simp [windowSeq, casetSeq, rasetSeq, effects_append, effects_sendCommandSeq, effects_sendDataSeq, effect,
    windowEvents, commandEvents, dataEvents, bigEndian]

theorem effects_sendAll (bs : List (List Byte)) (s : State) :
    effects (bs.flatMap sendDataSeq) s =
      { s with
        trace := s.trace ++ bs.flatMap dataEvents
        lat := { s.lat with dc := if bs = [] then s.lat.dc else .known .high } } := by
  induction bs generalizing s with
  | nil => simp
  | cons b bs ih => simp [effects_append, effects_sendDataSeq, ih]

theorem effects_streamSeq (c : Config) (n : Nat) (buf : List Byte) (s : State) :
    effects (streamSeq c n buf) s =
      { s with
        trace := s.trace ++ (chunks c.chunkMax n buf).flatMap dataEvents
        lat := { s.lat with dc := if chunks c.chunkMax n buf = [] then s.lat.dc else .known .high }
        armed := false } := by
  simp [streamSeq, effects_append, effects_sendAll, effect]

/-! ## Chunks and frames -/

theorem slices_length (c k : Nat) (buf : List Byte) : (slices c k buf).length = k := by
  induction k generalizing buf with
  | zero => rfl
  | succ k ih => simp [slices, ih]

theorem chunks_length (c n : Nat) (buf : List Byte) : (chunks c n buf).length = chunkCount c n := slices_length _ _ _

theorem solid_length (c : Config) (color : U16) : (solid c color).length = c.frameBytes := by
  simp [solid, bigEndian, Parameters.frameBytes]

end Sys2Proof.Machine
end

