-- ==== Sys2Proof/Laws/Plans.lean ====
section
/-! SUPPORT. When an instruction's plan runs, what it runs; when it ends in an error that changes nothing; and what any
execution that answers a next state can have done. -/

namespace Sys2Proof.Machine

/-- The sequence of an instruction, once it gets past its checks, and how it ends. -/
def bodyOf (s : State) : Instr → Ending × List Action
  | .reset => (.controllerFacing, resetSeq s.cfg)
  | .init => (.controllerFacing, initSeq s.cfg)
  | .clear => (.controllerFacing, frameSeq s.cfg (solid s.cfg s.cfg.clearColor))
  | .fill color => (.controllerFacing, frameSeq s.cfg (solid s.cfg color))
  | .setWindow x y w h => (.controllerFacing, windowSeq s.cfg (windowOf x y w h))
  | .setBacklight level => (.ownEffectOnly, [.gpioWrite .bl (backlightLevel level)])
  | .showImage image => (.controllerFacing, frameSeq s.cfg (convert s.cfg image))
  | .release => (.ownEffectOnly, releaseSeq s.handles)
  | .sendCommand opcode => (.internal, sendCommandSeq opcode)
  | .sendData bytes => (.internal, sendDataSeq bytes)
  | .stream buf => (.internal, streamSeq s.cfg buf.length buf)
  | .caset first last => (.internal, casetSeq s.cfg first last)
  | .raset first last => (.internal, rasetSeq s.cfg first last)
  | .ramwr => (.internal, sendCommandSeq s.cfg.opRamwr)
  | .teon => (.internal, sendCommandSeq s.cfg.opTeon)
  | .invoff => (.internal, sendCommandSeq s.cfg.opInvoff)
  | .slpout => (.internal, sendCommandSeq s.cfg.opSlpout ++ [.sleep s.cfg.tSlpout])
  | .dispon => (.internal, sendCommandSeq s.cfg.opDispon ++ [.sleep s.cfg.tDispon])
  | .initEntry opcode payload => (.internal, transactionSeq opcode payload)
  | .dataByte d => (.internal, sendDataSeq [d])

theorem whenIdle_of_idle {s : State} (h : s.seq = none) (p : Plan) : whenIdle s p = p := by simp [whenIdle, h]

theorem whenLive_of_idle {s : State} (h : s.Idle) (p : Plan) : whenLive s p = p := by
  simp [whenLive, whenIdle, h.1, h.2]

theorem whenIdle_go {s : State} {p : Plan} {o : Ending} {acts : List Action} (h : whenIdle s p = .go o acts) :
    s.seq = none ∧ p = .go o acts := by
  unfold whenIdle at h; split at h
  · cases h
  · rename_i hs; exact ⟨by simpa using hs, h⟩

theorem whenLive_go {s : State} {p : Plan} {o : Ending} {acts : List Action} (h : whenLive s p = .go o acts) :
    s.Idle ∧ p = .go o acts := by
  obtain ⟨h₁, h₂⟩ := whenIdle_go h
  split at h₂
  · exact ⟨⟨h₁, ‹_›⟩, h₂⟩
  · cases h₂

theorem whenDisplayOn_go {s : State} {p : Plan} {o : Ending} {acts : List Action}
    (h : whenDisplayOn s p = .go o acts) : s.phase = .displayOn ∧ p = .go o acts := by
  unfold whenDisplayOn at h; split at h
  · exact ⟨‹_›, h⟩
  · cases h

/-- A plan that runs, runs its instruction's sequence, between operations. -/
theorem planOf_go {i : Instr} {s : State} {o : Ending} {acts : List Action} (h : planOf i s = .go o acts) :
    s.seq = none ∧ bodyOf s i = (o, acts) := by
  cases i with
  | release => obtain ⟨hi, h⟩ := whenIdle_go h; cases h; exact ⟨hi, rfl⟩
  | setWindow x y w e =>
    obtain ⟨hi, h⟩ := whenLive_go h; split at h
    · obtain ⟨-, h⟩ := whenDisplayOn_go h; cases h; exact ⟨hi.1, rfl⟩
    · cases h
  | showImage image =>
    obtain ⟨hi, h⟩ := whenLive_go h; split at h
    · obtain ⟨-, h⟩ := whenDisplayOn_go h; split at h <;> cases h; exact ⟨hi.1, rfl⟩
    · cases h
  | fill color => obtain ⟨hi, h⟩ := whenLive_go h; obtain ⟨-, h⟩ := whenDisplayOn_go h; cases h; exact ⟨hi.1, rfl⟩
  | clear => obtain ⟨hi, h⟩ := whenLive_go h; obtain ⟨-, h⟩ := whenDisplayOn_go h; cases h; exact ⟨hi.1, rfl⟩
  | sendData bytes => obtain ⟨hi, h⟩ := whenLive_go h; split at h <;> cases h; exact ⟨hi.1, rfl⟩
  | initEntry op payload => obtain ⟨hi, h⟩ := whenLive_go h; split at h <;> cases h; exact ⟨hi.1, rfl⟩
  | _ => obtain ⟨hi, h⟩ := whenLive_go h; cases h; exact ⟨hi.1, rfl⟩

/-- The one error that changes nothing is the size check of `show` (R247). -/
theorem planOf_fail {i : Instr} {s : State} {e : Result} (h : planOf i s = .fail e) :
    e = .dimensionMismatchError ∧ ∃ image, i = .showImage image ∧
      (image.width ≠ s.cfg.width ∨ image.height ≠ s.cfg.height) := by
  have hi (p : Plan) (h : whenIdle s p = .fail e) : p = .fail e := by
    unfold whenIdle at h; split at h
    · cases h
    · exact h
  have hl (p : Plan) (h : whenLive s p = .fail e) : p = .fail e := by
    have h' := hi _ h
    split at h'
    · exact h'
    · cases h'
  have hd (p : Plan) (h : whenDisplayOn s p = .fail e) : p = .fail e := by
    unfold whenDisplayOn at h; split at h
    · exact h
    · cases h
  cases i with
  | release => cases hi _ h
  | setWindow x y w e =>
    have h := hl _ h; split at h
    · cases hd _ h
    · cases h
  | showImage image =>
    have h := hl _ h; split at h
    · have h := hd _ h; split at h <;> cases h
    · cases h; exact ⟨rfl, image, rfl, by simp only [not_and_or] at *; assumption⟩
  | fill color => cases hd _ (hl _ h)
  | clear => cases hd _ (hl _ h)
  | sendData bytes => have h := hl _ h; split at h <;> cases h
  | initEntry op payload => have h := hl _ h; split at h <;> cases h
  | _ => cases hl _ h

/-- Every instruction's sequence drives the control line before each bus write. -/
theorem dcReady_bodyOf (s : State) (i : Instr) : dcReady false (bodyOf s i).2 = true := by
  cases i with
  | reset => exact dcReady_resetSeq _
  | init => exact dcReady_initSeq _
  | clear => exact dcReady_frameSeq _ _
  | fill color => exact dcReady_frameSeq _ _
  | showImage image => exact dcReady_frameSeq _ _
  | stream buf => exact dcReady_streamSeq _ _ buf
  | initEntry op payload => exact dcReady_transactionSeq op payload
  | release => exact dcReady_releaseSeq _
  | _ => rfl

/-- What an execution that answers a next state has done: failed the size check; completed its sequence; or completed
the part of it before one failing call. -/
theorem exec_next {i : Instr} {s t : State} (h : exec i s = .next t) :
    ((∃ image, i = .showImage image ∧ (image.width ≠ s.cfg.width ∨ image.height ≠ s.cfg.height)) ∧
      t = s.report .dimensionMismatchError) ∨
    (planOf i s = .go (bodyOf s i).1 (bodyOf s i).2 ∧ s.seq = none ∧
      ∃ n, t = ((effects (bodyOf s i).2 s).begin.withAnswers (s.answers.drop n)).finish (bodyOf s i).1) ∨
    (planOf i s = .go (bodyOf s i).1 (bodyOf s i).2 ∧ s.seq = none ∧
      ∃ before a after c n, (bodyOf s i).2 = before ++ a :: after ∧ failingCall a (effects before s) = some c ∧
        t = raiseTransportError (bodyOf s i).1
          ((failEffect c (effects before s)).withAnswers (s.answers.drop n))) := by
  rw [exec_eq_perform] at h
  rcases perform_next h with ⟨e, hp, rfl⟩ | ⟨o, acts, u, hp, hr, rfl⟩ | ⟨o, acts, u, hp, hr, rfl⟩
  · obtain ⟨rfl, hi⟩ := planOf_fail hp
    exact .inl ⟨hi, rfl⟩
  · obtain ⟨hq, hb⟩ := planOf_go hp
    rcases runActions_cases acts s.begin with ⟨n, h'⟩ | ⟨_, _, _, _, _, _, _, _, h'⟩ | ⟨_, _, _, _, _, _, _, h'⟩ |
      ⟨_, _, _, _, _, _, h'⟩ <;> rw [h'] at hr <;> cases hr
    exact .inr (.inl ⟨by rw [hb]; exact hp, hq, n, by rw [hb, effects_begin]; rfl⟩)
  · obtain ⟨hq, hb⟩ := planOf_go hp
    rcases runActions_cases acts s.begin with ⟨n, h'⟩ | ⟨bf, a, af, c, n, h₁, h₂, -, h'⟩ | ⟨_, _, _, _, _, _, _, h'⟩ |
      ⟨_, _, _, _, _, _, h'⟩ <;> rw [h'] at hr <;> cases hr
    rw [effects_begin, failingCall_begin] at h₂
    refine .inr (.inr ⟨by rw [hb]; exact hp, hq, bf, a, af, c, n, by rw [hb]; exact h₁, h₂, ?_⟩)
    rw [hb, effects_begin, failEffect_begin]
    exact raiseTransportError_begin _ ((failEffect c (effects bf s)).withAnswers _)

/-- A plan that runs completes when every call answers `ok`. -/
theorem exec_of_transportOk {i : Instr} {s : State} {o : Ending} {acts : List Action}
    (hp : planOf i s = .go o acts) (ho : s.TransportOk) :
    ∃ events, (effects acts s).trace = s.trace ++ events ∧
      exec i s = .next (((effects acts s).begin.withAnswers (s.answers.drop events.length)).finish o) := by
  obtain ⟨-, hb⟩ := planOf_go hp
  have hd : dcReady false acts = true := by
    have := dcReady_bodyOf s i
    rwa [hb] at this
  obtain ⟨ev, ht, hr⟩ := runActions_of_transportOk (s := s.begin) ho hd
  rw [effects_begin] at ht hr
  exact ⟨ev, ht, by rw [exec_eq_perform, hp, perform, hr]; rfl⟩

/-- The same where the sequence's events and its final state are known. -/
theorem exec_completes {i : Instr} {s t : State} {o : Ending} {acts : List Action} {events : List Event}
    (hp : planOf i s = .go o acts) (ho : s.TransportOk) (ht : (effects acts s).trace = s.trace ++ events)
    (h : ((effects acts s).begin.withAnswers (s.answers.drop events.length)).finish o = t) : exec i s = .next t := by
  obtain ⟨ev, h₁, h₂⟩ := exec_of_transportOk hp ho
  obtain rfl : ev = events := List.append_cancel_left (h₁.symm.trans ht)
  rw [h₂, h]

/-! ## Construction -/

/-- Construction from the parameters of an accepted instance. -/
theorem construct_toParameters (c : Config) (spi gpio : Bool) (requests : List Request) (answers : List Answer) :
    construct c.toParameters spi gpio requests answers = constructWith c spi gpio requests answers := dif_pos c.wf

/-- Construction from other parameters. -/
theorem construct_of_not_wf {p : Parameters} (h : ¬ p.Wf) (spi gpio : Bool) (requests : List Request)
    (answers : List Answer) : construct p spi gpio requests answers = .refused .parametersNotAdmissible := dif_neg h

end Sys2Proof.Machine
end

