-- ==== Sys2Proof/Laws/Frames.lean ====
section
/-! SUPPORT. What a sequence keeps, what it records and where an answer stops it: an observation that no action of a
sequence changes is unchanged by it, and every event a sequence appends is one that some action of it can record. -/

namespace Sys2Proof.Machine

/-! ## Errors -/

@[simp] theorem raiseTransportError_result (o : Ending) (s : State) :
    (raiseTransportError o s).result = some .transportError := by cases o <;> rfl

@[simp] theorem raiseTransportError_trace (o : Ending) (s : State) : (raiseTransportError o s).trace = s.trace := by
  cases o <;> rfl

@[simp] theorem raiseTransportError_cfg (o : Ending) (s : State) : (raiseTransportError o s).cfg = s.cfg := by
  cases o <;> rfl

@[simp] theorem raiseTransportError_lat (o : Ending) (s : State) : (raiseTransportError o s).lat = s.lat := by
  cases o <;> rfl

@[simp] theorem raiseTransportError_handles (o : Ending) (s : State) :
    (raiseTransportError o s).handles = s.handles := by cases o <;> rfl

@[simp] theorem raiseTransportError_answers (o : Ending) (s : State) :
    (raiseTransportError o s).answers = s.answers := by cases o <;> rfl

/-- A failed call records exactly its failure. -/
theorem failEffect_trace (c : Call) (s : State) : (failEffect c s).trace = s.trace ++ [.evFail c] := by
  cases c <;> simp [failEffect]

/-- An execution that returned `Ok` completed its sequence. -/
theorem exec_ok {i : Instr} {s t : State} (h : exec i s = .next t) (hr : t.result = some .ok) :
    planOf i s = .go (bodyOf s i).1 (bodyOf s i).2 ∧ s.seq = none ∧
      ∃ n, t = ((effects (bodyOf s i).2 s).begin.withAnswers (s.answers.drop n)).finish (bodyOf s i).1 := by
  rcases exec_next h with ⟨-, rfl⟩ | h | ⟨-, -, _, _, _, _, _, _, _, rfl⟩
  · cases hr
  · exact h
  · simp at hr

/-! ## Keeping -/

/-- A property that each action of a sequence keeps is kept by the sequence. -/
theorem effects_keeps {P : State → Prop} {acts : List Action}
    (h : ∀ a ∈ acts, ∀ s, P s → P (effect a s)) {s : State} (hs : P s) : P (effects acts s) := by
  induction acts generalizing s with
  | nil => exact hs
  | cons a acts ih => exact ih (fun b hb => h b (by simp [hb])) (h a (by simp) s hs)

/-- An observation that no action of a sequence changes is unchanged by the sequence. -/
theorem effects_observe {α : Type} (f : State → α) {acts : List Action}
    (h : ∀ a ∈ acts, ∀ s, f (effect a s) = f s) (s : State) : f (effects acts s) = f s := by
  induction acts generalizing s with
  | nil => rfl
  | cons a acts ih => rw [effects_cons, ih (fun b hb => h b (by simp [hb])), h a (by simp)]

/-- An observation that no action of an instruction's sequence changes, completed or failed, and that neither the status
nor the error rule changes, is unchanged by the instruction. -/
theorem exec_observe {α : Type} (f : State → α) {i : Instr} {s t : State} (h : exec i s = .next t)
    (hans : ∀ s x, f (State.withAnswers s x) = f s) (hres : ∀ (s : State) r, f { s with result := r } = f s)
    (hraise : (bodyOf s i).1 ≠ .ownEffectOnly →
      ∀ s : State, f ({ s with phase := .uninitialized }.clearShadow) = f s)
    (hb : ∀ a ∈ (bodyOf s i).2,
      (∀ s, f (effect a s) = f s) ∧ ∀ s c, failingCall a s = some c → f (failEffect c s) = f s) : f t = f s := by
  rcases exec_next h with ⟨-, rfl⟩ | ⟨-, -, n, rfl⟩ | ⟨-, -, before, a, after, c, n, hbd, hc, rfl⟩
  · exact hres _ _
  · have hF : ∀ u : State, f (u.finish (bodyOf s i).1) = f u := by
      intro u; cases (bodyOf s i).1 <;> first | rfl | exact hres _ _
    rw [hF, hans, State.begin, hres, effects_observe f (fun a ha => (hb a ha).1)]
  · have hR : ∀ u, f (raiseTransportError (bodyOf s i).1 u) = f u := by
      intro u
      cases ho : (bodyOf s i).1 with
      | ownEffectOnly => exact hres _ _
      | controllerFacing => exact (hres _ _).trans (hraise (by simp [ho]) u)
      | internal => exact (hres _ _).trans (hraise (by simp [ho]) u)
    rw [hR, hans, (hb a (by simp [hbd])).2 _ _ hc, effects_observe f (fun a ha => (hb a (by simp [hbd, ha])).1)]

/-! ## Recording -/

/-- The events an action can record, completed or failed. -/
def Action.records : Action → Event → Prop
  | .gpioOpen p, e => e = .evOpen p ∨ e = .evFail (.gpioOpen p)
  | .gpioWrite p l, e => e = .evWrite p l ∨ e = .evFail (.gpioWrite p l)
  | .spiWrite bytes, e => ∃ dc, e = .evSpi dc bytes ∨ e = .evFail (.spiWrite dc bytes)
  | .sleep ms, e => e = .evSleep ms
  | .gpioClose p, e => e = .evClose p ∨ e = .evFail (.gpioClose p)
  | .spiClose, e => e = .evSpiClose ∨ e = .evFail .spiClose
  | _, _ => False

/-- A completed sequence appends events of its actions only, none of them a failure. -/
theorem effects_trace (acts : List Action) (s : State) :
    ∃ events, (effects acts s).trace = s.trace ++ events ∧
      ∀ e ∈ events, e.isFail = false ∧ ∃ a ∈ acts, a.records e := by
  induction acts generalizing s with
  | nil => exact ⟨[], by simp⟩
  | cons a acts ih =>
    obtain ⟨e₁, h₁, h₁'⟩ : ∃ events, (effect a s).trace = s.trace ++ events ∧
        ∀ e ∈ events, e.isFail = false ∧ a.records e := by
      cases a <;> simp only [effect] <;> (try split) <;> simp [Action.records, Event.isFail]
    obtain ⟨e₂, h₂, h₂'⟩ := ih (effect a s)
    refine ⟨e₁ ++ e₂, by simp [h₂, h₁], fun e he => ?_⟩
    rcases List.mem_append.1 he with h | h
    · exact ⟨(h₁' e h).1, a, by simp, (h₁' e h).2⟩
    · obtain ⟨hf, b, hb, hr⟩ := h₂' e h
      exact ⟨hf, b, by simp [hb], hr⟩

theorem records_of_failingCall {a : Action} {s : State} {c : Call} (h : failingCall a s = some c) :
    a.records (.evFail c) := by
  cases a <;> simp only [failingCall] at h <;> (try split at h) <;> cases h <;> simp [Action.records]

/-- The event of the call that failed has a place in the completed run too. -/
theorem effect_trace_of_failingCall {a : Action} {s : State} {c : Call} (h : failingCall a s = some c) :
    ∃ e, (effect a s).trace = s.trace ++ [e] := by
  cases a <;> simp only [failingCall] at h <;> (try split at h) <;> cases h <;> simp_all [effect]

/-- Every event an execution appends is one that an action of its sequence records. -/
theorem exec_trace {i : Instr} {s t : State} (h : exec i s = .next t) :
    ∃ events, t.trace = s.trace ++ events ∧ ∀ e ∈ events, ∃ a ∈ (bodyOf s i).2, a.records e := by
  rcases exec_next h with ⟨-, rfl⟩ | ⟨-, -, n, rfl⟩ | ⟨-, -, before, a, after, c, n, hbd, hc, rfl⟩
  · exact ⟨[], by simp⟩
  · obtain ⟨ev, h₁, h₂⟩ := effects_trace (bodyOf s i).2 s
    exact ⟨ev, by simp [h₁], fun e he => (h₂ e he).2⟩
  · obtain ⟨ev, h₁, h₂⟩ := effects_trace before s
    refine ⟨ev ++ [.evFail c], by simp [failEffect_trace, h₁], fun e he => ?_⟩
    rcases List.mem_append.1 he with h | h
    · obtain ⟨-, b, hb, hr⟩ := h₂ e h
      exact ⟨b, by simp [hbd, hb], hr⟩
    · obtain rfl := List.mem_singleton.1 h
      exact ⟨a, by simp [hbd], records_of_failingCall hc⟩

/-! ## Which call takes which answer -/

/-- An action that is no call always completes, takes no answer and records nothing. -/
theorem act_not_call {a : Action} (s : State) (hc : a.isCall = false) :
    act a s = .ok (effect a s) ∧ (effect a s).trace = s.trace := by
  cases a <;> first | exact ⟨rfl, rfl⟩ | cases hc

/-- The event a call records, and that it takes the first answer: it completes, fails or hangs as that answer says. A
delay has no failing call, and completes on `error` too. -/
theorem act_answer {a : Action} {s : State} (hc : a.isCall = true)
    (hd : ∀ bytes, a = .spiWrite bytes → s.lat.dc ≠ .unknown) :
    ∃ e, (effect a s).trace = s.trace ++ [e] ∧
      (s.answers = [] → act a s = .ok (effect a s)) ∧
      (∀ rest, s.answers = .ok :: rest → act a s = .ok ((effect a s).withAnswers rest)) ∧
      (∀ rest, s.answers = .noReturn :: rest → act a s = .stuck (.transportNeverReturns a s)) ∧
      ((∃ ms, e = .evSleep ms) ∧
          (∀ rest, s.answers = .error :: rest → act a s = .ok ((effect a s).withAnswers rest)) ∨
        ∃ c : Call, e = c.completed ∧ failingCall a s = some c ∧
          ∀ rest, s.answers = .error :: rest → act a s = .err ((failEffect c s).withAnswers rest)) := by
  have call {c : Call} {f g : State → State} (hf : ∀ s x, f (State.withAnswers s x) = (f s).withAnswers x)
      (hg : ∀ s x, g ((State.withAnswers s x).log (.evFail c)) = (failEffect c s).withAnswers x) :
      (s.answers = [] → transportCall a c f g s = .ok (f s)) ∧
      (∀ rest, s.answers = .ok :: rest → transportCall a c f g s = .ok ((f s).withAnswers rest)) ∧
      (∀ rest, s.answers = .noReturn :: rest → transportCall a c f g s = .stuck (.transportNeverReturns a s)) ∧
      ∀ rest, s.answers = .error :: rest → transportCall a c f g s = .err ((failEffect c s).withAnswers rest) := by
    refine ⟨fun h => ?_, fun rest h => ?_, fun rest h => ?_, fun rest h => ?_⟩ <;> simp only [transportCall, h]
    · exact congrArg Res.ok (hf s rest)
    · exact congrArg Res.err (hg s rest)
  cases a with
  | gpioOpen p =>
    obtain ⟨h₀, h₁, h₂, h₃⟩ := call (c := .gpioOpen p)
      (f := fun s => ((s.log (.evOpen p)).setOpen p true).setLatch p .unknown) (g := id)
      (fun s x => by cases p <;> rfl) (fun s x => rfl)
    exact ⟨.evOpen p, by simp [effect], h₀, h₁, h₂, .inr ⟨.gpioOpen p, rfl, rfl, h₃⟩⟩
  | gpioWrite p l =>
    obtain ⟨h₀, h₁, h₂, h₃⟩ := call (c := .gpioWrite p l) (f := fun s => (s.log (.evWrite p l)).setLatch p (.known l))
      (g := fun s => s.setLatch p .unknown) (fun s x => by cases p <;> rfl) (fun s x => by cases p <;> rfl)
    exact ⟨.evWrite p l, by simp [effect], h₀, h₁, h₂, .inr ⟨.gpioWrite p l, rfl, rfl, h₃⟩⟩
  | spiWrite bytes =>
    cases hdc : s.lat.dc with
    | unknown => exact absurd hdc (hd bytes rfl)
    | known dc =>
      obtain ⟨h₀, h₁, h₂, h₃⟩ := call (c := .spiWrite dc bytes) (f := fun s => s.log (.evSpi dc bytes)) (g := id)
        (fun s x => rfl) (fun s x => rfl)
      simp only [act, spiWrite, effect, failingCall, hdc]
      exact ⟨.evSpi dc bytes, by simp, h₀, h₁, h₂, .inr ⟨.spiWrite dc bytes, rfl, rfl, h₃⟩⟩
  | sleep ms =>
    refine ⟨.evSleep ms, by simp [effect], fun h => ?_, fun rest h => ?_, fun rest h => ?_,
      .inl ⟨⟨ms, rfl⟩, fun rest h => ?_⟩⟩ <;>
      simp only [act, sleep, h] <;> rfl
  | gpioClose p =>
    obtain ⟨h₀, h₁, h₂, h₃⟩ := call (c := .gpioClose p) (f := fun s => (s.log (.evClose p)).setOpen p false)
      (g := fun s => s.setOpen p false) (fun s x => by cases p <;> rfl) (fun s x => by cases p <;> rfl)
    exact ⟨.evClose p, by simp [effect], h₀, h₁, h₂, .inr ⟨.gpioClose p, rfl, rfl, h₃⟩⟩
  | spiClose =>
    obtain ⟨h₀, h₁, h₂, h₃⟩ := call (c := .spiClose) (f := fun s => (s.log .evSpiClose).setSpiOpen false)
      (g := fun s => s.setSpiOpen false) (fun s x => rfl) (fun s x => rfl)
    exact ⟨.evSpiClose, by simp [effect], h₀, h₁, h₂, .inr ⟨.spiClose, rfl, rfl, h₃⟩⟩
  | _ => cases hc

/-- A ready sequence reaches the call after any calls that all complete: where its error-free effect records `completed`
and then `e`, the run comes to the call that records `e`, with its next answer first. -/
theorem runActions_reaches {known : Bool} {acts : List Action} {s : State} {completed missing : List Event} {e : Event}
    (hr : dcReady known acts = true) (hs : known = true → s.lat.dc ≠ .unknown)
    (ht : (effects acts s).trace = s.trace ++ completed ++ e :: missing) (hc : CallsComplete s.answers completed) :
    ∃ before a after, acts = before ++ a :: after ∧ a.isCall = true ∧
      (∀ bytes, a = .spiWrite bytes → (effects before s).lat.dc ≠ .unknown) ∧
      (effects before s).trace = s.trace ++ completed ∧
      (effect a (effects before s)).trace = s.trace ++ completed ++ [e] ∧
      runActions acts s =
        runActions (a :: after) ((effects before s).withAnswers (s.answers.drop completed.length)) := by
  induction acts generalizing known s completed with
  | nil => simp at ht
  | cons a acts ih =>
    have hd : ∀ bytes, a = .spiWrite bytes → s.lat.dc ≠ .unknown := by
      rintro bytes rfl
      simp only [dcReady, Bool.and_eq_true] at hr
      exact hs hr.1
    obtain ⟨k, hk, hs'⟩ := effect_dc_known hr hs
    rw [effects_cons] at ht
    cases hac : a.isCall with
    | false =>
      obtain ⟨ha, htr⟩ := act_not_call s hac
      obtain ⟨bf, b, af, rfl, h₁, h₂, h₃, h₄, h₅⟩ :=
        ih hk hs' (by rw [ht, htr]) (by rw [effect_answers]; exact hc)
      refine ⟨a :: bf, b, af, rfl, h₁, h₂, by rw [effects_cons, h₃, htr], by rw [effects_cons, h₄, htr], ?_⟩
      rw [runActions, ha]; simpa using h₅
    | true =>
      obtain ⟨x, hx, -, hok, -, hrest⟩ := act_answer hac hd
      obtain ⟨ev, hev, -⟩ := effects_trace acts (effect a s)
      cases completed with
      | nil =>
        have hxe : x :: ev = e :: missing :=
          List.append_cancel_left (as := s.trace) (by rw [hev, hx] at ht; simpa using ht)
        obtain ⟨rfl, -⟩ := List.cons.inj hxe
        exact ⟨[], a, acts, rfl, hac, by simpa using hd, by simp, by simpa using hx, by simp⟩
      | cons e₁ completed =>
        have hxe : x :: ev = e₁ :: (completed ++ e :: missing) :=
          List.append_cancel_left (as := s.trace) (by rw [hev, hx] at ht; simpa using ht)
        obtain ⟨rfl, -⟩ := List.cons.inj hxe
        obtain ⟨rest, hans, ha⟩ : ∃ rest, s.answers.drop 1 = rest ∧ act a s = .ok ((effect a s).withAnswers rest) := by
          have h₀ := hc 0 x rfl
          cases hs₀ : s.answers with
          | nil => simp [hs₀] at h₀
          | cons y ys =>
            refine ⟨ys, rfl, ?_⟩
            rcases h₀ with h₀ | ⟨h₀, ms, rfl⟩ <;> simp only [hs₀, List.getElem?_cons_zero, Option.some.injEq] at h₀ <;>
              subst h₀
            · exact hok ys hs₀
            · rcases hrest with ⟨-, h⟩ | ⟨c, h, -⟩
              · exact h ys hs₀
              · cases c <;> cases h
        obtain ⟨bf, b, af, rfl, h₁, h₂, h₃, h₄, h₅⟩ :=
          ih (s := (effect a s).withAnswers rest) (completed := completed) hk (by simpa using hs')
            (by rw [effects_withAnswers, State.withAnswers_trace, ht]; simp [hx])
            (fun k e he => by
              have := hc (k + 1) e (by simpa using he)
              rw [← hans]; simpa [Nat.add_comm] using this)
        simp only [effects_withAnswers, effect_withAnswers, State.withAnswers_trace, State.withAnswers_lat,
          State.withAnswers_answers, State.withAnswers_withAnswers, hx] at h₂ h₃ h₄ h₅
        refine ⟨a :: bf, b, af, rfl, h₁, h₂, by rw [effects_cons, h₃]; simp, by rw [effects_cons, h₄]; simp, ?_⟩
        rw [show runActions (a :: (bf ++ b :: af)) s = runActions (bf ++ b :: af) ((effect a s).withAnswers rest) by
          rw [runActions, ha]]
        exact h₅.trans (by rw [← hans, List.drop_drop]; simp [Nat.add_comm])

/-- Everything a ready sequence can do, by the answers it gets: it completes; or, after calls that all complete, it comes
to a call that never returns and is stuck there, or to one that fails and ends there. -/
theorem runActions_stops {known : Bool} {acts : List Action} {s : State} (hr : dcReady known acts = true)
    (hs : known = true → s.lat.dc ≠ .unknown) :
    (∃ u, runActions acts s = .ok u) ∨
    ∃ before a after events, acts = before ++ a :: after ∧ a.isCall = true ∧
      (∀ bytes, a = .spiWrite bytes → (effects before s).lat.dc ≠ .unknown) ∧
      (effects before s).trace = s.trace ++ events ∧ CallsComplete s.answers events ∧
      (s.answers[events.length]? = some .noReturn ∧
          runActions acts s =
            .stuck (.transportNeverReturns a ((effects before s).withAnswers (s.answers.drop events.length))) ∨
        s.answers[events.length]? = some .error ∧ ∃ c, failingCall a (effects before s) = some c ∧
          (effect a (effects before s)).trace = s.trace ++ events ++ [c.completed] ∧
          runActions acts s =
            .err ((failEffect c (effects before s)).withAnswers (s.answers.drop (events.length + 1)))) := by
  induction acts generalizing known s with
  | nil => exact .inl ⟨s, rfl⟩
  | cons a acts ih =>
    have hd : ∀ bytes, a = .spiWrite bytes → s.lat.dc ≠ .unknown := by
      rintro bytes rfl
      simp only [dcReady, Bool.and_eq_true] at hr
      exact hs hr.1
    obtain ⟨k, hk, hs'⟩ := effect_dc_known hr hs
    cases hac : a.isCall with
    | false =>
      obtain ⟨ha, htr⟩ := act_not_call s hac
      simp only [runActions, ha]
      rcases ih hk hs' with h | ⟨bf, b, af, ev, rfl, h₁, h₂, h₃, h₄, h₅⟩
      · exact .inl h
      · rw [effect_answers] at h₄ h₅
        rw [htr] at h₃ h₅
        exact .inr ⟨a :: bf, b, af, ev, rfl, h₁, h₂, h₃, h₄, h₅⟩
    | true =>
      obtain ⟨x, hx, hnil, hok, hno, hrest⟩ := act_answer hac hd
      cases hys : s.answers with
      | nil =>
        simp only [runActions, hnil hys]
        rcases ih hk hs' with h | ⟨_, _, _, _, -, -, -, -, -, ⟨h, -⟩ | ⟨h, -⟩⟩
        · exact .inl h
        all_goals simp [hys] at h
      | cons y ys =>
        have outcome : (act a s = .ok ((effect a s).withAnswers ys) ∧ (y = .ok ∨ y = .error ∧ ∃ ms, x = .evSleep ms)) ∨
            (y = .noReturn ∧ act a s = .stuck (.transportNeverReturns a s)) ∨
            (y = .error ∧ ∃ c : Call, x = c.completed ∧ failingCall a s = some c ∧
              act a s = .err ((failEffect c s).withAnswers ys)) := by
          cases y with
          | ok => exact .inl ⟨hok ys hys, .inl rfl⟩
          | noReturn => exact .inr (.inl ⟨rfl, hno ys hys⟩)
          | error =>
            rcases hrest with ⟨hm, h⟩ | ⟨c, hc, hf, h⟩
            · exact .inl ⟨h ys hys, .inr ⟨rfl, hm⟩⟩
            · exact .inr (.inr ⟨rfl, c, hc, hf, h ys hys⟩)
        rcases outcome with ⟨ha, hy⟩ | ⟨rfl, ha⟩ | ⟨rfl, c, hxc, hf, ha⟩ <;> simp only [runActions, ha]
        · rcases ih (s := (effect a s).withAnswers ys) hk (by simpa using hs') with
            h | ⟨bf, b, af, ev, rfl, h₁, h₂, h₃, h₄, h₅⟩
          · exact .inl h
          · simp only [effects_withAnswers, effect_withAnswers, failEffect_withAnswers, failingCall_withAnswers,
              State.withAnswers_trace, State.withAnswers_lat, State.withAnswers_answers,
              State.withAnswers_withAnswers, hx] at h₂ h₃ h₄ h₅
            refine .inr ⟨a :: bf, b, af, x :: ev, rfl, h₁, h₂, by rw [effects_cons, h₃]; simp, ?_, by simpa using h₅⟩
            rintro (_ | n) e he
            · cases he; simpa using hy
            · simpa using h₄ n e (by simpa using he)
        · refine .inr ⟨[], a, acts, [], rfl, hac, by simpa using hd, by simp, by intro n e he; simp at he,
            .inl ⟨by simp, ?_⟩⟩
          rw [effects_nil, List.length_nil, List.drop_zero, ← hys, State.withAnswers_self]
        · exact .inr ⟨[], a, acts, [], rfl, hac, by simpa using hd, by simp, by intro n e he; simp at he,
            .inr ⟨by simp, c, hf, by simp [hx, hxc], by simp⟩⟩

end Sys2Proof.Machine
end

