-- ==== Sys2Proof/Laws/PerInstr.lean ====
section
/-! SUPPORT. Per instruction: the encoding lies in the format of its row of spec/opcode_table.json, and its first word
matches the row's mask and pattern (30_encoding.md rules R92, R94, R96, R100, R107). -/

namespace Sys2Proof.Laws.RowFormat

/-- The encoding of an instruction, under the default opcodes, matches its row. -/
def Statement (i : Instr) : Prop :=
  (encode Config.reference i).format = (rowOf i).format ∧
    ∀ w, headWord (encode Config.reference i) = some w →
      w < 2 ^ (rowOf i).width ∧ w &&& (rowOf i).mask = (rowOf i).pattern

/-- A Command byte has bit 8 clear. -/
theorem command_word (b : Byte) : (tagCommand b).toNat < 2 ^ 9 ∧ (tagCommand b).toNat &&& 0x100 = 0x000 := by
  revert b; decide

/-- A data byte has bit 8 set. -/
theorem data_word (b : Byte) : (tagData b).toNat < 2 ^ 9 ∧ (tagData b).toNat &&& 0x100 = 0x100 := by
  revert b; decide

/-- The first of a run of data bytes, if there is one, has bit 8 set. -/
theorem data_head (bytes : List Byte) (w : Nat) (h : (bytes.map tagData).head?.map BitVec.toNat = some w) :
    w < 2 ^ 9 ∧ w &&& 0x100 = 0x100 := by
  cases bytes with
  | nil => cases h
  | cons b bytes => cases h; exact data_word b

theorem reset : Statement .reset := ⟨rfl, fun _ h => by cases h; decide⟩
theorem init : Statement .init := ⟨rfl, fun _ h => by cases h; decide⟩
theorem clear : Statement .clear := ⟨rfl, fun _ h => by cases h; decide⟩
theorem fill (color : U16) : Statement (.fill color) :=
  ⟨rfl, fun _ h => by cases h; simp only [rowOf]; decide⟩
theorem setWindow (x y w h : U16) : Statement (.setWindow x y w h) :=
  ⟨rfl, fun _ h => by cases h; simp only [rowOf]; decide⟩
theorem setBacklight (level : I32) : Statement (.setBacklight level) :=
  ⟨rfl, fun _ h => by cases h; simp only [rowOf]; decide⟩
theorem showImage (image : Image) : Statement (.showImage image) :=
  ⟨rfl, fun _ h => by cases h; simp only [rowOf]; decide⟩
theorem release : Statement .release := ⟨rfl, fun _ h => by cases h; decide⟩
theorem sendCommand (opcode : Byte) : Statement (.sendCommand opcode) :=
  ⟨rfl, fun _ h => by cases h; exact command_word opcode⟩
theorem sendData (bytes : List Byte) : Statement (.sendData bytes) := ⟨rfl, fun w h => data_head bytes w h⟩
theorem stream (buf : List Byte) : Statement (.stream buf) := ⟨rfl, fun w h => data_head buf w h⟩
theorem caset (first last : U16) : Statement (.caset first last) :=
  ⟨rfl, fun _ h => by cases h; simp only [rowOf]; decide⟩
theorem raset (first last : U16) : Statement (.raset first last) :=
  ⟨rfl, fun _ h => by cases h; simp only [rowOf]; decide⟩
theorem ramwr : Statement .ramwr := ⟨rfl, fun _ h => by cases h; decide⟩
theorem teon : Statement .teon := ⟨rfl, fun _ h => by cases h; decide⟩
theorem invoff : Statement .invoff := ⟨rfl, fun _ h => by cases h; decide⟩
theorem slpout : Statement .slpout := ⟨rfl, fun _ h => by cases h; decide⟩
theorem dispon : Statement .dispon := ⟨rfl, fun _ h => by cases h; decide⟩
theorem initEntry (opcode : Byte) (payload : List Byte) : Statement (.initEntry opcode payload) :=
  ⟨rfl, fun _ h => by cases h; exact command_word opcode⟩
theorem dataByte (d : Byte) : Statement (.dataByte d) := ⟨rfl, fun _ h => by cases h; exact data_word d⟩

end Sys2Proof.Laws.RowFormat
end

