-- ==== Sys2Proof/Laws/Pixels.lean ====
section
/-! SUPPORT. The small lemmas of the pure functions: window operands, the packer as a number, chunks by induction, and
lists of blocks of one size. -/

namespace Sys2Proof.Machine

/-! ## Windows -/

theorem windowFits_iff (x y w h : U16) :
    windowFits x y w h = true ↔ 0 < w.toNat ∧ 0 < h.toNat ∧ x.toNat + w.toNat - 1 ≤ 65535 ∧
      y.toNat + h.toNat - 1 ≤ 65535 := by
  simp [windowFits, lastOf, and_assoc]

/-- The inclusive end of a fitting range, as the 16-bit value that goes on the wire. -/
theorem ofNat_lastOf {start extent last : U16} (h : last.toNat = start.toNat + extent.toNat - 1) :
    BitVec.ofNat 16 (lastOf start extent) = last := by
  apply BitVec.eq_of_toNat_eq; simp [lastOf, ← h]

/-- The full display by its inclusive ends. -/
theorem fullWindow_eq {c : Config} {x1 y1 : U16} (hx : x1.toNat + 1 = c.width) (hy : y1.toNat + 1 = c.height) :
    fullWindow c = ⟨0, x1, 0, y1⟩ := by
  have h₁ : BitVec.ofNat 16 (c.width - 1) = x1 := by apply BitVec.eq_of_toNat_eq; simp [← hx]
  have h₂ : BitVec.ofNat 16 (c.height - 1) = y1 := by apply BitVec.eq_of_toNat_eq; simp [← hy]
  rw [fullWindow, h₁, h₂]

/-! ## Chunks -/

theorem chunkCount_zero {c : Nat} (hc : 1 ≤ c) : chunkCount c 0 = 0 := Nat.div_eq_of_lt (by omega)

/-- One chunk is taken, and the rest is chunked again. -/
theorem chunkCount_pos {c n : Nat} (hc : 1 ≤ c) (h : 1 ≤ n) : chunkCount c n = chunkCount c (n - c) + 1 := by
  unfold chunkCount
  rcases Nat.lt_or_ge n c with h₁ | h₁
  · rw [show n - c = 0 by omega, Nat.div_eq_of_lt_le (k := 1) (by omega) (by omega), Nat.div_eq_of_lt (by omega)]
  · rw [show n + c - 1 = (n - c + c - 1) + c by omega, Nat.add_div_right _ (by omega)]

/-- Induction on a buffer by its chunks. -/
theorem chunks_induction {c : Nat} (hc : 1 ≤ c) {P : List Byte → List (List Byte) → Prop} (nil : P [] [])
    (cons : ∀ buf, buf ≠ [] → P (buf.drop c) (chunks c (buf.drop c).length (buf.drop c)) →
      P buf (buf.take c :: chunks c (buf.drop c).length (buf.drop c))) (buf : List Byte) :
    P buf (chunks c buf.length buf) := by
  generalize hn : buf.length = n
  induction n using Nat.strong_induction_on generalizing buf with
  | _ n ih =>
    rcases Nat.eq_zero_or_pos n with rfl | hp
    · obtain rfl := List.length_eq_zero_iff.1 hn
      simpa [chunks, chunkCount_zero hc, slices] using nil
    · have hne : buf ≠ [] := by rintro rfl; simp at hn; omega
      have e : chunks c n buf = buf.take c :: chunks c (buf.drop c).length (buf.drop c) := by
        simp only [chunks, chunkCount_pos hc hp, slices, List.length_drop, hn]
      have h := ih (n - c) (by omega) (buf.drop c) (by simp [hn])
      rw [e]
      exact cons buf hne (by simpa [List.length_drop, hn] using h)

/-! ## Blocks of one size -/

theorem length_flatMap_of_const {α β : Type} {f : α → List β} {k : Nat} {xs : List α}
    (hf : ∀ x ∈ xs, (f x).length = k) : (xs.flatMap f).length = k * xs.length := by
  induction xs with
  | nil => simp
  | cons x xs ih =>
    rw [List.flatMap_cons, List.length_append, hf x (by simp), ih (fun y hy => hf y (by simp [hy])), List.length_cons,
      Nat.mul_succ, Nat.add_comm]

/-- Element `j` of block `i`. -/
theorem getElem?_flatMap_of_const {α β : Type} {f : α → List β} {k : Nat} {xs : List α}
    (hf : ∀ x ∈ xs, (f x).length = k) (i : Nat) {j : Nat} (hj : j < k) :
    (xs.flatMap f)[k * i + j]? = (xs[i]?).bind fun x => (f x)[j]? := by
  induction xs generalizing i with
  | nil => simp
  | cons x xs ih =>
    have hx := hf x (by simp)
    rw [List.flatMap_cons]
    cases i with
    | zero => rw [List.getElem?_append_left (by omega)]; simp
    | succ i =>
      rw [List.getElem?_append_right (by rw [hx, Nat.mul_succ]; omega),
        show k * (i + 1) + j - (f x).length = k * i + j by rw [hx, Nat.mul_succ]; omega,
        ih (fun y hy => hf y (by simp [hy]))]
      simp

/-- The image port answers inside its size, when it answers for every pixel (R24). -/
theorem getPixel_of_total {image : Image} (ht : image.pixels.length = image.width * image.height) {x y : Nat}
    (hx : x < image.width) (hy : y < image.height) : ∃ p, getPixel image x y = some p := by
  have : y * image.width + x < image.pixels.length := by rw [ht]; nlinarith
  exact ⟨image.pixels[y * image.width + x], by simp [getPixel, hx, hy, this]⟩

end Sys2Proof.Machine
end

