-- ==== Sys2Proof/Laws/Steps.lean ====
section
/-! SUPPORT. What a step can do, said once: one inversion lemma for a step, one for the advance of a running operation,
and the independence of an action from the sequencer position. -/

namespace Sys2Proof.Machine

/-- Everything a step that answers a next state can have done. -/
theorem step_next {s t : State} (h : step s = .next t) :
    (s.seq = none ∧ s.requests = [] ∧ t = s) ∨
    (∃ q rest i, s.seq = none ∧ s.requests = q :: rest ∧ decode s.cfg q = some i ∧
      exec i { s with requests := rest } = .next t) ∨
    (∃ r, s.seq = some r ∧ advance r s = .next t) := by
  unfold step at h
  split at h
  · exact .inr (.inr ⟨_, ‹_›, h⟩)
  · split at h
    · cases h; exact .inl ⟨‹_›, ‹_›, rfl⟩
    · split at h
      · exact .inr (.inl ⟨_, _, _, ‹_›, ‹_›, ‹_›, h⟩)
      · cases h

/-- Everything the advance of a running operation can have done. -/
theorem advance_next {r : Running} {s t : State} (h : advance r s = .next t) :
    (r.rest = [] ∧ t = ({ s with seq := none }).finish r.ending) ∨
    (∃ a rest s', r.rest = a :: rest ∧ act a s = .ok s' ∧
      t = { s' with seq := some { r with done := r.done ++ [a], rest := rest } }) ∨
    (∃ a rest s', r.rest = a :: rest ∧ act a s = .err s' ∧
      t = raiseTransportError r.ending { s' with seq := none }) := by
  unfold advance at h
  split at h
  · cases h; exact .inl ⟨‹_›, rfl⟩
  · split at h
    · cases h; exact .inr (.inl ⟨_, _, _, ‹_›, ‹_›, rfl⟩)
    · cases h; exact .inr (.inr ⟨_, _, _, ‹_›, ‹_›, rfl⟩)
    · cases h

/-- `s` with another sequencer position. -/
def State.withSeq (s : State) (x : Option Running) : State := { s with seq := x }

theorem effect_withSeq (a : Action) (s : State) (x : Option Running) :
    effect a (s.withSeq x) = (effect a s).withSeq x := by
  cases a with
  | gpioOpen p => cases p <;> rfl
  | gpioWrite p l => cases p <;> rfl
  | spiWrite bytes =>
    simp only [effect, show (s.withSeq x).lat = s.lat from rfl]; split <;> rfl
  | gpioClose p => cases p <;> rfl
  | _ => rfl

/-- The phase after an action. -/
theorem effect_phase (a : Action) (s : State) :
    (effect a s).phase = match a with | .setPhase ph => ph | _ => s.phase := by
  cases a <;> simp only [effect] <;> (try split) <;> simp

end Sys2Proof.Machine
end

