-- ==== Sys2Proof/Tests/Slice0.lean ====
section
/-! SUPPORT. Tests: the expected results are the spec's own vectors (95_test_vectors.md, cited by their names) or worked by
hand from the rule cited; and for every statement that has hypotheses a witness that meets them. -/

namespace Sys2Proof.Tests

open Sys2Proof.Machine

/-! ## The instance of program P3 -/

/-- The scaled-down instance of program P3: 4×3, chunks of 7 bytes, an empty table. -/
def tiny : Config :=
  { width := 4, height := 3, chunkMax := 7, tRst := 10, tRstPost := 0, tSlpout := 120, tDispon := 20, initTable := [],
    opCaset := 0x2A, opRaset := 0x2B, opRamwr := 0x2C, opTeon := 0x35, opInvoff := 0x20, opSlpout := 0x11,
    opDispon := 0x29, clearColor := 0x1234, pinRst := 0, pinDc := 1, pinBl := 2, wf := by decide }

/-- A fresh session of that instance (R40). -/
def fresh : State := { State.reset with cfg := tiny }

/-- The state of program P3 after operation 1: events 0 to 17. -/
def ready : State :=
  { fresh with
    phase := .displayOn, lat := ⟨.known .high, .known .low, .unknown⟩, lastCmd := some 0x29
    trace := [.evOpen .rst, .evOpen .dc, .evOpen .bl,
      .evWrite .rst .high, .evSleep 10, .evWrite .rst .low, .evSleep 10, .evWrite .rst .high,
      .evWrite .dc .low, .evSpi .low [0x35], .evWrite .dc .low, .evSpi .low [0x20],
      .evWrite .dc .low, .evSpi .low [0x11], .evSleep 120, .evWrite .dc .low, .evSpi .low [0x29], .evSleep 20] }

/-- `ready` with answers to come, and with an empty trace so that the tests show only what is appended. -/
def answering (answers : List Answer) : State := { ready with trace := [], answers := answers }

/-- A running `setBacklight(1)`. -/
def running : State :=
  { ready with result := none, seq := some ⟨.setBacklight 1, .ownEffectOnly, [], [.gpioWrite .bl .high]⟩ }

/-- The image of program P3. -/
def image : Image :=
  ⟨4, 3, [⟨15, 3, 7⟩, ⟨95, 3, 47⟩, ⟨175, 3, 87⟩, ⟨255, 3, 127⟩,
          ⟨15, 103, 47⟩, ⟨95, 103, 87⟩, ⟨175, 103, 127⟩, ⟨255, 103, 167⟩,
          ⟨15, 203, 87⟩, ⟨95, 203, 127⟩, ⟨175, 203, 167⟩, ⟨255, 203, 207⟩]⟩

/-- What an outcome appended, for a start with an empty trace. -/
def appended : Host.Outcome State Fault Refusal → List Event
  | .next t => t.trace
  | .fault (.transportNeverReturns _ stuck) => stuck.trace
  | _ => []

/-- The next state of an outcome. -/
def nextOf : Host.Outcome State Fault Refusal → Option State
  | .next t => some t
  | _ => none

/-- The fault of an outcome. -/
def faultOf : Host.Outcome State Fault Refusal → Option Fault
  | .fault f => some f
  | _ => none

/-- The refusal of an outcome. -/
def refusalOf : Host.Outcome State Fault Refusal → Option Refusal
  | .refused r => some r
  | _ => none

/-- The status an outcome's operation wrote. -/
def resultOf : Host.Outcome State Fault Refusal → Option Result
  | .next t => t.result
  | _ => none

/-! ## WellFormed: each check refuses an ill-formed term -/

theorem test_wf_zero_width : wellFormed tiny (.setWindow 0 0 0 5) = false := by decide
theorem test_wf_zero_height : wellFormed tiny (.setWindow 0 0 5 0) = false := by decide
/-- W12: `65535 + 2 − 1 > 65535`. -/
theorem test_wf_column_end : wellFormed tiny (.setWindow 65535 0 2 1) = false := by decide
/-- W14. -/
theorem test_wf_row_end : wellFormed tiny (.setWindow 0 2 1 65535) = false := by decide
theorem test_wf_image : wellFormed tiny (.showImage ⟨2, 2, [⟨0, 0, 0⟩]⟩) = false := by decide
theorem test_wf_empty_data : wellFormed tiny (.sendData []) = false := by decide
theorem test_wf_long_payload : wellFormed tiny (.initEntry 0 [1, 2, 3, 4, 5, 6, 7, 8]) = false := by decide
/-- R7 refuses a sleep-out delay below 120, and R96 two equal opcodes. -/
theorem test_wf_config :
    ¬ { tiny.toParameters with tSlpout := 119 }.Wf ∧ ¬ { tiny.toParameters with opRaset := 0x2A }.Wf := by decide
/-- R7, D7: a table payload longer than a chunk, a chunk of no byte, and two equal pins make no instance. -/
theorem test_construct_inadmissible :
    construct { tiny.toParameters with initTable := [(0xB6, [1, 2, 3, 4, 5, 6, 7, 8])] } true true [] [] =
      .refused .parametersNotAdmissible ∧
    construct { tiny.toParameters with chunkMax := 0 } true true [] [] = .refused .parametersNotAdmissible ∧
    construct { tiny.toParameters with pinBl := 1 } true true [] [] = .refused .parametersNotAdmissible := by decide

/-! ## Decoding: words written out from the spec's encodings -/

/-- HOST, R92. -/
theorem test_decode_host :
    decode tiny (.host 0b000 .none) = some .reset ∧ decode tiny (.host 0b001 .none) = some .init ∧
    decode tiny (.host 0b010 .none) = some .clear ∧ decode tiny (.host 0b011 (.color 0xF800)) = some (.fill 0xF800) ∧
    decode tiny (.host 0b100 (.window 1 2 3 4)) = some (.setWindow 1 2 3 4) ∧
    decode tiny (.host 0b101 (.level 1)) = some (.setBacklight 1) ∧
    decode tiny (.host 0b110 (.image image)) = some (.showImage image) ∧
    decode tiny (.host 0b111 .none) = some .release := by decide

/-- A call with the operands of another operation is none (R90). -/
theorem test_decode_host_mismatch :
    decode tiny (.host 0b011 .none) = none ∧ decode tiny (.host 0b000 (.color 0)) = none := by decide

/-- MICRO and MICRO_SEQ, R94: `{0, 0x2C}`; `{1, 0x00} {1, 0xEF}`. -/
theorem test_decode_micro :
    decode tiny (.micro [0b0_0010_1100]) = some (.sendCommand 0x2C) ∧
    decode tiny (.micro [0b1_0000_0000, 0b1_1110_1111]) = some (.sendData [0x00, 0xEF]) ∧
    decode tiny (.microSeq [0b1_0001_0010, 0b1_0011_0100]) = some (.stream [0x12, 0x34]) ∧
    decode tiny (.micro []) = none ∧ decode tiny (.micro [0b0_0010_1100, 0b1_0000_0000]) = none := by decide

/-- WIRE_CMD, R96, R97: the tagged bytes of W2 (95_test_vectors.md section 2.3). -/
theorem test_decode_wire_cmd :
    decode tiny (.wireCmd [0x02A, 0x100, 0x10A, 0x100, 0x127]) = some (.caset 10 39) ∧
    decode tiny (.wireCmd [0x02B, 0x100, 0x114, 0x100, 0x13B]) = some (.raset 20 59) ∧
    decode tiny (.wireCmd [0b0_0010_1100]) = some .ramwr ∧ decode tiny (.wireCmd [0b0_0011_0101]) = some .teon ∧
    decode tiny (.wireCmd [0b0_0010_0000]) = some .invoff ∧ decode tiny (.wireCmd [0b0_0001_0001]) = some .slpout ∧
    decode tiny (.wireCmd [0b0_0010_1001]) = some .dispon ∧
    decode tiny (.wireCmd [0x02A, 0x100, 0x10A, 0x100]) = none := by decide

/-- WIRE_TABLE and WIRE_DATA, R100, R94. -/
theorem test_decode_wire_rest :
    decode tiny (.wireTable [0b0_1110_1111]) = some (.initEntry 0xEF []) ∧
    decode tiny (.wireTable [0b0_1011_0110, 0b1_0000_0000, 0b1_0010_0000]) = some (.initEntry 0xB6 [0x00, 0x20]) ∧
    decode tiny (.wireData [0b1_0000_0101]) = some (.dataByte 0x05) ∧
    decode tiny (.wireData [0b0_0000_0101]) = none := by decide

/-- The placed word is the one that runs. -/
theorem test_fetch_word :
    resultOf (step (fresh.withFetchWord 8 0b000)) = some .ok ∧
    appended (step ((answering []).withFetchWord 16 0x02C)) = [.evWrite .dc .low, .evSpi .low [0x2C]] ∧
    refusalOf (step (fresh.withFetchWord 16 0x200)) = some .notAnOperation := by decide

/-! ## HOST operations -/

/-- I2: from `DisplayOn` back to `Uninitialized`. -/
theorem test_reset_from_display_on :
    nextOf (exec .reset (answering [])) = some { answering [] with
      phase := .uninitialized, lastCmd := none
      trace := [.evWrite .rst .high, .evSleep 10, .evWrite .rst .low, .evSleep 10, .evWrite .rst .high] } := by decide

/-- I4: the second `GpioWrite` answers `error`. -/
theorem test_reset_error :
    nextOf (exec .reset (answering [.ok, .ok, .error])) = some { answering [] with
      phase := .uninitialized, lastCmd := none, lat := ⟨.unknown, .known .low, .unknown⟩
      trace := [.evWrite .rst .high, .evSleep 10, .evFail (.gpioWrite .rst .low)], result := some .transportError } := by
  decide

/-- I5, P3 operation 1. -/
theorem test_init_empty_table : nextOf (exec .init fresh) = some ready := by decide

/-- P1: the wire view of events 4 to 28, with its three-entry table. -/
theorem test_init_table :
    wire (appended (exec .init { answering [] with
      cfg := { tiny with
        initTable := [(0xEF, []), (0x3A, [0x05]), (0xB6, [0x00, 0x20])], wf := by decide } })) =
      [.wRst .high, .wWait 10, .wRst .low, .wWait 10, .wRst .high, .wByte .low 0xEF, .wByte .low 0x3A,
       .wByte .high 0x05, .wByte .low 0xB6, .wByte .high 0x00, .wByte .high 0x20, .wByte .low 0x35, .wByte .low 0x20,
       .wByte .low 0x11, .wWait 120, .wByte .low 0x29, .wWait 20] := by decide

/-- F8 on the small instance: `clear()` streams its colour, high byte first. -/
theorem test_clear :
    (appended (exec .clear (answering []))).drop 16 =
      [.evWrite .dc .high, .evSpi .high [0x34, 0x12, 0x34]] := by decide

/-- F5 on the small instance: a chunk of odd length ends on a high byte and the next starts with the low one. -/
theorem test_fill :
    (appended (exec (.fill 0x1234) (answering []))).drop 10 =
      [.evWrite .dc .high, .evSpi .high [0x12, 0x34, 0x12, 0x34, 0x12, 0x34, 0x12],
       .evWrite .dc .high, .evSpi .high [0x34, 0x12, 0x34, 0x12, 0x34, 0x12, 0x34],
       .evWrite .dc .high, .evSpi .high [0x12, 0x34, 0x12, 0x34, 0x12, 0x34, 0x12],
       .evWrite .dc .high, .evSpi .high [0x34, 0x12, 0x34]] := by decide

/-- F6 and P4 on the small instance: the write of the third chunk fails. -/
theorem test_fill_error :
    nextOf (exec (.fill 0xF800) (answering (List.replicate 15 .ok ++ [.error]))) = some { answering [] with
      phase := .uninitialized, lastCmd := none, lat := ⟨.known .high, .known .high, .unknown⟩
      trace := windowEvents tiny ⟨0, 3, 0, 2⟩ ++
        [.evWrite .dc .high, .evSpi .high [0xF8, 0x00, 0xF8, 0x00, 0xF8, 0x00, 0xF8],
         .evWrite .dc .high, .evSpi .high [0x00, 0xF8, 0x00, 0xF8, 0x00, 0xF8, 0x00],
         .evWrite .dc .high, .evFail (.spiWrite .high [0xF8, 0x00, 0xF8, 0x00, 0xF8, 0x00, 0xF8])]
      result := some .transportError } := by decide

/-- W2. -/
theorem test_set_window :
    nextOf (exec (.setWindow 10 20 30 40) (answering [])) = some { answering [] with
      trace := [.evWrite .dc .low, .evSpi .low [0x2A], .evWrite .dc .high, .evSpi .high [0x00, 0x0A, 0x00, 0x27],
        .evWrite .dc .low, .evSpi .low [0x2B], .evWrite .dc .high, .evSpi .high [0x00, 0x14, 0x00, 0x3B],
        .evWrite .dc .low, .evSpi .low [0x2C]]
      lastCmd := some 0x2C, win := some ⟨10, 39, 20, 59⟩, armed := true } := by decide

/-- W15: the write of the column payload fails. -/
theorem test_set_window_error :
    nextOf (exec (.setWindow 10 20 30 40) (answering [.ok, .ok, .ok, .error])) = some { answering [] with
      trace := [.evWrite .dc .low, .evSpi .low [0x2A], .evWrite .dc .high,
        .evFail (.spiWrite .high [0x00, 0x0A, 0x00, 0x27])]
      lat := ⟨.known .high, .known .high, .unknown⟩
      phase := .uninitialized, lastCmd := none, result := some .transportError } := by decide

/-- B6: a signed comparison; B2. -/
theorem test_set_backlight :
    appended (exec (.setBacklight (-2147483648)) (answering [])) = [.evWrite .bl .low] ∧
    appended (exec (.setBacklight 100) (answering [])) = [.evWrite .bl .high] := by decide

/-- B8: the phase and the shadow are kept. -/
theorem test_set_backlight_error :
    nextOf (exec (.setBacklight 1) (answering [.error])) = some { answering [] with
      trace := [.evFail (.gpioWrite .bl .high)], result := some .transportError } := by decide

/-- P3 operation 2: the four chunks of the converted image. -/
theorem test_show :
    (appended (exec (.showImage image) (answering []))).drop 10 =
      [.evWrite .dc .high, .evSpi .high [0x08, 0x00, 0x58, 0x05, 0xA8, 0x0A, 0xF8],
       .evWrite .dc .high, .evSpi .high [0x0F, 0x0B, 0x25, 0x5B, 0x2A, 0xAB, 0x2F],
       .evWrite .dc .high, .evSpi .high [0xFB, 0x34, 0x0E, 0x4A, 0x5E, 0x4F, 0xAE],
       .evWrite .dc .high, .evSpi .high [0x54, 0xFE, 0x59]] := by decide

/-- S3, S5: the size check comes before the phase. -/
theorem test_show_size :
    resultOf (exec (.showImage ⟨4, 4, []⟩) ready) = some .dimensionMismatchError ∧
    nextOf (exec (.showImage ⟨3, 3, []⟩) fresh) = some { fresh with result := some .dimensionMismatchError } := by decide

/-- L5. -/
theorem test_release :
    nextOf (exec .release (answering [])) = some { answering [] with
      trace := [.evClose .rst, .evClose .dc, .evClose .bl, .evSpiClose]
      handles := ⟨false, false, false, false⟩ } := by decide

/-- L7, L8: the second close fails; the next `release()` closes the other two. -/
theorem test_release_error :
    nextOf (exec .release (answering [.ok, .error])) = some { answering [] with
      trace := [.evClose .rst, .evFail (.gpioClose .dc)]
      handles := ⟨false, false, true, true⟩, result := some .transportError } ∧
    appended (exec .release { answering [] with handles := ⟨false, false, true, true⟩ }) =
      [.evClose .bl, .evSpiClose] := by decide

/-- L1, L2, L3, PR4. -/
theorem test_construct :
    construct tiny.toParameters true true [] [] = .live fresh ∧
    construct tiny.toParameters false true [] [.error] = .failed .configurationError [] ∧
    construct tiny.toParameters true true [] [.ok, .ok, .error] = .failed .transportError
      [.evOpen .rst, .evOpen .dc, .evFail (.gpioOpen .bl), .evClose .dc, .evClose .rst] := by decide

/-! ## The other formats -/

/-- FR10: the Command disarms; "Status written: none" (R121). -/
theorem test_send_command :
    nextOf (exec (.sendCommand 0x2C) { answering [] with armed := true, win := some ⟨0, 1, 0, 1⟩ }) = some { answering [] with
      trace := [.evWrite .dc .low, .evSpi .low [0x2C]], lastCmd := some 0x2C, win := some ⟨0, 1, 0, 1⟩
      result := none } := by decide

/-- FR8: the bus write is not made. -/
theorem test_send_command_error :
    appended (exec (.sendCommand 0x2A) (answering [.error])) = [.evFail (.gpioWrite .dc .low)] := by decide

/-- FR6. -/
theorem test_send_data :
    nextOf (exec (.sendData [0, 0, 0, 0xEF]) (answering [])) = some { answering [] with
      trace := [.evWrite .dc .high, .evSpi .high [0, 0, 0, 0xEF]]
      lat := ⟨.known .high, .known .high, .unknown⟩, result := none } := by decide

/-- CH9: 18 bytes by 7 are 7, 7, 4. -/
theorem test_stream :
    appended (exec (.stream [1, 2, 3, 4, 5, 6, 7, 8, 9, 10, 11, 12, 13, 14, 15, 16, 17, 18]) (answering [])) =
      [.evWrite .dc .high, .evSpi .high [1, 2, 3, 4, 5, 6, 7], .evWrite .dc .high,
       .evSpi .high [8, 9, 10, 11, 12, 13, 14], .evWrite .dc .high, .evSpi .high [15, 16, 17, 18]] := by decide

/-- CH3, CH7: an exact multiple has no empty chunk; an odd size straddles pixels. -/
theorem test_chunks :
    (chunks 8 32 (List.replicate 32 0)).map List.length = [8, 8, 8, 8] ∧
    (chunks 5 32 (List.replicate 32 0)).map List.length = [5, 5, 5, 5, 5, 5, 2] := by decide

/-- W7's column payload. -/
theorem test_caset :
    appended (exec (.caset 256 511) (answering [])) =
      [.evWrite .dc .low, .evSpi .low [0x2A], .evWrite .dc .high, .evSpi .high [0x01, 0x00, 0x01, 0xFF]] := by decide

/-- W7's row payload. -/
theorem test_raset :
    appended (exec (.raset 511 512) (answering [])) =
      [.evWrite .dc .low, .evSpi .low [0x2B], .evWrite .dc .high, .evSpi .high [0x01, 0xFF, 0x02, 0x00]] := by decide

theorem test_ramwr : appended (exec .ramwr (answering [])) = [.evWrite .dc .low, .evSpi .low [0x2C]] := by decide

/-- No data byte after the tearing-effect Command (D6); inversion off is `0x20` (C9). -/
theorem test_teon_invoff :
    appended (exec .teon (answering [])) = [.evWrite .dc .low, .evSpi .low [0x35]] ∧
    appended (exec .invoff (answering [])) = [.evWrite .dc .low, .evSpi .low [0x20]] := by decide

theorem test_slpout :
    appended (exec .slpout (answering [])) = [.evWrite .dc .low, .evSpi .low [0x11], .evSleep 120] := by decide

theorem test_dispon :
    appended (exec .dispon (answering [])) = [.evWrite .dc .low, .evSpi .low [0x29], .evSleep 20] := by decide

/-- P1: the entries `EF` and `B6: 00 20`. -/
theorem test_init_entry :
    appended (exec (.initEntry 0xEF []) (answering [])) = [.evWrite .dc .low, .evSpi .low [0xEF]] ∧
    appended (exec (.initEntry 0xB6 [0x00, 0x20]) (answering [])) =
      [.evWrite .dc .low, .evSpi .low [0xB6], .evWrite .dc .high, .evSpi .high [0x00, 0x20]] := by decide

/-- FR5. -/
theorem test_data_byte :
    appended (exec (.dataByte 0x05) (answering [])) = [.evWrite .dc .high, .evSpi .high [0x05]] := by decide

/-! ## The converter, the codes, the wire view, the position -/

/-- K6, K7, K8, K11, K13. -/
theorem test_pack :
    pack565 0x12 0x34 0x56 = 0x11AA ∧ pack565 7 3 7 = 0 ∧ pack565 8 4 8 = 0x0821 ∧
    pack565 0xAB 0xCD 0xEF = 0xAE7D ∧ pack565 0x7F 0x7F 0x7F = 0x7BEF := by decide

theorem test_unpack : unpack565 0xAE7D = (168, 204, 232) := by decide

/-- R240, R26. -/
theorem test_codes :
    [Result.ok, .configurationError, .dimensionMismatchError, .transportError].map Result.code = [0, 1, 2, 3] ∧
    [Phase.uninitialized, .resetting, .configuring, .sleepingOut, .displayOn].map Phase.code = [0, 1, 2, 3, 4] := by
  decide

/-- The wire view of FR8 and FR6 (95_test_vectors.md section 2.1). -/
theorem test_wire :
    wire [.evFail (.gpioWrite .dc .low)] = [.wUnknown] ∧
    wire [.evWrite .dc .high, .evSpi .high [0, 0, 0, 0xEF]] =
      [.wByte .high 0, .wByte .high 0, .wByte .high 0, .wByte .high 0xEF] := by decide

/-- R19: a call that never returns leaves no event of its own. -/
theorem test_hang :
    faultOf (exec (.sendCommand 0x2A) (answering [.ok, .noReturn])) =
      some (.transportNeverReturns (.spiWrite [0x2A])
        { answering [.noReturn] with
          trace := [.evWrite .dc .low], lat := ⟨.known .high, .known .low, .unknown⟩, result := none }) := by decide

/-- The position after `n` small steps of a started operation. -/
def positionOf (n : Nat) : Host.Outcome State Fault Refusal → Option Running
  | .next s => match ticks n s with | .next t => t.seq | _ => none
  | _ => none

/-- The sample instance with a table of two entries, the first with a payload. -/
def tabled : State :=
  { ready with cfg := { tiny with initTable := [(0xB6, [0x00, 0x20]), (0xEF, [])], wf := by decide } }

/-- R36: `i` is still 0 when entry 0's Command has been sent and its payload is being sent, and 1 after the payload. -/
theorem test_table_index :
    (positionOf 13 (start .init tabled)).map (fun r => (r.tableIndex, r.callIndex)) = some (0, 8) ∧
    (positionOf 15 (start .init tabled)).map (fun r => (r.tableIndex, r.callIndex)) = some (1, 9) := by decide

/-- R36, R199: a `stream` issued by itself of 8 bytes by 7 is at offset 7 after its first chunk and at 8 after its second;
a `fill` is at offset 7 after its first chunk, twelve calls done. -/
theorem test_byte_offset :
    (positionOf 3 (start (.stream [1, 2, 3, 4, 5, 6, 7, 8]) ready)).map Running.byteOffset = some 7 ∧
    (positionOf 5 (start (.stream [1, 2, 3, 4, 5, 6, 7, 8]) ready)).map Running.byteOffset = some 8 ∧
    (positionOf 20 (start (.fill 0) ready)).map (fun r => (r.byteOffset, r.callIndex)) = some (7, 12) := by decide

/-- R36, R228: the handles that are not open are no calls of `release()`. -/
theorem test_release_calls :
    (positionOf 1 (start .release { ready with handles := ⟨false, false, true, true⟩ })).map
      (fun r => (r.callIndex, r.rest)) = some (1, [.spiClose]) := by decide

/-! ## Witnesses: states and operands that meet the hypotheses of each statement that has any -/

/-- A live session in `DisplayOn` with five answers to come. -/
def served : State := answering [.ok, .ok, .ok, .ok, .ok]

/-- A session that is not live: after L7. -/
def halfReleased : State := { answering [] with handles := ⟨false, false, true, true⟩ }

/-- The image of one colour that fits the small instance. -/
def plain : Image := ⟨4, 3, List.replicate 12 ⟨0x12, 0x34, 0x56⟩⟩

/-- The operand ends of the small instance's full window. -/
theorem tiny_ends : (3 : U16).toNat + 1 = tiny.width ∧ (2 : U16).toNat + 1 = tiny.height := by decide

theorem witness_DecodeOfEncode :
    wellFormed tiny (.setWindow 65535 0 1 65535) = true ∧
    wellFormed tiny (.initEntry 0xFF [1, 2, 3, 4, 5, 6, 7]) = true ∧ wellFormed tiny (.sendData [0]) = true ∧
    wellFormed tiny (.showImage image) = true := by decide

theorem witness_EncodeOfDecode :
    decode tiny (.wireCmd [0x02B, 0x100, 0x114, 0x100, 0x13B]) = some (.raset 20 59) := by decide

theorem witness_ConstructSucceeds : ∀ a ∈ [Answer.ok, .ok, .ok, .ok], a = Answer.ok := by decide

theorem witness_ConfigurationErrorOfConstruction :
    (false = false ∨ true = false) ∧ ∃ t, exec .reset ready = .next t := ⟨by decide, _, rfl⟩

theorem witness_ConstructUnwinds : Answer.noReturn ∉ [Answer.error, .ok] := by decide

theorem witness_SendCommandCompletes : served.Idle ∧ served.TransportOk := by decide

theorem witness_SendDataCompletes : served.Idle ∧ served.TransportOk ∧ 1 ≤ [(0x05 : Byte)].length := by decide

theorem witness_FramerFailures : fresh.Idle ∧ 1 ≤ [(0x05 : Byte)].length := by decide

theorem witness_ResetCompletes :
    served.Idle ∧ served.TransportOk ∧ { served with cfg := { tiny with tRstPost := 5, wf := by decide } }.Idle := by decide

theorem witness_InitCompletes : fresh.Idle ∧ fresh.TransportOk := by decide

theorem witness_BareCommandsComplete : served.Idle ∧ served.TransportOk := by decide

theorem witness_RangeTransactionsComplete :
    served.Idle ∧ served.TransportOk ∧ (0x01FF : U16).toNat = (0x01 : Byte).toNat * 256 + (0xFF : Byte).toNat ∧
    (0xFFFF : U16).toNat = (0xFF : Byte).toNat * 256 + (0xFF : Byte).toNat := by decide

theorem witness_InitEntryCompletes :
    served.Idle ∧ served.TransportOk ∧ [(1 : Byte), 2, 3, 4, 5, 6, 7].length ≤ served.cfg.chunkMax ∧
    ([] : List Byte).length ≤ served.cfg.chunkMax := by decide

/-- W5 and W13: both ends at 65535. -/
theorem witness_SetWindowCompletes :
    served.Idle ∧ served.TransportOk ∧ served.phase = .displayOn ∧ 0 < (65535 : U16).toNat ∧ 0 < (1 : U16).toNat ∧
    (65535 : U16).toNat = (1 : U16).toNat + (65535 : U16).toNat - 1 ∧
    (65535 : U16).toNat = (65535 : U16).toNat + (1 : U16).toNat - 1 := by decide

theorem witness_StreamCompletes : served.Idle ∧ served.TransportOk := by decide

theorem witness_FillCompletes :
    served.Idle ∧ served.TransportOk ∧ served.phase = .displayOn ∧
    (3 : U16).toNat + 1 = served.cfg.width ∧ (2 : U16).toNat + 1 = served.cfg.height := by decide

theorem witness_ClearCompletes :
    served.Idle ∧ served.TransportOk ∧ served.phase = .displayOn ∧
    (3 : U16).toNat + 1 = served.cfg.width ∧ (2 : U16).toNat + 1 = served.cfg.height := by decide

/-- The frame of program P3, its bytes as the spec lists them. -/
def frame : List Byte :=
  [0x08, 0x00, 0x58, 0x05, 0xA8, 0x0A, 0xF8, 0x0F, 0x0B, 0x25, 0x5B, 0x2A, 0xAB, 0x2F, 0xFB, 0x34, 0x0E, 0x4A, 0x5E,
   0x4F, 0xAE, 0x54, 0xFE, 0x59]

theorem witness_ShowCompletes :
    (served.Idle ∧ served.TransportOk ∧ served.phase = .displayOn ∧
      image.width = served.cfg.width ∧ image.height = served.cfg.height ∧
      image.pixels.length = image.width * image.height ∧
      (3 : U16).toNat + 1 = served.cfg.width ∧ (2 : U16).toNat + 1 = served.cfg.height ∧
      frame.length = served.cfg.width * served.cfg.height * 2) ∧
    (∀ x y p, x < served.cfg.width → y < served.cfg.height → getPixel image x y = some p →
      frame[2 * (y * served.cfg.width + x)]? = some (hi8 (pack565 p.r p.g p.b)) ∧
      frame[2 * (y * served.cfg.width + x) + 1]? = some (lo8 (pack565 p.r p.g p.b))) := by
  refine ⟨by decide, ?_⟩
  have h : ∀ x < 4, ∀ y < 3, ∀ p ∈ getPixel image x y,
      frame[2 * (y * 4 + x)]? = some (hi8 (pack565 p.r p.g p.b)) ∧
      frame[2 * (y * 4 + x) + 1]? = some (lo8 (pack565 p.r p.g p.b)) := by decide
  exact fun x y p hx hy hp => h x hx y hy p hp

theorem witness_SetBacklightDrivesBl :
    fresh.Idle ∧ fresh.TransportOk ∧ (answering [.error]).Idle ∧ (answering [.error]).answers = .error :: [] ∧
    (Level.high = .high ↔ 0 < (1 : I32).toInt) ∧ (Level.low = .high ↔ 0 < (0 : I32).toInt) ∧
    (Level.low = .high ↔ 0 < (0x80000000 : I32).toInt) ∧ (Level.high = .high ↔ 0 < (0x7FFFFFFF : I32).toInt) := by
  decide

theorem witness_ReleaseCompletes :
    served.seq = none ∧ served.TransportOk ∧ halfReleased.seq = none ∧ halfReleased.TransportOk := by decide

theorem witness_ReleaseFailures : ready.Idle := by decide

theorem witness_ReleaseIsIdempotent : ∃ t, exec .release ready = .next t ∧ t.result = some .ok := ⟨_, rfl, rfl⟩

theorem witness_OutOfTurnIsRefused :
    running.seq ≠ none ∧ halfReleased.seq = none ∧ halfReleased.live = false ∧ Instr.init ≠ .release := by decide

/-- W10, W11, W12, W14, one for each disjunct. -/
theorem witness_WindowConstraintIsRefused :
    fresh.Idle ∧ (0 : U16).toNat = 0 ∧ 65535 < (65535 : U16).toNat + (2 : U16).toNat - 1 ∧
    65535 < (2 : U16).toNat + (65535 : U16).toNat - 1 := by decide

theorem witness_PixelBeforeDisplayOnIsRefused :
    fresh.Idle ∧ fresh.phase ≠ .displayOn ∧ image.width = fresh.cfg.width ∧ image.height = fresh.cfg.height ∧
    0 < (1 : U16).toNat ∧ (65535 : U16).toNat + (1 : U16).toNat - 1 ≤ 65535 := by decide

/-- S3 and S5. -/
theorem witness_ShowSizeMismatch :
    (ready.Idle ∧ (4 ≠ ready.cfg.width ∨ 4 ≠ ready.cfg.height)) ∧
    (fresh.Idle ∧ (3 ≠ fresh.cfg.width ∨ 3 ≠ fresh.cfg.height)) := by decide

theorem witness_IllFormedOperandsAreRefused :
    ready.Idle ∧ ready.cfg.chunkMax < [(1 : Byte), 2, 3, 4, 5, 6, 7, 8].length ∧
    4 = ready.cfg.width ∧ 3 = ready.cfg.height ∧ ready.phase = .displayOn ∧ ([] : List Rgb).length ≠ 4 * 3 := by decide

/-- The second clause of the statement: channels in order. -/
theorem witness_PackTruncates : (7 : Byte) ≤ 8 ∧ (3 : Byte) ≤ 4 ∧ (0 : Byte) ≤ 255 := by decide

theorem witness_ChunksPartitionTheBuffer : 1 ≤ tiny.chunkMax := by decide

theorem witness_FrameLayout :
    image.width = tiny.width ∧ image.height = tiny.height ∧ image.pixels.length = image.width * image.height ∧
    3 < tiny.width ∧ 2 < tiny.height := by decide

theorem witness_ShowOfUniformImageIsFill :
    plain.width = ready.cfg.width ∧ plain.height = ready.cfg.height ∧
    plain.pixels = List.replicate (plain.width * plain.height) ⟨0x12, 0x34, 0x56⟩ := by decide

theorem witness_FrameByteTotals :
    (∃ t, exec (.fill 0xF800) ready = .next t ∧ t.result = some .ok) ∧
    (∃ t, exec .clear ready = .next t ∧ t.result = some .ok) ∧
    (∃ t, exec (.showImage image) ready = .next t ∧ t.result = some .ok) :=
  ⟨⟨_, rfl, rfl⟩, ⟨_, rfl, rfl⟩, ⟨_, rfl, rfl⟩⟩

theorem witness_WireViewOfFill :
    (3 : U16).toNat + 1 = ready.cfg.width ∧ (2 : U16).toNat + 1 = ready.cfg.height ∧
    ∃ t, exec (.fill 0xF800) ready = .next t ∧ t.result = some .ok := ⟨by decide, by decide, _, rfl, rfl⟩

theorem witness_InitCounts : ∃ t, exec .init fresh = .next t ∧ t.result = some .ok := ⟨_, rfl, rfl⟩

theorem witness_TransportErrorState :
    (∃ t, exec .ramwr (answering [.error]) = .next t ∧ t.result = some .transportError) ∧
    (∃ t, exec (.setBacklight 1) (answering [.error]) = .next t ∧ t.result = some .transportError) ∧
    (∃ t, exec .release (answering [.error]) = .next t ∧ t.result = some .transportError) :=
  ⟨⟨_, rfl, rfl⟩, ⟨_, rfl, rfl⟩, ⟨_, rfl, rfl⟩⟩

/-- The first clause; and the second at the first call, after a completed call, and after a delay answered `error`. -/
theorem witness_ErrorsArePrecise :
    (∃ t, exec (.fill 0xF800) (answering (List.replicate 15 .ok ++ [.error])) = .next t ∧
      t.result = some .transportError) ∧
    (∀ p ∈ [(Instr.clear, [Answer.error], ([] : List Event), Call.gpioWrite .dc .low),
        (.sendCommand 0x2A, [.ok, .error], [.evWrite .dc .low], .spiWrite .low [0x2A]),
        (.reset, [.ok, .error, .error], [.evWrite .rst .high, .evSleep 10], .gpioWrite .rst .low)],
      (∃ missing u, exec p.1 { answering p.2.1 with answers := [] } = .next u ∧
        u.trace = (answering p.2.1).trace ++ p.2.2.1 ++ p.2.2.2.completed :: missing) ∧
      CallsComplete p.2.1 p.2.2.1 ∧ p.2.1[p.2.2.1.length]? = some .error) := by
  refine ⟨⟨_, rfl, rfl⟩, ?_⟩
  simp only [List.forall_mem_cons]
  refine ⟨⟨⟨_, _, rfl, rfl⟩, ?_, rfl⟩, ⟨⟨_, _, rfl, rfl⟩, ?_, rfl⟩, ⟨⟨_, _, rfl, rfl⟩, ?_, rfl⟩, by simp⟩
  · intro k e h; simp at h
  · rintro (_ | k) e h <;> simp at h ⊢
  · rintro (_ | _ | k) e h <;> simp at h ⊢; exact ⟨_, h.symm⟩

theorem witness_ResultsByOperation :
    (∃ t, exec (.showImage ⟨3, 3, []⟩) fresh = .next t) ∧ (encode fresh.cfg (.showImage ⟨3, 3, []⟩)).format = .host ∧
    (∃ t, exec .teon fresh = .next t) ∧ (encode fresh.cfg .teon).format ≠ .host :=
  ⟨⟨_, rfl⟩, rfl, ⟨_, rfl⟩, by decide⟩

/-- The first clause; and the second at the first call and after a completed one. -/
theorem witness_OnlyHangsStop :
    (∃ f, exec (.sendCommand 0x2A) (answering [.ok, .noReturn]) = .fault f) ∧
    (∀ p ∈ [(Instr.setBacklight 1, [Answer.noReturn], ([] : List Event)),
        (.sendCommand 0x2A, [.ok, .noReturn], [.evWrite .dc .low])],
      (∃ e missing u, exec p.1 { answering p.2.1 with answers := [] } = .next u ∧
        u.trace = (answering p.2.1).trace ++ p.2.2 ++ e :: missing) ∧
      CallsComplete p.2.1 p.2.2 ∧ p.2.1[p.2.2.length]? = some .noReturn) := by
  refine ⟨⟨_, rfl⟩, ?_⟩
  simp only [List.forall_mem_cons]
  refine ⟨⟨⟨_, _, _, rfl, rfl⟩, ?_, rfl⟩, ⟨⟨_, _, _, rfl, rfl⟩, ?_, rfl⟩, by simp⟩
  · intro k e h; simp at h
  · rintro (_ | k) e h <;> simp at h ⊢

/-- In `DisplayOn`; in `Uninitialized`, for an operation that does not need `DisplayOn`; and `release()` on a session that
is not live. -/
theorem witness_LiveTransportCompletes :
    ((answering [.ok, .error]).seq = none ∧ (answering [.ok, .error]).TransportLive ∧
      wellFormed tiny (.setWindow 0 0 1 1) = true ∧ (answering [.ok, .error]).live = true ∧
      (answering [.ok, .error]).phase = .displayOn) ∧
    (fresh.seq = none ∧ fresh.TransportLive ∧ wellFormed fresh.cfg (.sendData [0]) = true ∧ fresh.live = true ∧
      fresh.phase = .uninitialized ∧ ¬ NeedsDisplayOn (.sendData [0])) ∧
    (halfReleased.seq = none ∧ halfReleased.TransportLive ∧ halfReleased.live = false ∧ ¬ NeedsDisplayOn .release) := by
  refine ⟨by decide, ⟨by decide, by decide, by decide, by decide, by decide, ?_⟩, by decide, by decide, by decide, ?_⟩ <;>
    simp [NeedsDisplayOn]

theorem witness_FrameOfEveryOperation : ∃ t, exec .teon served = .next t := ⟨_, rfl⟩

theorem witness_PinFrames :
    (∃ t, exec (.caset 0 3) served = .next t) ∧ (∃ t, exec .release served = .next t) := ⟨⟨_, rfl⟩, ⟨_, rfl⟩⟩

theorem witness_PhaseAndShadowFrames :
    (∃ t, exec .invoff served = .next t ∧ t.result ≠ some .transportError) ∧
    (∃ t, exec (.setBacklight 1) served = .next t ∧ t.result ≠ some .transportError) :=
  ⟨⟨_, rfl, by decide⟩, ⟨_, rfl, by decide⟩⟩

theorem witness_PinOwnership :
    (∃ t, exec .reset served = .next t) ∧ (∃ t, exec (.setBacklight 0) served = .next t) := ⟨⟨_, rfl⟩, ⟨_, rfl⟩⟩

theorem witness_StepRunsTheRequest :
    ready.seq = none ∧ decode ready.cfg (.host 0b011 (.color 0xF800)) = some (.fill 0xF800) ∧
    decode ready.cfg (.host 0b011 .none) = none ∧ ready.requests = [] ∧
    { ready with requests := [.host 0b011 (.color 0xF800)] }.requests = .host 0b011 (.color 0xF800) :: [] := by decide

theorem witness_TraceOnlyGrows :
    (∃ t, step { ready with requests := [.host 0b011 (.color 0xF800)] } = .next t) ∧ (∃ t, step running = .next t) :=
  ⟨⟨_, rfl⟩, ⟨_, rfl⟩⟩

/-- Three requests from a fresh session, and the step that runs the first. -/
theorem witness_StepKeepsSessionInv :
    SessionInv { fresh with requests := [.host 0b001 .none, .host 0b011 (.color 0), .host 0b111 .none] } ∧
    ∃ t, step { fresh with requests := [.host 0b001 .none, .host 0b011 (.color 0), .host 0b111 .none] } = .next t := by
  refine ⟨⟨rfl, by decide, .inl rfl, ?_, fun h => by cases h⟩, _, rfl⟩
  intro before after dc bytes h
  have hm : Event.evSpi dc bytes ∈ [Event.evOpen .rst, .evOpen .dc, .evOpen .bl] := by
    rw [show [Event.evOpen .rst, .evOpen .dc, .evOpen .bl] = before ++ .evSpi dc bytes :: after from h]; simp
  simp at hm

/-- The state after `init()`, and a running operation with its next small step. -/
theorem witness_StepKeepsPinsFollowTrace :
    PinsFollowTrace ready ∧ PinsFollowTrace running ∧ ∃ t, step running = .next t :=
  ⟨⟨fun p => by cases p <;> decide, fun p => by cases p <;> decide, by decide⟩,
   ⟨fun p => by cases p <;> decide, fun p => by cases p <;> decide, by decide⟩, _, rfl⟩

theorem witness_StepKeepsClosedOnce :
    ClosedOnce { ready with requests := [.host 0b111 .none], answers := [.ok, .error] } ∧
    ∃ t, step { ready with requests := [.host 0b111 .none], answers := [.ok, .error] } = .next t :=
  ⟨⟨rfl, fun p => by cases p <;> decide, by decide⟩, _, rfl⟩

theorem witness_LastCommandFollowsTrace :
    ready.lastCmd = lastCmdOf ready.trace ∧ ∃ t, exec (.fill 0) ready = .next t := ⟨by decide, _, rfl⟩

/-- One witness for each outcome: a next state, a refusal, a hang in both views. -/
theorem witness_SmallStepsAgree :
    (answering [.ok, .ok, .ok, .error]).seq = none ∧
    (∃ t, exec (.setWindow 10 20 30 40) (answering [.ok, .ok, .ok, .error]) = .next t) ∧
    fresh.seq = none ∧ exec (.fill 0) fresh = .refused .pixelBeforeDisplayOn ∧
    (answering [.ok, .noReturn]).seq = none ∧
    (∃ f, exec (.sendCommand 0x2A) (answering [.ok, .noReturn]) = .fault f) ∧
    ∃ s₁ u f', start (.sendCommand 0x2A) (answering [.ok, .noReturn]) = .next s₁ ∧ ticks 2 s₁ = .next u ∧
      u.seq ≠ none ∧ step u = .fault f' :=
  ⟨rfl, ⟨_, rfl⟩, rfl, rfl, rfl, ⟨_, rfl⟩, _, _, _, rfl, rfl, by decide, rfl⟩

/-- The phases before and after small step number `n` of a started operation, and the last event then recorded. -/
def moveOf (n : Nat) : Host.Outcome State Fault Refusal → Option (Phase × Phase × Option Event)
  | .next s₁ =>
    match ticks n s₁ with
    | .next t => match t.seq, step t with
      | some _, .next u => some (t.phase, u.phase, u.trace.getLast?)
      | _, _ => none
    | _ => none
  | _ => none

/-- One witness for each row of the table that happens inside an operation. -/
theorem witness_PhaseMovesByTheTable :
    fresh.seq = none ∧ (answering [.error]).seq = none ∧
    moveOf 0 (start .init fresh) = some (.uninitialized, .resetting, some (.evOpen .bl)) ∧
    moveOf 7 (start .init fresh) = some (.resetting, .configuring, some (.evWrite .rst .high)) ∧
    moveOf 20 (start .init fresh) = some (.configuring, .sleepingOut, some (.evSpi .low [0x11])) ∧
    moveOf 27 (start .init fresh) = some (.sleepingOut, .displayOn, some (.evSleep 20)) ∧
    moveOf 7 (start .reset fresh) = some (.resetting, .uninitialized, some (.evWrite .rst .high)) ∧
    moveOf 2 (start .init (answering [.error])) =
      some (.resetting, .uninitialized, some (.evFail (.gpioWrite .rst .high))) ∧
    moveOf 1 (start (.setWindow 0 0 1 1) (answering [.error])) =
      some (.displayOn, .uninitialized, some (.evFail (.gpioWrite .dc .low))) :=
  ⟨rfl, rfl, rfl, rfl, rfl, rfl, rfl, rfl, rfl⟩

/-- The position after the first chunk of a `fill`, and of a `stream` issued by itself. -/
theorem witness_PositionBounds :
    ready.seq = none ∧
    (∃ s₁ t r, start (.fill 0) ready = .next s₁ ∧ ticks 20 s₁ = .next t ∧ t.seq = some r ∧ r.byteOffset = 7) ∧
    ∃ s₁ t r, start (.stream [1, 2, 3, 4, 5, 6, 7, 8]) ready = .next s₁ ∧ ticks 3 s₁ = .next t ∧ t.seq = some r ∧
      r.byteOffset = 7 :=
  ⟨rfl, ⟨_, _, _, rfl, rfl, rfl, by decide⟩, _, _, _, rfl, rfl, rfl, by decide⟩

theorem witness_InadmissibleParametersAreRefused :
    ¬ { tiny.toParameters with chunkMax := 0 }.Wf ∧ ∃ s, construct tiny.toParameters true true [] [] = .live s :=
  ⟨by decide, _, rfl⟩

end Sys2Proof.Tests
end

section
/-! PROOF. The trace only grows (10_state.md rule R32): each action appends its events, a failed call appends its
failure, and neither the status nor the error rule touches the trace. -/

namespace Sys2Proof.Machine

/-- A completed action has its effect, and takes some of the answers. -/
theorem eq_effect_of_act_ok {a : Action} {s t : State} (h : act a s = .ok t) :
    ∃ n, t = (effect a s).withAnswers (s.answers.drop n) := by
  rcases act_cases a s with ⟨n, h'⟩ | ⟨_, _, _, _, h'⟩ | ⟨_, _, h'⟩ | ⟨_, _, h'⟩ <;> rw [h'] at h <;> cases h
  exact ⟨n, rfl⟩

/-- A failed action has the effect of its failing call, and takes some of the answers. -/
theorem eq_failEffect_of_act_err {a : Action} {s t : State} (h : act a s = .err t) :
    ∃ c n, failingCall a s = some c ∧ t = (failEffect c s).withAnswers (s.answers.drop n) := by
  rcases act_cases a s with ⟨_, h'⟩ | ⟨c, n, hc, _, h'⟩ | ⟨_, _, h'⟩ | ⟨_, _, h'⟩ <;> rw [h'] at h <;> cases h
  exact ⟨c, n, hc, rfl⟩

theorem effect_trace_prefix (a : Action) (s : State) : s.trace <+: (effect a s).trace := by
  obtain ⟨events, h, -⟩ := effects_trace [a] s
  exact ⟨events, h.symm⟩

theorem failEffect_trace_prefix (c : Call) (s : State) : s.trace <+: (failEffect c s).trace :=
  ⟨[.evFail c], (failEffect_trace c s).symm⟩

/-- One small step of a running operation extends the trace. -/
theorem advance_trace_prefix {r : Running} {s t : State} (h : advance r s = .next t) : s.trace <+: t.trace := by
  rcases advance_next h with ⟨-, rfl⟩ | ⟨a, _, s', -, ha, rfl⟩ | ⟨a, _, s', -, ha, rfl⟩
  · simp
  · obtain ⟨n, rfl⟩ := eq_effect_of_act_ok ha
    exact effect_trace_prefix a s
  · obtain ⟨c, n, -, rfl⟩ := eq_failEffect_of_act_err ha
    simpa using failEffect_trace_prefix c s

/-- An operation executed as one big step extends the trace. -/
theorem exec_trace_prefix {i : Instr} {s t : State} (h : exec i s = .next t) : s.trace <+: t.trace := by
  obtain ⟨events, ht, -⟩ := exec_trace h
  exact ⟨events, ht.symm⟩

/-- Settles O52, by the three things a step can do: wait, execute the next request, advance the running operation. -/
theorem traceOnlyGrows : Obligations.TraceOnlyGrows := by
  intro s t h
  rcases step_next h with ⟨-, -, rfl⟩ | ⟨_, rest, i, -, -, -, he⟩ | ⟨r, -, ha⟩
  · exact List.prefix_rfl
  · exact exec_trace_prefix (s := { s with requests := rest }) he
  · exact advance_trace_prefix ha

end Sys2Proof.Machine
end

section
/-! PROOF. The layout of a frame buffer (R69, R196, R197): a buffer is a sequence of blocks of one size, a row of a
converted image `2 × WIDTH` bytes and a pixel two bytes, so that a byte's place tells its block. -/

namespace Sys2Proof.Machine

@[simp] theorem length_bigEndian (v : U16) : (bigEndian v).length = 2 := rfl

/-! ## The solid frame (R197) -/

/-- Byte `j` of pixel `i` of a solid frame is byte `j` of its colour. -/
theorem solid_getElem? (c : Config) (color : U16) {i j : Nat} (hi : i < c.width * c.height) (hj : j < 2) :
    (solid c color)[2 * i + j]? = (bigEndian color)[j]? := by
  have hblock : ∀ block ∈ List.replicate (c.width * c.height) (bigEndian color), (id block).length = 2 := by
    intro block hm
    rw [List.eq_of_mem_replicate hm]; rfl
  rw [solid, ← List.flatMap_id, getElem?_flatMap_of_const hblock i hj, List.getElem?_replicate_of_lt hi]
  rfl

/-! ## The converted image (R196) -/

theorem pixelBytes_of_getPixel {image : Image} {x y : Nat} {p : Rgb} (h : getPixel image x y = some p) :
    pixelBytes image x y = bigEndian (pack565 p.r p.g p.b) := by
  simp [pixelBytes, h]

section
variable {c : Config} {image : Image} (hw : image.width = c.width) (hh : image.height = c.height)
  (ht : image.pixels.length = image.width * image.height)
include hw hh ht

/-- Every pixel of the display takes two bytes. -/
theorem length_pixelBytes {x y : Nat} (hx : x < c.width) (hy : y < c.height) : (pixelBytes image x y).length = 2 := by
  obtain ⟨p, hp⟩ := getPixel_of_total ht (hw ▸ hx) (hh ▸ hy)
  rw [pixelBytes_of_getPixel hp, length_bigEndian]

/-- Every row of the display takes `2 × WIDTH` bytes. -/
theorem length_pixelRow {y : Nat} (hy : y < c.height) :
    ((List.range c.width).flatMap fun x => pixelBytes image x y).length = 2 * c.width := by
  rw [length_flatMap_of_const fun x hx => length_pixelBytes hw hh ht (List.mem_range.1 hx) hy, List.length_range]

theorem convert_length : (convert c image).length = c.frameBytes := by
  rw [convert, length_flatMap_of_const fun y hy => length_pixelRow hw hh ht (List.mem_range.1 hy), List.length_range,
    Parameters.frameBytes, Nat.mul_assoc, Nat.mul_comm]

/-- Byte `j` of the pixel `(x, y)`: the byte lies in block `y` of the rows, and there in block `x` of the pixels. -/
theorem convert_getElem? {x y j : Nat} (hx : x < c.width) (hy : y < c.height) (hj : j < 2) :
    (convert c image)[2 * (y * c.width + x) + j]? = (pixelBytes image x y)[j]? := by
  have hplace : 2 * (y * c.width + x) + j = 2 * c.width * y + (2 * x + j) := by ring
  rw [hplace, convert,
    getElem?_flatMap_of_const (fun y hy => length_pixelRow hw hh ht (List.mem_range.1 hy)) y (by omega),
    List.getElem?_range hy, Option.bind_some,
    getElem?_flatMap_of_const (fun x hx => length_pixelBytes hw hh ht (List.mem_range.1 hx) hy) x hj,
    List.getElem?_range hx, Option.bind_some]

end

/-- Settles O37, by the place of a byte in its block: the rows and pixels of an image, the copies of a colour. -/
theorem frameLayout : Obligations.FrameLayout := by
  intro c image color hw hh ht
  refine ⟨convert_length hw hh ht, solid_length c color, fun x y hx hy => ?_⟩
  have hconvert {j : Nat} (hj : j < 2) := convert_getElem? hw hh ht hx hy hj
  have hi : y * c.width + x < c.width * c.height := by
    simpa only [Nat.mul_comm] using Nat.mul_add_lt_mul_of_lt_of_lt hy hx
  have hsolid {j : Nat} (hj : j < 2) := solid_getElem? c color hi hj
  obtain ⟨p, hp⟩ := getPixel_of_total ht (hw ▸ hx) (hh ▸ hy)
  rw [pixelBytes_of_getPixel hp] at hconvert
  exact ⟨⟨p, hp, hconvert Nat.zero_lt_two, hconvert Nat.one_lt_two⟩,
    hsolid Nat.zero_lt_two, hsolid Nat.one_lt_two⟩

end Sys2Proof.Machine
end

section
/-! PROOF. The colour converter (R185 to R188): a packed colour is the top bits of its three channels side by side, so
that unpacking finds each of them again, with zeros below it. -/

namespace Sys2Proof.Machine

/-- R186, R187: red in bits 15..11, green in bits 10..5, blue in bits 4..0. -/
theorem pack565_eq_append (r g b : Byte) :
    pack565 r g b = r.extractLsb' 3 5 ++ g.extractLsb' 2 6 ++ b.extractLsb' 3 5 := by
  refine BitVec.eq_of_getLsbD_eq fun i hi => ?_
  simp only [BitVec.getLsbD_append]
  interval_cases i <;> simp [pack565]

theorem unpack565_append (x : BitVec 5) (y : BitVec 6) (z : BitVec 5) :
    unpack565 (x ++ y ++ z) = (x.setWidth 8 <<< 3, y.setWidth 8 <<< 2, z.setWidth 8 <<< 3) := by
  have hx : (x ++ y ++ z).extractLsb' 11 5 = x :=
    (BitVec.extractLsb'_append_eq_of_le (by decide)).trans BitVec.extractLsb'_append_eq_left
  have hy : (x ++ y ++ z).extractLsb' 5 6 = y :=
    (BitVec.extractLsb'_append_eq_of_le (by decide)).trans BitVec.extractLsb'_append_eq_right
  have hz : (x ++ y ++ z).extractLsb' 0 5 = z := BitVec.extractLsb'_append_eq_right
  rw [unpack565, hx, hy, hz]

/-- Taking the bits from `n` on and shifting them back to their place masks off the `n` low bits. -/
theorem extractLsb'_shiftLeft_eq_and {w : Nat} (x : BitVec w) (n : Nat) :
    (x.extractLsb' n (w - n)).setWidth w <<< n = x &&& (BitVec.allOnes w <<< n) := by
  ext i hi
  by_cases hin : i < n
  · simp [hin]
  · have hplace : n + (i - n) = i := by omega
    have hlen : i - n < w - n := by omega
    simp [hin, hplace, hlen, BitVec.getLsbD_eq_getElem hi]

/-- Settles O33, by the three fields of a packed colour: each is its channel without the masked low bits. -/
theorem unpackOfPack : Obligations.UnpackOfPack := by
  intro r g b
  have hr : (r.extractLsb' 3 5).setWidth 8 <<< 3 = r &&& 0xF8#8 := extractLsb'_shiftLeft_eq_and r 3
  have hg : (g.extractLsb' 2 6).setWidth 8 <<< 2 = g &&& 0xFC#8 := extractLsb'_shiftLeft_eq_and g 2
  have hb : (b.extractLsb' 3 5).setWidth 8 <<< 3 = b &&& 0xF8#8 := extractLsb'_shiftLeft_eq_and b 3
  rw [pack565_eq_append, unpack565_append, hr, hg, hb]

end Sys2Proof.Machine
end

section
/-! PROOF. Where `ConfigurationError` comes from (R225): construction without one of its two transport handles raises it
before any call, construction with both can only fail by a `TransportError` (R226), and no operation raises it. -/

namespace Sys2Proof.Machine

/-- Without one of the two transport handles no pin is opened. -/
theorem constructWith_of_missing {spi gpio : Bool} (h : spi = false ∨ gpio = false) (c : Config)
    (requests : List Request) (answers : List Answer) :
    constructWith c spi gpio requests answers = .failed .configurationError [] :=
  if_neg (by obtain rfl | rfl := h <;> simp)

/-- With both transport handles, construction raises no error but `TransportError` (R226). -/
theorem constructWith_failed {c : Config} {requests : List Request} {answers : List Answer} {r : Result}
    {trace : List Event} (h : constructWith c true true requests answers = .failed r trace) : r = .transportError := by
  simp only [constructWith, Bool.and_self, if_true] at h
  split at h
  · cases h
  · split at h <;> cases h <;> rfl
  · cases h

/-- An operation ends in `DimensionMismatchError`, with `Ok` or no status, or in `TransportError` (R240 to R242). -/
theorem exec_result_ne_configurationError {i : Instr} {s t : State} (h : exec i s = .next t) :
    t.result ≠ some .configurationError := by
  rcases exec_next h with ⟨-, rfl⟩ | ⟨-, -, n, rfl⟩ | ⟨-, -, before, a, after, c, n, -, -, rfl⟩
  · simp
  · rw [State.finish_result]; split <;> simp
  · simp

/-- Settles O7: for construction, by whether both handles are present; for an operation, by how it can end. -/
theorem configurationErrorOfConstruction : Obligations.ConfigurationErrorOfConstruction := by
  refine ⟨fun c spi gpio requests answers => ?_, fun s t i h => exec_result_ne_configurationError h⟩
  rw [construct_toParameters]
  have hmissing (h : spi = false ∨ gpio = false) := constructWith_of_missing h c requests answers
  refine ⟨⟨fun h => ⟨[], hmissing h⟩, fun ⟨trace, hfailed⟩ => ?_⟩, hmissing⟩
  by_contra hpresent
  obtain ⟨rfl, rfl⟩ : spi = true ∧ gpio = true := by simpa using hpresent
  cases constructWith_failed hfailed

end Sys2Proof.Machine
end

section
/-! PROOF. The decoder and the encoder (R90 to R107): a transaction's tagged bytes are read back, the seven distinct
opcodes select their rows (R96), and every arm of the decoder reads exactly what the encoder writes. -/

namespace Sys2Proof

/-- The seven named opcodes of an accepted instance are distinct (R96). -/
theorem Config.opcodes_nodup (c : Config) : c.opcodes.Nodup := by
  obtain ⟨-, -, -, -, -, -, -, -, -, -, hnodup⟩ := c.wf
  exact hnodup

/-! ## Decoding what the encoder writes -/

theorem decode_wireCmd_encodeTransaction (c : Config) (opcode : Byte) (payload : List Byte) :
    decode c (.wireCmd (encodeTransaction opcode payload)) = decodeNamed c opcode payload := by
  simp [decode, decodeTransaction_encode]

/-- A column-range payload is read back (R97). -/
theorem decodeNamed_caset (c : Config) (first last : U16) :
    decodeNamed c c.opCaset (bigEndian first ++ bigEndian last) = some (.caset first last) := by
  simp [decodeNamed, bigEndian]

/-- A row-range payload is read back (R97): its opcode is not the column-range one. -/
theorem decodeNamed_raset (c : Config) (first last : U16) :
    decodeNamed c c.opRaset (bigEndian first ++ bigEndian last) = some (.raset first last) := by
  have hnodup := c.opcodes_nodup
  have hne : c.opRaset ≠ c.opCaset := by
    rintro h
    simp [Parameters.opcodes, h] at hnodup
  simp [decodeNamed, bigEndian, hne]

/-- The five Commands without a payload are told apart by their distinct opcodes (R96). -/
theorem decodeNamed_bare (c : Config) :
    decodeNamed c c.opRamwr [] = some .ramwr ∧ decodeNamed c c.opTeon [] = some .teon ∧
    decodeNamed c c.opInvoff [] = some .invoff ∧ decodeNamed c c.opSlpout [] = some .slpout ∧
    decodeNamed c c.opDispon [] = some .dispon := by
  have hnodup := c.opcodes_nodup
  simp only [Parameters.opcodes, List.nodup_cons, List.mem_cons, not_or, ← ne_eq] at hnodup
  obtain ⟨-, -, ⟨hrt, hri, hrs, hrd, -⟩, ⟨hti, hts, htd, -⟩, ⟨his, hid, -⟩, ⟨hsd, -⟩, -⟩ := hnodup
  refine ⟨?_, ?_, ?_, ?_, ?_⟩
  · simp [decodeNamed]
  · simp [decodeNamed, hrt.symm]
  · simp [decodeNamed, hri.symm, hti.symm]
  · simp [decodeNamed, hrs.symm, hts.symm, his.symm]
  · simp [decodeNamed, hrd.symm, htd.symm, hid.symm, hsd.symm]

/-- A run of at least one data byte is `sendData` of it (R123). -/
theorem decodeMicro_map_tagData {bytes : List Byte} (h : bytes ≠ []) :
    decodeMicro (bytes.map tagData) = some (.sendData bytes) := by
  cases bytes with
  | nil => exact absurd rfl h
  | cons b bytes =>
    have hrun := dataBytes_map_tagData (b :: bytes)
    simp only [List.map_cons] at hrun
    simp [decodeMicro, hrun]

/-- Settles O3, by the instruction: the rows that carry a transaction by `decodeTransaction_encode` and the distinct
opcodes, the data rows by reading back a run of data tags. -/
theorem decodeOfEncode : Obligations.DecodeOfEncode := by
  intro c i hi
  obtain ⟨hramwr, hteon, hinvoff, hslpout, hdispon⟩ := decodeNamed_bare c
  cases i with
  | sendCommand opcode => simp [encode, decode, decodeMicro]
  | sendData bytes => exact decodeMicro_map_tagData (by rintro rfl; cases hi)
  | stream buf => simp [encode, decode, dataBytes_map_tagData]
  | caset first last => exact (decode_wireCmd_encodeTransaction ..).trans (decodeNamed_caset c first last)
  | raset first last => exact (decode_wireCmd_encodeTransaction ..).trans (decodeNamed_raset c first last)
  | ramwr => exact (decode_wireCmd_encodeTransaction ..).trans hramwr
  | teon => exact (decode_wireCmd_encodeTransaction ..).trans hteon
  | invoff => exact (decode_wireCmd_encodeTransaction ..).trans hinvoff
  | slpout => exact (decode_wireCmd_encodeTransaction ..).trans hslpout
  | dispon => exact (decode_wireCmd_encodeTransaction ..).trans hdispon
  | initEntry opcode payload => simp [encode, decode, decodeTransaction_encode]
  | dataByte d => simp [encode, decode, decodeWireData]
  | _ => rfl

/-! ## Encoding what the decoder reads -/

/-- The eight `op` codes (R92). -/
theorem opCode_cases : ∀ op : BitVec 3,
    op = 0#3 ∨ op = 1#3 ∨ op = 2#3 ∨ op = 3#3 ∨ op = 4#3 ∨ op = 5#3 ∨ op = 6#3 ∨ op = 7#3 := by
  decide

/-- A host call that decodes is the encoding of its operation: each code takes one shape of operands (R92). -/
theorem encode_of_decodeHost (c : Config) {op : BitVec 3} {operands : Operands} {i : Instr}
    (h : decodeHost op operands = some i) : encode c i = .host op operands := by
  obtain rfl | rfl | rfl | rfl | rfl | rfl | rfl | rfl := opCode_cases op
  all_goals
    cases operands <;> cases h
    rfl

/-- A run of data bytes that is read as `sendData` or a lone Command byte is the encoding of its row (R94). -/
theorem encode_of_decodeMicro (c : Config) {ts : List Tagged} {i : Instr} (h : decodeMicro ts = some i) :
    encode c i = .micro ts := by
  cases ts with
  | nil => cases h
  | cons t ts =>
    simp only [decodeMicro] at h
    split at h
    · obtain ⟨bytes, hbytes, rfl⟩ := Option.map_eq_some_iff.1 h
      rw [encode, map_tagData_of_dataBytes hbytes]
    · rename_i hd
      split at h <;> cases h
      rename_i hts
      rw [encode, tagCommand_byteOf (by simpa using hd), hts]

/-- What is read as one of the seven named Commands is the encoding of its row (R96, R97). -/
theorem encode_of_decodeNamed {c : Config} {opcode : Byte} {payload : List Byte} {i : Instr}
    (h : decodeNamed c opcode payload = some i) : encode c i = .wireCmd (encodeTransaction opcode payload) := by
  match payload with
  | [] =>
    simp only [decodeNamed] at h
    split_ifs at h with h₁ h₂ h₃ h₄ h₅ <;> cases h
    · rw [encode, h₁]
    · rw [encode, h₂]
    · rw [encode, h₃]
    · rw [encode, h₄]
    · rw [encode, h₅]
  | [b₀, b₁, b₂, b₃] =>
    simp only [decodeNamed] at h
    split_ifs at h with h₁ h₂ <;> cases h
    · simp [encode, bigEndian, h₁]
    · simp [encode, bigEndian, h₂]
  | [_] | [_, _] | [_, _, _] | _ :: _ :: _ :: _ :: _ :: _ => cases h

/-- A lone data byte is the encoding of its DATA_BYTE row (R94). -/
theorem encode_of_decodeWireData (c : Config) {ts : List Tagged} {i : Instr} (h : decodeWireData ts = some i) :
    encode c i = .wireData ts := by
  unfold decodeWireData at h
  split at h
  · split at h <;> cases h
    rw [encode, tagData_byteOf ‹_›]
  · cases h

/-- Settles O4, by the format of the request. -/
theorem encodeOfDecode : Obligations.EncodeOfDecode := by
  intro c q i h
  cases q with
  | host op operands => exact encode_of_decodeHost c h
  | micro ts => exact encode_of_decodeMicro c h
  | microSeq ts =>
    obtain ⟨buf, hbuf, rfl⟩ := Option.map_eq_some_iff.1 h
    rw [encode, map_tagData_of_dataBytes hbuf]
  | wireCmd ts =>
    obtain ⟨⟨opcode, payload⟩, hts, hnamed⟩ := Option.bind_eq_some_iff.1 h
    rw [encode_of_decodeNamed hnamed, encodeTransaction_of_decode hts]
  | wireTable ts =>
    obtain ⟨⟨opcode, payload⟩, hts, rfl⟩ := Option.map_eq_some_iff.1 h
    rw [encode, encodeTransaction_of_decode hts]
  | wireData ts => exact encode_of_decodeWireData c h

/-! ## The codes and the bare words of the table -/

/-- Settles O1: each code with its operation's operands is an arm of `decodeHost`. -/
theorem hostCodesSelectOperations : Obligations.HostCodesSelectOperations :=
  fun _ _ _ _ _ _ _ _ => ⟨rfl, rfl, rfl, rfl, rfl, rfl, rfl, rfl⟩

/-- Settles O2: the eight words are read by evaluation; the free values of the reference instance are not looked at. -/
theorem tableWordsDecode : Obligations.TableWordsDecode := by
  refine ⟨?_, ?_, ?_, ?_, ?_, ?_, ?_, ?_⟩ <;> rfl

end Sys2Proof
end

section
/-! PROOF. The pure functions of the Pixel Pipeline (R185 to R199): the packed colour as three fields and as a number, the
chunks of a buffer, and the frame of an image of one colour. -/

namespace Sys2Proof.Machine

/-! ## The packer -/

theorem pack565_red (r g b : Byte) : (pack565 r g b).extractLsb' 11 5 = r.extractLsb' 3 5 := by
  rw [pack565_eq_append]
  exact (BitVec.extractLsb'_append_eq_of_le (by decide)).trans BitVec.extractLsb'_append_eq_left

theorem pack565_green (r g b : Byte) : (pack565 r g b).extractLsb' 5 6 = g.extractLsb' 2 6 := by
  rw [pack565_eq_append]
  exact (BitVec.extractLsb'_append_eq_of_le (by decide)).trans BitVec.extractLsb'_append_eq_right

theorem pack565_blue (r g b : Byte) : (pack565 r g b).extractLsb' 0 5 = b.extractLsb' 3 5 := by
  rw [pack565_eq_append]
  exact BitVec.extractLsb'_append_eq_right

/-- The packed colour as a number: its three fields do not overlap (R187). -/
theorem pack565_toNat (r g b : Byte) :
    (pack565 r g b).toNat = r.toNat / 8 * 2048 + g.toNat / 4 * 32 + b.toNat / 8 := by
  have hr := r.isLt
  have hg := g.isLt
  have hb := b.isLt
  rw [pack565_eq_append, BitVec.toNat_append, BitVec.toNat_append]
  simp only [BitVec.extractLsb'_toNat, Nat.shiftRight_eq_div_pow]
  rw [← Nat.shiftLeft_add_eq_or_of_lt (by omega), ← Nat.shiftLeft_add_eq_or_of_lt (by omega)]
  simp only [Nat.shiftLeft_eq]
  omega

/-- The terms that R185 joins have no bit in common, so that joining them is adding them (R187). -/
theorem pack565_eq_add (r g b : Byte) :
    pack565 r g b =
      ((r.setWidth 16 &&& 0xF8#16) <<< 8) + ((g.setWidth 16 &&& 0xFC#16) <<< 3) + (b.setWidth 16 >>> 3) := by
  have hrg : ((r.setWidth 16 &&& 0xF8#16) <<< 8) &&& ((g.setWidth 16 &&& 0xFC#16) <<< 3) = 0#16 := by
    refine BitVec.eq_of_getLsbD_eq fun i hi => ?_
    interval_cases i <;> simp
  have hb : (((r.setWidth 16 &&& 0xF8#16) <<< 8) ||| ((g.setWidth 16 &&& 0xFC#16) <<< 3)) &&&
      (b.setWidth 16 >>> 3) = 0#16 := by
    refine BitVec.eq_of_getLsbD_eq fun i hi => ?_
    interval_cases i <;> simp
  rw [BitVec.add_eq_or_of_and_eq_zero _ _ hrg, BitVec.add_eq_or_of_and_eq_zero _ _ hb, pack565]

/-- Settles O32, by the three fields of a packed colour, which do not overlap. -/
theorem packFields : Obligations.PackFields :=
  fun r g b => ⟨pack565_red r g b, pack565_green r g b, pack565_blue r g b, pack565_eq_add r g b⟩

/-- Settles O34, bit by bit: each bit of either byte is one bit of one channel. -/
theorem pixelByteSplit : Obligations.PixelByteSplit := by
  intro r g b
  constructor <;> refine BitVec.eq_of_getLsbD_eq fun i hi => ?_
  · interval_cases i <;> simp [pack565, hi8]
  · interval_cases i <;> simp [pack565, lo8]

/-- The low bits of a channel are not looked at (R189). -/
theorem pack565_and (r g b : Byte) : pack565 (r &&& 0xF8#8) (g &&& 0xFC#8) (b &&& 0xF8#8) = pack565 r g b := by
  refine BitVec.eq_of_getLsbD_eq fun i hi => ?_
  interval_cases i <;> simp [pack565]

/-- The packed colour of three fields with zeros below them is the fields side by side. -/
theorem pack565_append_zero (x : BitVec 5) (y : BitVec 6) (z : BitVec 5) :
    pack565 (x ++ 0#3) (y ++ 0#2) (z ++ 0#3) = x ++ y ++ z := by
  have hx : (x ++ 0#3).extractLsb' 3 5 = x := BitVec.extractLsb'_append_eq_left
  have hy : (y ++ 0#2).extractLsb' 2 6 = y := BitVec.extractLsb'_append_eq_left
  have hz : (z ++ 0#3).extractLsb' 3 5 = z := BitVec.extractLsb'_append_eq_left
  rw [pack565_eq_append, hx, hy, hz]

/-- A 16-bit value is its three fields side by side. -/
theorem fields_append (p : U16) : p.extractLsb' 11 5 ++ p.extractLsb' 5 6 ++ p.extractLsb' 0 5 = p := by
  refine BitVec.eq_of_getLsbD_eq fun i hi => ?_
  simp only [BitVec.getLsbD_append]
  interval_cases i <;> simp

/-- Settles O35: the masks of R189 by `pack565_and`, the order by the packed number, every value by its fields. -/
theorem packTruncates : Obligations.PackTruncates := by
  refine ⟨fun r g b => (pack565_and r g b).symm, fun r r' g g' b b' hr hg hb => ?_, fun p => ?_⟩
  · rw [BitVec.le_def] at hr hg hb ⊢
    rw [pack565_toNat, pack565_toNat]
    omega
  · exact ⟨_, _, _, (pack565_append_zero _ _ _).trans (fields_append p)⟩

/-! ## Chunks -/

theorem chunks_nil {c : Nat} (hc : 1 ≤ c) : chunks c ([] : List Byte).length [] = [] := by
  simp [chunks, chunkCount_zero hc, slices]

/-- The chunks of a buffer concatenate to it. -/
theorem chunks_flatten {c : Nat} (hc : 1 ≤ c) (buf : List Byte) : (chunks c buf.length buf).flatten = buf := by
  refine chunks_induction hc (P := fun buf cs => cs.flatten = buf) rfl (fun buf _ ih => ?_) buf
  rw [List.flatten_cons, ih, List.take_append_drop]

/-- A chunk has at least one byte and at most `c`. -/
theorem length_of_mem_chunks {c : Nat} (hc : 1 ≤ c) (buf : List Byte) :
    ∀ chunk ∈ chunks c buf.length buf, 1 ≤ chunk.length ∧ chunk.length ≤ c := by
  refine chunks_induction hc (P := fun _ cs => ∀ chunk ∈ cs, 1 ≤ chunk.length ∧ chunk.length ≤ c) (by simp)
    (fun buf hne ih => ?_) buf
  have hpos := List.length_pos_iff.2 hne
  rw [List.forall_mem_cons]
  exact ⟨by rw [List.length_take]; omega, ih⟩

/-- Every chunk but the last has `c` bytes: what is left over after it is not empty. -/
theorem length_of_mem_dropLast_chunks {c : Nat} (hc : 1 ≤ c) (buf : List Byte) :
    ∀ chunk ∈ (chunks c buf.length buf).dropLast, chunk.length = c := by
  refine chunks_induction hc (P := fun _ cs => ∀ chunk ∈ cs.dropLast, chunk.length = c) (by simp)
    (fun buf _ ih => ?_) buf
  generalize hrest : buf.drop c = rest at ih
  cases hcs : chunks c rest.length rest with
  | nil => simp
  | cons next more =>
    rw [hcs] at ih
    have hne : buf.drop c ≠ [] := by
      rw [hrest]
      rintro rfl
      rw [chunks_nil hc] at hcs
      cases hcs
    have hlong : c < buf.length := by simpa using hne
    rw [List.dropLast_cons_cons, List.forall_mem_cons]
    exact ⟨by rw [List.length_take]; omega, ih⟩

/-- Settles O36, by induction on the buffer by its chunks. -/
theorem chunksPartitionTheBuffer : Obligations.ChunksPartitionTheBuffer :=
  fun c buf hc => ⟨chunks_flatten hc buf, chunks_length c buf.length buf, length_of_mem_chunks hc buf,
    length_of_mem_dropLast_chunks hc buf⟩

/-! ## An image of one colour -/

/-- Blocks that are all the same are copies of it. -/
theorem flatMap_of_forall_eq {α β : Type} {f : α → List β} {block : List β} {xs : List α}
    (h : ∀ x ∈ xs, f x = block) : xs.flatMap f = (List.replicate xs.length block).flatten := by
  rw [List.flatMap_def, List.map_congr_left h, List.map_const']

theorem getPixel_of_uniform {image : Image} {p : Rgb}
    (hp : image.pixels = List.replicate (image.width * image.height) p) {x y : Nat} (hx : x < image.width)
    (hy : y < image.height) : getPixel image x y = some p := by
  obtain ⟨q, hq⟩ := getPixel_of_total (by rw [hp, List.length_replicate]) hx hy
  have hmem : q ∈ image.pixels := by
    rw [getPixel, if_pos ⟨hx, hy⟩] at hq
    exact List.mem_of_getElem? hq
  rw [hp] at hmem
  rw [hq, List.eq_of_mem_replicate hmem]

/-- The converted image of one colour is the solid frame of its packed colour. -/
theorem convert_of_uniform {c : Config} {image : Image} {p : Rgb} (hw : image.width = c.width)
    (hh : image.height = c.height) (hp : image.pixels = List.replicate (image.width * image.height) p) :
    convert c image = solid c (pack565 p.r p.g p.b) := by
  have hrow : ∀ y ∈ List.range c.height, ((List.range c.width).flatMap fun x => pixelBytes image x y) =
      (List.replicate c.width (bigEndian (pack565 p.r p.g p.b))).flatten := by
    intro y hy
    rw [flatMap_of_forall_eq (block := bigEndian (pack565 p.r p.g p.b)), List.length_range]
    intro x hx
    rw [List.mem_range] at hx hy
    exact pixelBytes_of_getPixel (getPixel_of_uniform hp (hw ▸ hx) (hh ▸ hy))
  rw [convert, flatMap_of_forall_eq hrow, List.length_range, solid, Nat.mul_comm, ← List.flatten_replicate_replicate,
    List.flatten_flatten, List.map_replicate]

/-- Settles O38: the two operations have the same checks left and the same frame, so they have the same plan. -/
theorem showOfUniformImageIsFill : Obligations.ShowOfUniformImageIsFill := by
  intro s image r g b hw hh hp
  have htotal : imageTotal image = true := by simp [imageTotal, hp]
  have hplan : planOf (.showImage image) s = planOf (.fill (pack565 r g b)) s := by
    simp only [planOf, planShow, planFill, hw, hh, htotal, and_self, if_true, convert_of_uniform hw hh hp]
  rw [exec_eq_perform, exec_eq_perform, hplan]

end Sys2Proof.Machine
end

section
/-! PROOF. Frames (R36, R39, R42, R152, R246): which actions an operation's sequence may hold, what an action leaves
alone, and from both what an operation leaves alone and what its status says. -/

namespace Sys2Proof.Machine

/-! ## What no action writes -/

section
variable (a : Action) (c : Call) (s : State)

@[simp] theorem effect_cfg : (effect a s).cfg = s.cfg := by
  cases a <;> simp only [effect] <;> (try split) <;> simp

@[simp] theorem effect_seq : (effect a s).seq = s.seq := by
  cases a <;> simp only [effect] <;> (try split) <;> simp

@[simp] theorem effect_requests : (effect a s).requests = s.requests := by
  cases a <;> simp only [effect] <;> (try split) <;> simp

@[simp] theorem failEffect_cfg : (failEffect c s).cfg = s.cfg := by cases c <;> simp [failEffect]
@[simp] theorem failEffect_seq : (failEffect c s).seq = s.seq := by cases c <;> simp [failEffect]
@[simp] theorem failEffect_requests : (failEffect c s).requests = s.requests := by cases c <;> simp [failEffect]
@[simp] theorem failEffect_answers : (failEffect c s).answers = s.answers := by cases c <;> simp [failEffect]
@[simp] theorem failEffect_phase : (failEffect c s).phase = s.phase := by cases c <;> simp [failEffect]
@[simp] theorem failEffect_lastCmd : (failEffect c s).lastCmd = s.lastCmd := by cases c <;> simp [failEffect]
@[simp] theorem failEffect_win : (failEffect c s).win = s.win := by cases c <;> simp [failEffect]
@[simp] theorem failEffect_armed : (failEffect c s).armed = s.armed := by cases c <;> simp [failEffect]

end

/-- The call of a bus write is at the level the control line is known to have. -/
theorem failingCall_spiWrite {bytes : List Byte} {s : State} {c : Call} (h : failingCall (.spiWrite bytes) s = some c) :
    ∃ dc, s.lat.dc = .known dc ∧ c = .spiWrite dc bytes := by
  simp only [failingCall] at h
  split at h <;> cases h
  exact ⟨_, ‹_›, rfl⟩

/-- An observation that an action does not change, whether it completes or its call fails. -/
def Keeps {α : Type} (f : State → α) (a : Action) : Prop :=
  (∀ s, f (effect a s) = f s) ∧ ∀ s c, failingCall a s = some c → f (failEffect c s) = f s

/-! ## Which operation makes which action -/

/-- The operations that send Commands or data through the Framer (R122, R141, R222, R230). -/
def UsesFramer (i : Instr) : Prop := i ≠ .reset ∧ i ≠ .release ∧ ∀ level, i ≠ .setBacklight level

/-- The operations whose sequence may hold an action (R42, R122, R141, R170, R220, R228). -/
def Permits (i : Instr) : Action → Prop
  | .gpioOpen _ => False
  | .gpioWrite .rst _ => i = .reset ∨ i = .init
  | .gpioWrite .bl _ => ∃ level, i = .setBacklight level
  | .gpioWrite .dc _ => UsesFramer i
  | .spiWrite _ => UsesFramer i
  | .sleep _ => UsesFramer i ∨ i = .reset
  | .gpioClose _ => i = .release
  | .spiClose => i = .release
  | .setPhase _ => i = .reset ∨ i = .init
  | .clearShadow => i = .reset ∨ i = .init
  | .disarm => UsesFramer i
  | .setLastCmd _ => UsesFramer i
  | .programWindow _ => NeedsDisplayOn i
  | .nextEntry => i = .init
  | .startStream => NeedsDisplayOn i ∨ ∃ buf, i = .stream buf

theorem usesFramer_of_needsDisplayOn {i : Instr} (h : NeedsDisplayOn i) : UsesFramer i := by
  obtain rfl | ⟨color, rfl⟩ | ⟨image, rfl⟩ | ⟨x, y, w, h, rfl⟩ := h <;> simp [UsesFramer]

section
variable {i : Instr} (hi : UsesFramer i)
include hi

theorem permits_sendCommandSeq (opcode : Byte) : ∀ a ∈ sendCommandSeq opcode, Permits i a := by
  simp [sendCommandSeq, Permits, hi]

theorem permits_sendDataSeq (bytes : List Byte) : ∀ a ∈ sendDataSeq bytes, Permits i a := by
  simp [sendDataSeq, Permits, hi]

theorem permits_transactionSeq (opcode : Byte) (payload : List Byte) :
    ∀ a ∈ transactionSeq opcode payload, Permits i a := by
  rw [transactionSeq, List.forall_mem_append]
  refine ⟨permits_sendCommandSeq hi opcode, ?_⟩
  split
  · simp
  · exact permits_sendDataSeq hi payload

theorem permits_streamSeq (hs : NeedsDisplayOn i ∨ ∃ buf, i = .stream buf) (c : Config) (n : Nat) (buf : List Byte) :
    ∀ a ∈ streamSeq c n buf, Permits i a := by
  simp only [streamSeq, List.forall_mem_append, List.forall_mem_flatMap]
  exact ⟨⟨by simpa [Permits] using hs, fun chunk _ => permits_sendDataSeq hi chunk⟩, by simp [Permits, hi]⟩

end

theorem permits_windowSeq {i : Instr} (hi : NeedsDisplayOn i) (c : Config) (w : Window) :
    ∀ a ∈ windowSeq c w, Permits i a := by
  have hf := usesFramer_of_needsDisplayOn hi
  simp only [windowSeq, casetSeq, rasetSeq, List.forall_mem_append]
  exact ⟨⟨⟨⟨permits_sendCommandSeq hf _, permits_sendDataSeq hf _⟩, permits_sendCommandSeq hf _,
    permits_sendDataSeq hf _⟩, permits_sendCommandSeq hf _⟩, by simpa [Permits] using hi⟩

theorem permits_frameSeq {i : Instr} (hi : NeedsDisplayOn i) (c : Config) (buf : List Byte) :
    ∀ a ∈ frameSeq c buf, Permits i a :=
  List.forall_mem_append.2
    ⟨permits_windowSeq hi c _, permits_streamSeq (usesFramer_of_needsDisplayOn hi) (.inl hi) c _ buf⟩

theorem permits_resetBodySeq {i : Instr} (hi : i = .reset ∨ i = .init) (c : Config) :
    ∀ a ∈ resetBodySeq c, Permits i a := by
  rcases hi with rfl | rfl <;> unfold resetBodySeq <;> split <;> simp [Permits, UsesFramer]

theorem permits_initSeq (c : Config) : ∀ a ∈ initSeq c, Permits .init a := by
  have hi : UsesFramer .init := by simp [UsesFramer]
  simp only [initSeq, tableSeq, List.forall_mem_append, List.forall_mem_flatMap]
  exact ⟨⟨⟨⟨⟨⟨⟨⟨⟨permits_resetBodySeq (.inr rfl) c, by simp [Permits]⟩,
    fun e _ => ⟨permits_transactionSeq hi e.1 e.2, by simp [Permits]⟩⟩,
    permits_sendCommandSeq hi _⟩, permits_sendCommandSeq hi _⟩, permits_sendCommandSeq hi _⟩,
    by simp [Permits, hi]⟩, permits_sendCommandSeq hi _⟩, by simp [Permits, hi]⟩, by simp [Permits]⟩

/-- An operation's sequence holds only actions that are its own. -/
theorem permits_of_mem_bodyOf (s : State) (i : Instr) : ∀ a ∈ (bodyOf s i).2, Permits i a := by
  cases i with
  | reset => exact List.forall_mem_append.2 ⟨permits_resetBodySeq (.inl rfl) _, by simp [Permits]⟩
  | init => exact permits_initSeq _
  | clear => exact permits_frameSeq (.inl rfl) _ _
  | fill color => exact permits_frameSeq (.inr (.inl ⟨color, rfl⟩)) _ _
  | showImage image => exact permits_frameSeq (.inr (.inr (.inl ⟨image, rfl⟩))) _ _
  | setWindow x y w h => exact permits_windowSeq (.inr (.inr (.inr ⟨x, y, w, h, rfl⟩))) _ _
  | setBacklight level => simp [bodyOf, Permits]
  | release => simp [bodyOf, releaseSeq, Permits, or_imp, forall_and]
  | stream buf => exact permits_streamSeq (by simp [UsesFramer]) (.inr ⟨buf, rfl⟩) _ _ buf
  | initEntry opcode payload => exact permits_transactionSeq (by simp [UsesFramer]) opcode payload
  | _ => simp [bodyOf, casetSeq, rasetSeq, sendCommandSeq, sendDataSeq, Permits, UsesFramer]

end Sys2Proof.Machine
end

section
/-! PROOF. What an operation leaves alone (R36, R39, R42, R152), what its status says (R240 to R247), and who records
which event: each from the actions that its sequence may hold. -/

namespace Sys2Proof.Machine

/-! ## Which action changes which field -/

section
variable {i : Instr} {a : Action} (hp : Permits i a)
include hp

theorem keeps_handles (hi : i ≠ .release) : Keeps State.handles a := by
  cases a with
  | gpioOpen p => exact hp.elim
  | gpioClose p => exact absurd hp hi
  | spiClose => exact absurd hp hi
  | gpioWrite p l => exact ⟨fun s => by simp [effect], by rintro s c ⟨⟩; simp [failEffect]⟩
  | spiWrite bytes =>
    refine ⟨fun s => by simp only [effect]; split <;> simp, fun s c hc => ?_⟩
    obtain ⟨dc, -, rfl⟩ := failingCall_spiWrite hc
    rfl
  | _ => exact ⟨fun s => rfl, by rintro s c ⟨⟩⟩

/-- The latch of a pin that an operation does not write. -/
theorem keeps_latch {p : Pin} (h : ∀ l, a ≠ .gpioWrite p l) : Keeps (fun s => s.latch p) a := by
  cases a with
  | gpioOpen q => exact hp.elim
  | gpioWrite q l =>
    have hne : q ≠ p := by rintro rfl; exact h l rfl
    exact ⟨fun s => by simp [effect, hne], by rintro s c ⟨⟩; simp [failEffect, hne]⟩
  | gpioClose q => exact ⟨fun s => by simp [effect], by rintro s c ⟨⟩; simp [failEffect]⟩
  | spiClose => exact ⟨fun s => by cases p <;> rfl, by rintro s c ⟨⟩; cases p <;> rfl⟩
  | spiWrite bytes =>
    refine ⟨fun s => by simp only [effect]; split <;> simp, fun s c hc => ?_⟩
    obtain ⟨dc, -, rfl⟩ := failingCall_spiWrite hc
    cases p <;> rfl
  | _ => exact ⟨fun s => by cases p <;> rfl, by rintro s c ⟨⟩⟩

theorem effect_phase_of_permits (h₁ : i ≠ .reset) (h₂ : i ≠ .init) (s : State) : (effect a s).phase = s.phase := by
  rw [effect_phase]
  cases a with
  | setPhase ph => exact (hp.elim h₁ h₂).elim
  | _ => rfl

theorem effect_win_of_permits (h₁ : i ≠ .reset) (h₂ : i ≠ .init) (h₃ : ¬ NeedsDisplayOn i) (s : State) :
    (effect a s).win = s.win := by
  cases a with
  | clearShadow => exact (hp.elim h₁ h₂).elim
  | programWindow w => exact absurd hp h₃
  | spiWrite bytes => simp only [effect]; split <;> simp
  | _ => simp [effect]

end

/-- The phase and the three shadow fields (R26, R33 to R35). -/
def shadowOf (s : State) : Phase × Option Byte × Option Window × Bool := (s.phase, s.lastCmd, s.win, s.armed)

theorem not_usesFramer {i : Instr} (hi : i = .release ∨ ∃ level, i = .setBacklight level) : ¬ UsesFramer i := by
  rintro ⟨-, hrelease, hlevel⟩
  obtain rfl | ⟨level, rfl⟩ := hi
  · exact hrelease rfl
  · exact hlevel level rfl

/-- `setBacklight` and `release` make no action that writes the phase or the shadow (R222, R230). -/
theorem keeps_shadowOf {i : Instr} {a : Action} (hp : Permits i a)
    (hi : i = .release ∨ ∃ level, i = .setBacklight level) : Keeps shadowOf a := by
  have hframer := not_usesFramer hi
  have hinit : ¬ (i = .reset ∨ i = .init) := by rintro (rfl | rfl) <;> simp at hi
  have hframe : ¬ NeedsDisplayOn i := fun h => hframer (usesFramer_of_needsDisplayOn h)
  cases a with
  | gpioOpen p => exact hp.elim
  | gpioWrite p l => exact ⟨fun s => by simp [effect, shadowOf], by rintro s c ⟨⟩; simp [failEffect, shadowOf]⟩
  | gpioClose p => exact ⟨fun s => by simp [effect, shadowOf], by rintro s c ⟨⟩; simp [failEffect, shadowOf]⟩
  | spiClose => exact ⟨fun s => rfl, by rintro s c ⟨⟩; rfl⟩
  | spiWrite bytes => exact absurd hp hframer
  | sleep ms => exact ⟨fun s => rfl, by rintro s c ⟨⟩⟩
  | setPhase ph => exact absurd hp hinit
  | clearShadow => exact absurd hp hinit
  | disarm => exact absurd hp hframer
  | setLastCmd opcode => exact absurd hp hframer
  | programWindow w => exact absurd hp hframe
  | nextEntry => exact absurd hp (fun h => hinit (.inr h))
  | startStream => exact ⟨fun s => rfl, by rintro s c ⟨⟩⟩

/-! ## How an operation ends -/

theorem bodyOf_ownEffectOnly {s : State} {i : Instr} :
    (bodyOf s i).1 = .ownEffectOnly ↔ i = .release ∨ ∃ level, i = .setBacklight level := by
  cases i <;> simp [bodyOf]

/-- The rows outside the host surface are those of the other five formats (R107). -/
theorem bodyOf_internal {s : State} {i : Instr} :
    (bodyOf s i).1 = .internal ↔ (encode s.cfg i).format ≠ .host := by
  cases i <;> simp [bodyOf, encode, Request.format]

/-- The shadow and the phase after an error (R246). -/
theorem shadowOf_raiseTransportError {o : Ending} (ho : o ≠ .ownEffectOnly) (s : State) :
    shadowOf (raiseTransportError o s) = (.uninitialized, none, none, false) := by
  cases o with
  | ownEffectOnly => exact absurd rfl ho
  | _ => rfl

/-- The status of an operation: the size error, completion, or a failed call (R240 to R243). -/
theorem exec_result {i : Instr} {s t : State} (h : exec i s = .next t) :
    (t.result = some .dimensionMismatchError ∧
      ∃ image, i = .showImage image ∧ (image.width ≠ s.cfg.width ∨ image.height ≠ s.cfg.height)) ∨
    (planOf i s = .go (bodyOf s i).1 (bodyOf s i).2 ∧
      (t.result = (if (bodyOf s i).1 = .internal then none else some .ok) ∨ t.result = some .transportError)) := by
  rcases exec_next h with ⟨hi, rfl⟩ | ⟨hp, -, n, rfl⟩ | ⟨hp, -, before, a, after, c, n, -, -, rfl⟩
  · exact .inl ⟨rfl, hi⟩
  · exact .inr ⟨hp, .inl (by simp)⟩
  · exact .inr ⟨hp, .inr (by simp)⟩

/-- A `show` that runs has an image of the display's size whose port answers for every pixel, in `DisplayOn`. -/
theorem planOf_showImage_go {image : Image} {s : State} {o : Ending} {acts : List Action}
    (h : planOf (.showImage image) s = .go o acts) :
    image.width = s.cfg.width ∧ image.height = s.cfg.height ∧
      image.pixels.length = image.width * image.height := by
  obtain ⟨-, h⟩ := whenLive_go h
  split at h
  · obtain ⟨hw, hh⟩ := ‹_ ∧ _›
    obtain ⟨-, h⟩ := whenDisplayOn_go h
    split at h
    · exact ⟨hw, hh, by simpa [imageTotal] using ‹imageTotal image = true›⟩
    · cases h
  · cases h

/-- An observation that no action of an operation's sequence changes is unchanged by the operation, unless it ends in
`TransportError`. -/
theorem exec_observe_of_not_transportError {α : Type} (f : State → α) {i : Instr} {s t : State}
    (h : exec i s = .next t) (hr : t.result ≠ some .transportError) (hans : ∀ s x, f (State.withAnswers s x) = f s)
    (hres : ∀ (s : State) r, f { s with result := r } = f s)
    (hb : ∀ a ∈ (bodyOf s i).2, ∀ s, f (effect a s) = f s) : f t = f s := by
  rcases exec_next h with ⟨-, rfl⟩ | ⟨-, -, n, rfl⟩ | ⟨-, -, before, a, after, c, n, -, -, rfl⟩
  · exact hres _ _
  · have hfinish (u : State) : f (u.finish (bodyOf s i).1) = f u := by
      cases (bodyOf s i).1 with
      | internal => rfl
      | _ => exact hres _ _
    rw [hfinish, hans, State.begin, hres, effects_observe f hb]
  · simp at hr

/-! ## The frames -/

theorem exec_shadowOf {i : Instr} {s t : State} (h : exec i s = .next t)
    (hi : i = .release ∨ ∃ level, i = .setBacklight level) : shadowOf t = shadowOf s :=
  exec_observe shadowOf h (fun _ _ => rfl) (fun _ _ => rfl) (fun ho => absurd (bodyOf_ownEffectOnly.2 hi) ho)
    fun a ha => keeps_shadowOf (permits_of_mem_bodyOf s i a ha) hi

theorem exec_cfg {i : Instr} {s t : State} (h : exec i s = .next t) : t.cfg = s.cfg :=
  exec_observe State.cfg h (fun _ _ => rfl) (fun _ _ => rfl) (fun _ _ => rfl) fun _ _ => ⟨by simp, by simp⟩

theorem exec_seq {i : Instr} {s t : State} (h : exec i s = .next t) : t.seq = s.seq :=
  exec_observe State.seq h (fun _ _ => rfl) (fun _ _ => rfl) (fun _ _ => rfl) fun _ _ => ⟨by simp, by simp⟩

theorem exec_requests {i : Instr} {s t : State} (h : exec i s = .next t) : t.requests = s.requests :=
  exec_observe State.requests h (fun _ _ => rfl) (fun _ _ => rfl) (fun _ _ => rfl) fun _ _ => ⟨by simp, by simp⟩

theorem exec_answers {i : Instr} {s t : State} (h : exec i s = .next t) : t.answers <:+ s.answers := by
  rcases exec_next h with ⟨-, rfl⟩ | ⟨-, -, n, rfl⟩ | ⟨-, -, before, a, after, c, n, -, -, rfl⟩
  · exact List.suffix_rfl
  · simpa using List.drop_suffix n s.answers
  · simpa using List.drop_suffix n s.answers

theorem exec_handles {i : Instr} {s t : State} (h : exec i s = .next t) (hi : i ≠ .release) :
    t.handles = s.handles :=
  exec_observe State.handles h (fun _ _ => rfl) (fun _ _ => rfl) (fun _ _ => rfl)
    fun a ha => keeps_handles (permits_of_mem_bodyOf s i a ha) hi

/-- The latch of a pin that an operation may not write. -/
theorem exec_latch {i : Instr} {s t : State} (h : exec i s = .next t) {p : Pin}
    (hi : ∀ l, ¬ Permits i (.gpioWrite p l)) : t.latch p = s.latch p :=
  exec_observe (fun s => s.latch p) h (fun _ _ => by cases p <;> rfl) (fun _ _ => by cases p <;> rfl)
    (fun _ _ => by cases p <;> rfl)
    fun a ha => keeps_latch (permits_of_mem_bodyOf s i a ha) fun l hal =>
      hi l (hal ▸ permits_of_mem_bodyOf s i a ha)

/-- Settles O47, field by field: no action and no end of an operation writes one of the three. -/
theorem frameOfEveryOperation : Obligations.FrameOfEveryOperation :=
  fun _ _ _ h => ⟨exec_cfg h, exec_requests h, exec_seq h, exec_answers h⟩

/-- Settles O48, by the pins that an operation's sequence may write. -/
theorem pinFrames : Obligations.PinFrames := by
  intro s t i h
  refine ⟨exec_handles h, fun h₁ h₂ => exec_latch (p := .rst) h fun l hl => hl.elim h₁ h₂,
    fun h₁ => exec_latch (p := .bl) h fun l ⟨level, hl⟩ => h₁ level hl, fun hi => exec_latch (p := .dc) h fun l hl => ?_⟩
  obtain ⟨hreset, hrelease, hlevel⟩ := hl
  obtain hi | hi | ⟨level, hi⟩ := hi
  · exact hreset hi
  · exact hrelease hi
  · exact hlevel level hi

/-- Settles O49, by the operations whose sequence may write the phase or the window. -/
theorem phaseAndShadowFrames : Obligations.PhaseAndShadowFrames := by
  intro s t i h hr
  refine ⟨fun h₁ h₂ => ?_, fun hlist hfill hwindow hshow => ?_, fun hi => ?_⟩
  · exact exec_observe_of_not_transportError State.phase h hr (fun _ _ => rfl) (fun _ _ => rfl)
      fun a ha => effect_phase_of_permits (permits_of_mem_bodyOf s i a ha) h₁ h₂
  · simp only [List.mem_cons, List.not_mem_nil, or_false, not_or] at hlist
    obtain ⟨h₁, h₂, hclear⟩ := hlist
    have hneeds : ¬ NeedsDisplayOn i := by
      rintro (hi | ⟨c, hi⟩ | ⟨m, hi⟩ | ⟨x, y, w, e, hi⟩)
      · exact hclear hi
      · exact hfill c hi
      · exact hshow m hi
      · exact hwindow x y w e hi
    exact exec_observe_of_not_transportError State.win h hr (fun _ _ => rfl) (fun _ _ => rfl)
      fun a ha => effect_win_of_permits (permits_of_mem_bodyOf s i a ha) h₁ h₂ hneeds
  · have hshadow := exec_shadowOf h hi
    simp only [shadowOf, Prod.mk.injEq] at hshadow
    obtain ⟨-, hshadow⟩ := hshadow
    exact hshadow

/-- Settles O42, by the ending of the operation: the error rule writes phase and shadow, or nothing does. -/
theorem transportErrorState : Obligations.TransportErrorState := by
  intro s t i h hr
  refine ⟨fun hlevel hrelease => ?_, fun hi => ?_⟩
  · have ho : (bodyOf s i).1 ≠ .ownEffectOnly := fun ho =>
      (bodyOf_ownEffectOnly.1 ho).elim hrelease fun ⟨level, hi⟩ => hlevel level hi
    rcases exec_next h with ⟨-, rfl⟩ | ⟨-, -, n, rfl⟩ | ⟨-, -, before, a, after, c, n, -, -, rfl⟩
    · simp at hr
    · rw [State.finish_result] at hr
      split at hr <;> simp at hr
    · simpa [shadowOf] using shadowOf_raiseTransportError ho _
  · simpa [shadowOf] using exec_shadowOf h hi.symm

/-! ## Statuses -/

/-- No operation looks at the status before it. -/
theorem exec_withResult (i : Instr) (s : State) (r : Option Result) : exec i { s with result := r } = exec i s := by
  have hplan : planOf i { s with result := r } = planOf i s := by cases i <;> rfl
  rw [exec_eq_perform, exec_eq_perform, hplan]
  cases planOf i s <;> rfl

/-- Settles O44: the size error is that of a `show` that does not run, and the other statuses are those of the ending. -/
theorem resultsByOperation : Obligations.ResultsByOperation := by
  refine fun s i => ⟨fun t h => ⟨exec_result_ne_configurationError h, ⟨fun hdim => ?_, ?_⟩, fun hhost => ?_,
    fun hrow => ?_⟩, exec_withResult i s⟩
  · rcases exec_result h with ⟨-, hi⟩ | ⟨-, hr | hr⟩
    · exact hi
    · rw [hr] at hdim; split at hdim <;> cases hdim
    · rw [hr] at hdim; cases hdim
  · rintro ⟨image, rfl, hsize⟩
    rcases exec_result h with ⟨hr, -⟩ | ⟨hp, -⟩
    · exact hr
    · obtain ⟨hw, hh, -⟩ := planOf_showImage_go hp
      obtain hne | hne := hsize
      · exact absurd hw hne
      · exact absurd hh hne
  · have ho : (bodyOf s i).1 ≠ .internal := fun ho => bodyOf_internal.1 ho hhost
    rcases exec_result h with ⟨hr, -⟩ | ⟨-, hr | hr⟩ <;> simp [hr, ho]
  · have ho : (bodyOf s i).1 = .internal := bodyOf_internal.2 hrow
    rcases exec_result h with ⟨-, image, rfl, -⟩ | ⟨-, hr | hr⟩
    · exact absurd rfl hrow
    · exact .inl (by simpa [ho] using hr)
    · exact .inr hr

/-! ## Who records which event -/

/-- Settles O50, by the action that records the event: it is one that the operation's sequence may hold. -/
theorem pinOwnership : Obligations.PinOwnership := by
  intro s t i h
  obtain ⟨added, ht, hadded⟩ := exec_trace h
  refine ⟨added, ht, fun e he => ?_⟩
  obtain ⟨a, ha, hrec⟩ := hadded e he
  have hp := permits_of_mem_bodyOf s i a ha
  have hframer (hf : UsesFramer i) : ¬ (i = .reset ∨ i = .release ∨ ∃ level, i = .setBacklight level) := by
    obtain ⟨hreset, hrelease, hlevel⟩ := hf
    rintro (hi | hi | ⟨level, hi⟩)
    · exact hreset hi
    · exact hrelease hi
    · exact hlevel level hi
  cases a with
  | gpioOpen p => exact hp.elim
  | gpioWrite p l =>
    cases p with
    | rst => obtain rfl | rfl := hrec <;> simp [Event.onPin, show i = .reset ∨ i = .init from hp]
    | dc =>
      have hne := hframer hp
      obtain rfl | rfl := hrec <;> simp [Event.onPin, hne]
    | bl => obtain rfl | rfl := hrec <;> simp [Event.onPin, show ∃ level, i = .setBacklight level from hp]
  | spiWrite bytes =>
    have hne := hframer hp
    obtain ⟨dc, rfl | rfl⟩ := hrec <;> simp [Event.onPin, hne]
  | sleep ms => obtain rfl := hrec; simp [Event.onPin]
  | gpioClose p => obtain rfl | rfl := hrec <;> simp [show i = .release from hp]
  | spiClose => obtain rfl | rfl := hrec <;> simp [Event.onPin]
  | _ => exact hrec.elim

end Sys2Proof.Machine
end

section
/-! PROOF. The effects of a full frame, a reset and a release, and the framing of the trace that every step keeps (R43):
a trace is framed event by event, so a framed trace with the events of a complete sequence after it is framed, and so is
every beginning of it, where an error stopped the sequence. -/

namespace Sys2Proof.Machine

/-! ## Effects of the remaining sequences -/

/-- A frame has at least one byte. -/
theorem Config.one_le_frameBytes (c : Config) : 1 ≤ c.frameBytes := by
  obtain ⟨hw, hh, -⟩ := c.wf
  exact Nat.mul_pos (Nat.mul_pos hw hh) (by decide)

theorem Config.one_le_chunkMax (c : Config) : 1 ≤ c.chunkMax := by
  obtain ⟨-, -, -, -, hc, -⟩ := c.wf
  exact hc

theorem chunks_eq_nil_iff {c : Nat} (hc : 1 ≤ c) {buf : List Byte} : chunks c buf.length buf = [] ↔ buf = [] := by
  refine ⟨fun h => ?_, fun h => h ▸ chunks_nil hc⟩
  rw [← chunks_flatten hc buf, h, List.flatten_nil]

/-- A full frame's events; the window is programmed, and its arming used up (R200). -/
theorem effects_frameSeq {c : Config} {buf : List Byte} (hlen : buf.length = c.frameBytes) (s : State) :
    effects (frameSeq c buf) s =
      { s with
        trace := s.trace ++ frameEvents c (fullWindow c) buf, lat := { s.lat with dc := .known .high }
        lastCmd := some c.opRamwr, win := some (fullWindow c), armed := false } := by
  have hne : chunks c.chunkMax buf.length buf ≠ [] := by
    rw [Ne, chunks_eq_nil_iff (Config.one_le_chunkMax c), ← List.length_eq_zero_iff, hlen]
    exact Nat.one_le_iff_ne_zero.1 (Config.one_le_frameBytes c)
  simp [frameSeq, effects_append, effects_windowSeq, effects_streamSeq, ← hlen, hne, frameEvents, streamEvents]

theorem effects_resetSeq (c : Config) (s : State) :
    effects (resetSeq c) s =
      { s with
        trace := s.trace ++ pulseEvents c, lat := { s.lat with rst := .known .high }
        phase := .uninitialized, lastCmd := none, win := none, armed := false } := by
  simp [resetSeq, effects_append, effects_resetBodySeq, effect]

/-- The closes of the handles that are open, in the order of R228. -/
def closeEvents (owned : Handles) : List Event :=
  (if owned.rst then [Event.evClose .rst] else []) ++ (if owned.dc then [Event.evClose .dc] else []) ++
  (if owned.bl then [Event.evClose .bl] else []) ++ (if owned.spi then [Event.evSpiClose] else [])

theorem effects_closeIfOpen {wasOpen : Bool} (p : Pin) {s : State} (h : s.isOpen p = wasOpen) :
    effects (if wasOpen then [.gpioClose p] else []) s =
      { s with trace := s.trace ++ if wasOpen then [Event.evClose p] else [] }.setOpen p false := by
  cases wasOpen with
  | true => rfl
  | false =>
    obtain ⟨cfg, phase, ⟨rst, dc, bl, spi⟩, lat, lastCmd, win, armed, trace, result, seq, requests, answers⟩ := s
    cases p <;> cases h <;> simp [State.setOpen]

theorem effects_spiCloseIfOpen {wasOpen : Bool} {s : State} (h : s.handles.spi = wasOpen) :
    effects (if wasOpen then [.spiClose] else []) s =
      { s with trace := s.trace ++ if wasOpen then [Event.evSpiClose] else [] }.setSpiOpen false := by
  cases wasOpen with
  | true => rfl
  | false =>
    obtain ⟨cfg, phase, ⟨rst, dc, bl, spi⟩, lat, lastCmd, win, armed, trace, result, seq, requests, answers⟩ := s
    cases h
    simp [State.setSpiOpen]

theorem effects_releaseSeq (s : State) :
    effects (releaseSeq s.handles) s =
      { s with trace := s.trace ++ closeEvents s.handles, handles := ⟨false, false, false, false⟩ } := by
  rw [releaseSeq, effects_append, effects_append, effects_append,
    effects_closeIfOpen (wasOpen := s.handles.rst) .rst, effects_closeIfOpen (wasOpen := s.handles.dc) .dc,
    effects_closeIfOpen (wasOpen := s.handles.bl) .bl, effects_spiCloseIfOpen (wasOpen := s.handles.spi)]
  · simp only [closeEvents, ← List.append_assoc]
    rfl
  all_goals rfl

/-- The operations that stream a full frame have a frame of `FRAME_BYTES` bytes (R201). -/
theorem planOf_frame {i : Instr} {s : State} {o : Ending} {acts : List Action} (h : planOf i s = .go o acts)
    {color : U16} {image : Image} (hi : i ∈ [Instr.fill color, .clear, .showImage image]) :
    o = .controllerFacing ∧ ∃ buf, acts = frameSeq s.cfg buf ∧ buf.length = s.cfg.frameBytes := by
  obtain ⟨-, hb⟩ := planOf_go h
  simp only [List.mem_cons, List.not_mem_nil, or_false] at hi
  obtain rfl | rfl | rfl := hi <;> cases hb
  · exact ⟨rfl, _, rfl, solid_length s.cfg color⟩
  · exact ⟨rfl, _, rfl, solid_length s.cfg s.cfg.clearColor⟩
  · obtain ⟨hw, hh, ht⟩ := planOf_showImage_go h
    exact ⟨rfl, _, rfl, convert_length hw hh ht⟩

/-! ## Framing, event by event -/

/-- What R43 (a) to (c) asks of one bus write, by the events before it. -/
def FramedWrite (c : Config) (before : List Event) (dc : Level) (bytes : List Byte) : Prop :=
  (∃ front, before = front ++ [.evWrite .dc dc]) ∧ 1 ≤ bytes.length ∧
  (dc = .low → bytes.length = 1) ∧
  (dc = .high → bytes.length ≤ c.chunkMax ∨ bytes.length = 4 ∧ AtWindowPayload c before)

theorem framed_iff {c : Config} {t : List Event} :
    Framed c t ↔ ∀ before after dc bytes, t = before ++ .evSpi dc bytes :: after → FramedWrite c before dc bytes :=
  Iff.rfl

namespace Framed

variable {c : Config} {t : List Event}

/-- The beginning of a framed trace is framed. -/
theorem of_prefix {t' : List Event} (h : Framed c t) (hp : t' <+: t) : Framed c t' := by
  obtain ⟨tail, rfl⟩ := hp
  exact framed_iff.2 fun before after dc bytes ht => framed_iff.1 h before (after ++ tail) dc bytes (by simp [ht])

theorem append_singleton {e : Event} (h : Framed c t)
    (he : ∀ dc bytes, e = .evSpi dc bytes → FramedWrite c t dc bytes) :
    Framed c (t ++ [e]) := by
  rw [framed_iff] at h ⊢
  intro before after dc bytes ht
  rcases List.eq_nil_or_concat after with rfl | ⟨after, last, rfl⟩
  · obtain ⟨rfl, hlast⟩ := List.append_inj' ht rfl
    exact he dc bytes (List.singleton_inj.1 hlast)
  · have ht' : t ++ [e] = (before ++ .evSpi dc bytes :: after) ++ [last] := by simpa using ht
    obtain ⟨rfl, -⟩ := List.append_inj' ht' rfl
    exact h before after dc bytes rfl

/-- Events that are no bus writes keep a trace framed. -/
theorem append_quiet (h : Framed c t) {events : List Event} (hq : ∀ e ∈ events, ∀ dc bytes, e ≠ .evSpi dc bytes) :
    Framed c (t ++ events) := by
  induction events generalizing t with
  | nil => simpa using h
  | cons e events ih =>
    rw [List.forall_mem_cons] at hq
    obtain ⟨he, hrest⟩ := hq
    rw [List.append_cons]
    exact ih (h.append_singleton fun dc bytes hdc => absurd hdc (he dc bytes)) hrest

/-- A control-line write and the bus write of its level (R43 (a)). -/
theorem append_pair (h : Framed c t) {dc : Level} {bytes : List Byte} (hpos : 1 ≤ bytes.length)
    (hlow : dc = .low → bytes.length = 1)
    (hhigh : dc = .high → bytes.length ≤ c.chunkMax ∨ bytes.length = 4 ∧ AtWindowPayload c (t ++ [.evWrite .dc dc])) :
    Framed c (t ++ [.evWrite .dc dc, .evSpi dc bytes]) := by
  have hwrite : Framed c (t ++ [.evWrite .dc dc]) := h.append_quiet (by simp)
  have hspi := hwrite.append_singleton (e := .evSpi dc bytes) (by rintro _ _ ⟨⟩; exact ⟨⟨t, rfl⟩, hpos, hlow, hhigh⟩)
  rwa [List.append_assoc] at hspi

theorem append_commandEvents (h : Framed c t) (opcode : Byte) : Framed c (t ++ commandEvents opcode) :=
  h.append_pair (by simp) (by simp) (by simp)

theorem append_dataEvents (h : Framed c t) {bytes : List Byte} (hpos : 1 ≤ bytes.length)
    (hmax : bytes.length ≤ c.chunkMax) : Framed c (t ++ dataEvents bytes) :=
  h.append_pair hpos (by simp) fun _ => .inl hmax

/-- A range transaction, with its payload of four bytes in one write (R171, R172; log entry 9). -/
theorem append_rangeEvents (h : Framed c t) {opcode : Byte} (hop : opcode = c.opCaset ∨ opcode = c.opRaset)
    (b₀ b₁ b₂ b₃ : Byte) : Framed c (t ++ commandEvents opcode ++ dataEvents [b₀, b₁, b₂, b₃]) :=
  (h.append_commandEvents opcode).append_pair (by simp) (by simp)
    fun _ => .inr ⟨rfl, t, opcode, hop, by simp [commandEvents]⟩

/-- Blocks of events that each keep a trace framed. -/
theorem append_flatMap {α : Type} {f : α → List Event} {xs : List α}
    (hf : ∀ x ∈ xs, ∀ t, Framed c t → Framed c (t ++ f x)) (h : Framed c t) : Framed c (t ++ xs.flatMap f) := by
  induction xs generalizing t with
  | nil => simpa using h
  | cons x xs ih =>
    rw [List.forall_mem_cons] at hf
    obtain ⟨hx, hxs⟩ := hf
    rw [List.flatMap_cons, ← List.append_assoc]
    exact ih hxs (hx t h)

theorem append_windowEvents (h : Framed c t) (w : Window) : Framed c (t ++ windowEvents c w) := by
  have hcaset := h.append_rangeEvents (.inl rfl) (hi8 w.x0) (lo8 w.x0) (hi8 w.x1) (lo8 w.x1)
  have hraset := hcaset.append_rangeEvents (.inr rfl) (hi8 w.y0) (lo8 w.y0) (hi8 w.y1) (lo8 w.y1)
  have hramwr := hraset.append_commandEvents c.opRamwr
  simpa [commandEvents, dataEvents, windowEvents] using hramwr

/-- A stream's chunks have one byte at least and `CHUNK_MAX` at most. -/
theorem append_streamEvents (h : Framed c t) (buf : List Byte) : Framed c (t ++ streamEvents c buf) :=
  append_flatMap (fun chunk hchunk t ht => by
    obtain ⟨hpos, hmax⟩ := length_of_mem_chunks (Config.one_le_chunkMax c) buf chunk hchunk
    exact ht.append_dataEvents hpos hmax) h

theorem append_frameEvents (h : Framed c t) (w : Window) (buf : List Byte) : Framed c (t ++ frameEvents c w buf) := by
  rw [frameEvents, ← List.append_assoc]
  exact (h.append_windowEvents w).append_streamEvents buf

theorem append_pulseEvents (h : Framed c t) : Framed c (t ++ pulseEvents c) :=
  h.append_quiet (by unfold pulseEvents; split <;> simp)

/-- A table entry's payload is within `CHUNK_MAX` (R7, D7). -/
theorem append_entryEvents (h : Framed c t) {e : Byte × List Byte} (he : e.2.length ≤ c.chunkMax) :
    Framed c (t ++ entryEvents e) := by
  unfold entryEvents
  have hcommand := h.append_commandEvents e.1
  split
  · simpa using hcommand
  · rw [← List.append_assoc]
    exact hcommand.append_dataEvents (List.length_pos_iff.2 ‹_›) he

theorem append_initEvents (h : Framed c t) : Framed c (t ++ initEvents c) := by
  obtain ⟨-, -, -, -, -, -, -, -, htable, -⟩ := c.wf
  have hquiet {t : List Event} (ms : Nat) (ht : Framed c t) : Framed c (t ++ [.evSleep ms]) :=
    ht.append_quiet (by simp)
  simp only [initEvents, ← List.append_assoc]
  exact hquiet _ ((hquiet _ (((((h.append_pulseEvents.append_flatMap
    fun e he _ ht => ht.append_entryEvents (htable e he)).append_commandEvents _).append_commandEvents
      _).append_commandEvents _))).append_commandEvents _)

end Framed

/-! ## The session invariant -/

/-- What a host operation's complete sequence leaves of the session invariant (R43, R152). -/
structure SessionShape (s : State) : Prop where
  phase : s.phase = .uninitialized ∨ s.phase = .displayOn
  framed : Framed s.cfg s.trace
  armed : s.armed = true → s.lastCmd = some s.cfg.opRamwr ∧ s.win ≠ none

theorem sessionShape_frameSeq {s : State} (h : SessionShape s) {buf : List Byte}
    (hlen : buf.length = s.cfg.frameBytes) : SessionShape (effects (frameSeq s.cfg buf) s) := by
  obtain ⟨hphase, hframed, -⟩ := h
  rw [effects_frameSeq hlen]
  exact ⟨hphase, hframed.append_frameEvents _ _, by simp⟩

/-- Every host operation's complete sequence keeps the shape. -/
theorem sessionShape_bodyOf {i : Instr} {s : State} (h : SessionShape s)
    (hhost : (encode s.cfg i).format = .host) (hp : planOf i s = .go (bodyOf s i).1 (bodyOf s i).2) :
    SessionShape (effects (bodyOf s i).2 s) := by
  have hframe {color : U16} {image : Image} (hi : i ∈ [Instr.fill color, .clear, .showImage image]) :
      SessionShape (effects (bodyOf s i).2 s) := by
    obtain ⟨-, buf, hbuf, hlen⟩ := planOf_frame hp hi
    exact hbuf ▸ sessionShape_frameSeq h hlen
  obtain ⟨hphase, hframed, harmed⟩ := h
  cases i with
  | reset =>
    simp only [bodyOf, effects_resetSeq]
    exact ⟨.inl rfl, hframed.append_pulseEvents, by simp⟩
  | init =>
    simp only [bodyOf, effects_initSeq]
    exact ⟨.inr rfl, hframed.append_initEvents, by simp⟩
  | clear => exact hframe (color := 0) (image := ⟨0, 0, []⟩) (by simp)
  | fill color => exact hframe (color := color) (image := ⟨0, 0, []⟩) (by simp)
  | showImage image => exact hframe (color := 0) (image := image) (by simp)
  | setWindow x y w e =>
    simp only [bodyOf, effects_windowSeq]
    exact ⟨hphase, hframed.append_windowEvents _, by simp⟩
  | setBacklight level => exact ⟨hphase, hframed.append_quiet (by simp), harmed⟩
  | release =>
    simp only [bodyOf, effects_releaseSeq]
    exact ⟨hphase, hframed.append_quiet (by simp [closeEvents, or_imp, forall_and]), harmed⟩
  | _ => cases hhost

/-- Where an error stops a host operation, the trace is the beginning of the complete one and the failure. -/
theorem framed_of_failure {i : Instr} {s : State} {before after : List Action} {a : Action} (c : Call)
    (h : Framed s.cfg (effects (bodyOf s i).2 s).trace) (hb : (bodyOf s i).2 = before ++ a :: after) :
    Framed s.cfg ((effects before s).trace ++ [.evFail c]) := by
  rw [hb, effects_append] at h
  obtain ⟨events, hev, -⟩ := effects_trace (a :: after) (effects before s)
  exact (h.of_prefix ⟨events, hev.symm⟩).append_quiet (by simp)

/-- A host operation keeps the shape, errors included. -/
theorem exec_sessionShape {i : Instr} {s t : State} (h : SessionShape s) (hhost : (encode s.cfg i).format = .host)
    (he : exec i s = .next t) : SessionShape t := by
  have hcfg := exec_cfg he
  rcases exec_next he with ⟨-, rfl⟩ | ⟨hp, -, n, rfl⟩ | ⟨hp, -, before, a, after, c, n, hb, hc, rfl⟩
  · exact ⟨h.phase, h.framed, h.armed⟩
  · obtain ⟨hphase, hframed, harmed⟩ := sessionShape_bodyOf h hhost hp
    exact ⟨by simpa using hphase, by simpa using hframed, by simpa using harmed⟩
  · have hframed := framed_of_failure c
      (by simpa [effects_observe State.cfg (fun a _ => effect_cfg a)] using (sessionShape_bodyOf h hhost hp).framed) hb
    by_cases ho : (bodyOf s i).1 = .ownEffectOnly
    · have hshadow := exec_shadowOf he (bodyOf_ownEffectOnly.1 ho)
      simp only [shadowOf, Prod.mk.injEq] at hshadow
      obtain ⟨hphase, hlast, hwin, harmed⟩ := hshadow
      exact ⟨by rw [hphase]; exact h.phase, by rw [hcfg]; simpa [failEffect_trace] using hframed,
        by rw [hlast, hwin, harmed, hcfg]; exact h.armed⟩
    · have hshadow := shadowOf_raiseTransportError ho ((failEffect c (effects before s)).withAnswers (s.answers.drop n))
      simp only [shadowOf, Prod.mk.injEq] at hshadow
      obtain ⟨hphase, -, -, harmed⟩ := hshadow
      exact ⟨.inl hphase, by rw [hcfg]; simpa [failEffect_trace] using hframed, by rw [harmed]; simp⟩

/-- Settles O53, by what a step between operations can do: wait, or execute the host request it has taken. -/
theorem stepKeepsSessionInv : Obligations.StepKeepsSessionInv := by
  intro s t hs h
  obtain ⟨hbetween, hsurface, hphase, hframed, harmed⟩ := hs
  rcases step_next h with ⟨-, -, rfl⟩ | ⟨q, rest, i, -, hq, hd, he⟩ | ⟨r, hr, -⟩
  · exact ⟨hbetween, hsurface, hphase, hframed, harmed⟩
  · rw [hq, List.forall_mem_cons] at hsurface
    obtain ⟨hformat, hrest⟩ := hsurface
    have hhost : (encode s.cfg i).format = .host := by rw [encodeOfDecode s.cfg q i hd, hformat]
    obtain ⟨hphase', hframed', harmed'⟩ :=
      exec_sessionShape (s := { s with requests := rest }) ⟨hphase, hframed, harmed⟩ hhost he
    exact ⟨(exec_seq he).trans hbetween, by rw [exec_requests he]; exact hrest, hphase', hframed', harmed'⟩
  · rw [hbetween] at hr; cases hr

end Sys2Proof.Machine
end

section
/-! PROOF. What each operation does when every call answers `ok` (R121 to R207): its plan runs, and the effect of its
sequence is known. -/

namespace Sys2Proof.Machine

/-- An operation whose plan runs completes with the known effect of its sequence. -/
theorem exec_of_effects {i : Instr} {s u : State} {o : Ending} {acts : List Action} {events : List Event}
    (hp : planOf i s = .go o acts) (ho : s.TransportOk) (hu : effects acts s = u)
    (ht : u.trace = s.trace ++ events) :
    exec i s = .next ((u.begin.withAnswers (s.answers.drop events.length)).finish o) :=
  exec_completes hp ho (by rw [hu, ht]) (by rw [hu])

section
variable {s : State} (hi : s.Idle) (ho : s.TransportOk)
include hi ho

theorem exec_sendCommandSeq {i : Instr} {opcode : Byte}
    (hp : planOf i s = whenLive s (.go .internal (sendCommandSeq opcode))) :
    exec i s = .next { s with
      trace := s.trace ++ commandEvents opcode, lat := { s.lat with dc := .known .low }
      lastCmd := some opcode, armed := false, answers := s.answers.drop 2, result := none } :=
  exec_of_effects (hp.trans (whenLive_of_idle hi _)) ho (effects_sendCommandSeq opcode s) rfl

theorem exec_sendDataSeq {i : Instr} {bytes : List Byte}
    (hp : planOf i s = whenLive s (.go .internal (sendDataSeq bytes))) :
    exec i s = .next { s with
      trace := s.trace ++ dataEvents bytes, lat := { s.lat with dc := .known .high }
      answers := s.answers.drop 2, result := none } :=
  exec_of_effects (hp.trans (whenLive_of_idle hi _)) ho (effects_sendDataSeq bytes s) rfl

/-- A Command and its delay (R149, R150). -/
theorem exec_sendCommandSeq_sleep {i : Instr} {opcode : Byte} {ms : Nat}
    (hp : planOf i s = whenLive s (.go .internal (sendCommandSeq opcode ++ [.sleep ms]))) :
    exec i s = .next { s with
      trace := s.trace ++ commandEvents opcode ++ [.evSleep ms], lat := { s.lat with dc := .known .low }
      lastCmd := some opcode, armed := false, answers := s.answers.drop 3, result := none } := by
  have hu := effects_append (sendCommandSeq opcode) [.sleep ms] s
  rw [effects_sendCommandSeq] at hu
  exact exec_of_effects (hp.trans (whenLive_of_idle hi _)) ho hu (List.append_assoc ..)

/-- A Command and a payload of at least one byte (R171, R172). -/
theorem exec_rangeSeq {i : Instr} {opcode : Byte} {payload : List Byte}
    (hp : planOf i s = whenLive s (.go .internal (sendCommandSeq opcode ++ sendDataSeq payload))) :
    exec i s = .next { s with
      trace := s.trace ++ (commandEvents opcode ++ dataEvents payload), lat := { s.lat with dc := .known .high }
      lastCmd := some opcode, armed := false, answers := s.answers.drop 4, result := none } := by
  have hu := effects_append (sendCommandSeq opcode) (sendDataSeq payload) s
  rw [effects_sendCommandSeq, effects_sendDataSeq, List.append_assoc] at hu
  exact exec_of_effects (hp.trans (whenLive_of_idle hi _)) ho hu rfl

/-- A full frame in `DisplayOn` (R203, R207). -/
theorem exec_frameSeq {i : Instr} {buf : List Byte} {x1 y1 : U16} (hd : s.phase = .displayOn)
    (hx : x1.toNat + 1 = s.cfg.width) (hy : y1.toNat + 1 = s.cfg.height) (hlen : buf.length = s.cfg.frameBytes)
    (hp : planOf i s = whenLive s (whenDisplayOn s (.go .controllerFacing (frameSeq s.cfg buf)))) :
    exec i s = .next (afterFrame ⟨0, x1, 0, y1⟩ buf s) := by
  rw [← fullWindow_eq hx hy]
  rw [whenLive_of_idle hi, whenDisplayOn, if_pos hd] at hp
  exact exec_of_effects hp ho (effects_frameSeq hlen s) rfl

end

/-! ## The Framer and the rows made of it -/

/-- Settles O10, by the effect of the Framer's Command. -/
theorem sendCommandCompletes : Obligations.SendCommandCompletes :=
  fun _ _ hi ho => exec_sendCommandSeq hi ho rfl

/-- Settles O11, by the effect of the Framer's data write: a frame of at least one byte passes the check of U9. -/
theorem sendDataCompletes : Obligations.SendDataCompletes := by
  intro s bytes d hi ho hpos
  have hne : bytes ≠ [] := List.length_pos_iff.1 hpos
  exact ⟨exec_sendDataSeq hi ho (by simp [planOf, planSendData, hne]), exec_sendDataSeq hi ho rfl⟩

/-- Settles O15: three of the five rows are a Command alone, two a Command and its delay. -/
theorem bareCommandsComplete : Obligations.BareCommandsComplete := by
  intro s hi ho
  simp only [List.forall_mem_cons, List.append_nil]
  exact ⟨exec_sendCommandSeq hi ho rfl, exec_sendCommandSeq hi ho rfl, exec_sendCommandSeq hi ho rfl,
    exec_sendCommandSeq_sleep hi ho rfl, exec_sendCommandSeq_sleep hi ho rfl, by simp⟩

/-- The bytes of a coordinate are the digits of its number in base 256 (R62). -/
theorem bigEndian_of_toNat {v : U16} {b₀ b₁ : Byte} (h : v.toNat = b₀.toNat * 256 + b₁.toNat) :
    bigEndian v = [b₀, b₁] := by
  have hv := toNat_eq_hi8_lo8 v
  have hlo := (lo8 v).isLt
  have hb₁ := b₁.isLt
  have hhi : hi8 v = b₀ := BitVec.eq_of_toNat_eq (by omega)
  have hlo : lo8 v = b₁ := BitVec.eq_of_toNat_eq (by omega)
  rw [bigEndian, hhi, hlo]

/-- Settles O16: both rows are a Command and the bytes of the two coordinates in one data write. -/
theorem rangeTransactionsComplete : Obligations.RangeTransactionsComplete := by
  intro s first last b₀ b₁ b₂ b₃ hi ho hfirst hlast
  have hpayload : bigEndian first ++ bigEndian last = [b₀, b₁, b₂, b₃] := by
    rw [bigEndian_of_toNat hfirst, bigEndian_of_toNat hlast]
    rfl
  simp only [List.forall_mem_cons]
  refine ⟨exec_rangeSeq hi ho (payload := [b₀, b₁, b₂, b₃]) ?_,
    exec_rangeSeq hi ho (payload := [b₀, b₁, b₂, b₃]) ?_, by simp⟩
  · rw [planOf, planCaset, casetSeq, hpayload]
  · rw [planOf, planRaset, rasetSeq, hpayload]

/-- Settles O17: without a payload the entry is a Command alone, with one it is a Command and its data write. -/
theorem initEntryCompletes : Obligations.InitEntryCompletes := by
  intro s opcode payload hi ho hmax
  have hp : planOf (.initEntry opcode payload) s = whenLive s (.go .internal (transactionSeq opcode payload)) := by
    rw [planOf, planInitEntry, if_neg (Nat.not_lt.2 hmax)]
  cases payload with
  | nil =>
    simp only [↓reduceIte, List.append_nil]
    exact exec_sendCommandSeq hi ho hp
  | cons b payload =>
    rw [if_neg (List.cons_ne_nil b payload), List.append_assoc]
    exact exec_rangeSeq hi ho (payload := b :: payload) hp

/-- Settles O19, by the effect of a stream: two events and two answers for each chunk, none for an empty buffer. -/
theorem streamCompletes : Obligations.StreamCompletes := by
  intro s buf hi ho
  have hlength : ((chunks s.cfg.chunkMax buf.length buf).flatMap dataEvents).length =
      2 * (chunks s.cfg.chunkMax buf.length buf).length := length_flatMap_of_const fun _ _ => rfl
  have h := exec_of_effects (i := .stream buf) (whenLive_of_idle hi _) ho
    (effects_streamSeq s.cfg buf.length buf s) rfl
  simp only [hlength, chunks_eq_nil_iff (Config.one_le_chunkMax s.cfg)] at h
  exact h

/-! ## The Initializer -/

theorem length_pulseEvents (c : Config) : (pulseEvents c).length = if c.tRstPost = 0 then 5 else 6 := by
  unfold pulseEvents; split <;> rfl

/-- Settles O13, by the effect of the reset pulse. -/
theorem resetCompletes : Obligations.ResetCompletes := by
  intro s hi ho
  have h := exec_of_effects (i := .reset) (whenLive_of_idle hi _) ho (effects_resetSeq s.cfg s) rfl
  rw [length_pulseEvents] at h
  rw [List.append_assoc]
  exact h

/-- Settles O14, by the effect of the whole sequence of `init()`. -/
theorem initCompletes : Obligations.InitCompletes :=
  fun s hi ho => exec_of_effects (i := .init) (whenLive_of_idle hi _) ho (effects_initSeq s.cfg s) rfl

/-! ## The Window Manager and the Pixel Pipeline -/

/-- Settles O18: the ends are 16-bit values, so the window fits, and it is the one the events carry. -/
theorem setWindowCompletes : Obligations.SetWindowCompletes := by
  intro s x y w h x2 y2 hi ho hd hw hh hx2 hy2
  have hx2' := x2.isLt
  have hy2' := y2.isLt
  have hfits : windowFits x y w h = true := (windowFits_iff x y w h).2 ⟨hw, hh, by omega, by omega⟩
  have hwindow : windowOf x y w h = ⟨x, x2, y, y2⟩ := by
    rw [windowOf, ofNat_lastOf hx2, ofNat_lastOf hy2]
  have hp : planOf (.setWindow x y w h) s = .go .controllerFacing (windowSeq s.cfg ⟨x, x2, y, y2⟩) := by
    rw [planOf, planSetWindow, whenLive_of_idle hi, if_pos hfits, whenDisplayOn, if_pos hd, hwindow]
  exact exec_of_effects hp ho (effects_windowSeq s.cfg _ s) rfl

/-- Settles O20, by the effect of a frame of one colour. -/
theorem fillCompletes : Obligations.FillCompletes :=
  fun s color _ _ hi ho hd hx hy => exec_frameSeq hi ho hd hx hy (solid_length s.cfg color) rfl

/-- Settles O21: `clear()` has the plan of that fill. -/
theorem clearCompletes : Obligations.ClearCompletes :=
  fun s x1 y1 => ⟨rfl, fillCompletes s s.cfg.clearColor x1 y1⟩

/-- A frame that holds every packed pixel at its place is the converted image (R69). -/
theorem eq_convert_of_pixels {c : Config} {image : Image} {buf : List Byte} (hw : image.width = c.width)
    (hh : image.height = c.height) (ht : image.pixels.length = image.width * image.height)
    (hlen : buf.length = c.frameBytes)
    (hpix : ∀ x y p, x < c.width → y < c.height → getPixel image x y = some p →
      buf[2 * (y * c.width + x)]? = some (hi8 (pack565 p.r p.g p.b)) ∧
      buf[2 * (y * c.width + x) + 1]? = some (lo8 (pack565 p.r p.g p.b))) : buf = convert c image := by
  have hlen' := convert_length hw hh ht
  refine List.ext_getElem? fun k => ?_
  rcases Nat.lt_or_ge k c.frameBytes with hk | hk
  · have hpixel : k / 2 < c.width * c.height := by unfold Parameters.frameBytes at hk; omega
    have hwidth : 0 < c.width := Nat.pos_of_mul_pos_right (Nat.zero_lt_of_lt hpixel)
    have hx : k / 2 % c.width < c.width := Nat.mod_lt _ hwidth
    have hy : k / 2 / c.width < c.height := Nat.div_lt_of_lt_mul hpixel
    have hplace : k / 2 / c.width * c.width + k / 2 % c.width = k / 2 := Nat.div_add_mod' ..
    obtain ⟨p, hp⟩ := getPixel_of_total (x := k / 2 % c.width) ht (hw.symm ▸ hx) (hh.symm ▸ hy)
    obtain ⟨hhi, hlo⟩ := hpix _ _ p hx hy hp
    have hconvert {j : Nat} (hj : j < 2) := convert_getElem? hw hh ht hx hy hj
    rw [hplace] at hhi hlo hconvert
    rw [pixelBytes_of_getPixel hp] at hconvert
    rcases Nat.mod_two_eq_zero_or_one k with hbit | hbit
    · rw [show k = 2 * (k / 2) by omega, hhi]
      exact (hconvert Nat.zero_lt_two).symm
    · rw [show k = 2 * (k / 2) + 1 by omega, hlo]
      exact (hconvert Nat.one_lt_two).symm
  · rw [List.getElem?_eq_none (hlen ▸ hk), List.getElem?_eq_none (hlen' ▸ hk)]

/-- Settles O22: the frame is the converted image, and `show` of a total image of the display's size streams it. -/
theorem showCompletes : Obligations.ShowCompletes := by
  intro s image buf x1 y1 hi ho hd hw hh ht hx hy hlen hpix
  have htotal : imageTotal image = true := by simp [imageTotal, ht]
  obtain rfl := eq_convert_of_pixels hw hh ht hlen hpix
  exact exec_frameSeq hi ho hd hx hy hlen (by simp only [planOf, planShow, hw, hh, htotal, and_self, if_true])

end Sys2Proof.Machine
end

section
/-! PROOF. The session life cycle (R40, R220 to R230), what a failed call leaves (R246), and the checks before an
operation's first call (R249): each check's refusal, in its order. -/

namespace Sys2Proof.Machine

/-! ## Construction and the reset state -/

/-- Settles O5: the fields of the reset state are written out. -/
theorem resetValues : Obligations.ResetValues := ⟨rfl, rfl, rfl, rfl, rfl, rfl, rfl⟩

/-- Settles O6: three openings, each answered `ok`. -/
theorem constructSucceeds : Obligations.ConstructSucceeds := by
  intro c requests answers ho
  obtain ⟨events, ht, hr⟩ := runActions_of_transportOk (acts := [.gpioOpen .rst, .gpioOpen .dc, .gpioOpen .bl])
    (s := unopened c requests answers) ho rfl
  have hevents : [.evOpen .rst, .evOpen .dc, .evOpen .bl] = events := ht
  rw [construct_toParameters, constructWith, Bool.and_self, if_pos rfl, hr, ← hevents]
  rfl

/-- A close of an open pin during the clean-up records itself or its failure, whichever way it answers (R226). -/
theorem closeQuietly_cons {p : Pin} {pins : List Pin} {s : State} (hopen : s.isOpen p = true)
    (hlive : s.TransportLive) :
    ∃ e t, (e = .evClose p ∨ e = .evFail (.gpioClose p)) ∧ closeQuietly (p :: pins) s = closeQuietly pins t ∧
      t.trace = s.trace ++ [e] ∧ t.TransportLive ∧ ∀ q, t.isOpen q = if p = q then false else s.isOpen q := by
  have hsuffix {n : Nat} : .noReturn ∉ s.answers.drop n := fun h => hlive (List.mem_of_mem_drop h)
  rw [closeQuietly, if_pos hopen]
  rcases act_cases (.gpioClose p) s with ⟨n, h⟩ | ⟨c, n, hc, -, h⟩ | ⟨-, hno, -⟩ | ⟨⟨bytes, hb⟩, -⟩
  · simp only [show gpioClose p s = _ from h]
    exact ⟨.evClose p, _, .inl rfl, rfl, by simp [effect], hsuffix, by simp [effect]⟩
  · cases hc
    simp only [show gpioClose p s = _ from h]
    exact ⟨.evFail (.gpioClose p), _, .inr rfl, rfl, by simp [failEffect], hsuffix, by simp [failEffect]⟩
  · exact absurd hno hlive
  · cases hb

theorem closeQuietly_of_not_open {p : Pin} {pins : List Pin} {s : State} (h : s.isOpen p = false) :
    closeQuietly (p :: pins) s = closeQuietly pins s := by
  rw [closeQuietly, if_neg (by simp [h])]

/-- A construction whose openings fail ends with the trace of its clean-up. -/
theorem constructWith_of_err {c : Config} {requests : List Request} {answers : List Answer} {u t : State}
    (hopen : runActions [.gpioOpen .rst, .gpioOpen .dc, .gpioOpen .bl] (unopened c requests answers) = .err u)
    (hclose : closeQuietly [.bl, .dc, .rst] u = .ok t) :
    constructWith c true true requests answers = .failed .transportError t.trace := by
  rw [constructWith, Bool.and_self, if_pos rfl, hopen]
  simp only [hclose]

/-- Settles O8, by the opening that fails: the pins open by then are closed, the last one first. -/
theorem constructUnwinds : Obligations.ConstructUnwinds := by
  intro c requests rest hlive
  simp only [construct_toParameters]
  refine ⟨rfl, ?_, ?_⟩
  · obtain ⟨u, hu, htrace, hanswers, hrst, hdc, hbl⟩ : ∃ u : State,
        runActions [.gpioOpen .rst, .gpioOpen .dc, .gpioOpen .bl] (unopened c requests (.ok :: .error :: rest)) = .err u ∧
        u.trace = [.evOpen .rst, .evFail (.gpioOpen .dc)] ∧ u.answers = rest ∧
        u.isOpen .rst = true ∧ u.isOpen .dc = false ∧ u.isOpen .bl = false := ⟨_, rfl, rfl, rfl, rfl, rfl, rfl⟩
    obtain ⟨e, t, he, hclose, ht, -, -⟩ := closeQuietly_cons (pins := []) hrst (by rwa [State.TransportLive, hanswers])
    refine ⟨e, ?_, he⟩
    rw [← closeQuietly_of_not_open hdc, ← closeQuietly_of_not_open hbl] at hclose
    rw [constructWith_of_err hu hclose, ht, htrace]
    rfl
  · obtain ⟨u, hu, htrace, hanswers, hrst, hdc, hbl⟩ : ∃ u : State,
        runActions [.gpioOpen .rst, .gpioOpen .dc, .gpioOpen .bl]
          (unopened c requests (.ok :: .ok :: .error :: rest)) = .err u ∧
        u.trace = [.evOpen .rst, .evOpen .dc, .evFail (.gpioOpen .bl)] ∧ u.answers = rest ∧
        u.isOpen .rst = true ∧ u.isOpen .dc = true ∧ u.isOpen .bl = false := ⟨_, rfl, rfl, rfl, rfl, rfl, rfl⟩
    obtain ⟨e₁, v, he₁, hclose₁, hv, hvlive, hvopen⟩ := closeQuietly_cons (pins := [.rst]) hdc
      (by rwa [State.TransportLive, hanswers])
    obtain ⟨e₂, t, he₂, hclose₂, ht, -, -⟩ := closeQuietly_cons (pins := []) ((hvopen .rst).trans hrst) hvlive
    refine ⟨e₁, e₂, ?_, he₁, he₂⟩
    rw [hclose₂, ← closeQuietly_of_not_open hbl] at hclose₁
    rw [constructWith_of_err hu hclose₁, ht, hv, htrace]
    rfl

/-- The reset state meets the session invariant: its trace holds no bus write. -/
theorem sessionInv_reset : SessionInv State.reset where
  between := rfl
  surface := by simp [State.reset]
  phase := .inl rfl
  framed := by
    have hnil : Framed State.reset.cfg [] := framed_iff.2 fun before after dc bytes h => by simp at h
    exact hnil.append_quiet (events := State.reset.trace) (by simp [State.reset])
  armed := by simp [State.reset]

/-- Settles O9, invariant by invariant. -/
theorem resetMeetsInvariants : Obligations.ResetMeetsInvariants :=
  ⟨sessionInv_reset,
    ⟨fun p => by cases p <;> rfl, fun p => by cases p <;> rfl, rfl⟩,
    ⟨rfl, fun p => by cases p <;> rfl, rfl⟩⟩

theorem runActions_ok {acts : List Action} {s t : State} (h : runActions acts s = .ok t) :
    ∃ n, t = (effects acts s).withAnswers (s.answers.drop n) := by
  rcases runActions_cases acts s with ⟨n, h'⟩ | ⟨_, _, _, _, _, _, _, _, h'⟩ | ⟨_, _, _, _, _, _, _, h'⟩ |
    ⟨_, _, _, _, _, _, h'⟩ <;> rw [h'] at h <;> cases h
  exact ⟨n, rfl⟩

/-- A session that construction makes has the parameters it was made from. -/
theorem constructWith_live {c : Config} {spi gpio : Bool} {requests : List Request} {answers : List Answer} {s : State}
    (h : constructWith c spi gpio requests answers = .live s) : s.cfg = c := by
  unfold constructWith at h
  split at h
  · split at h
    · cases h
      obtain ⟨n, rfl⟩ := runActions_ok ‹_›
      exact effects_observe State.cfg (fun a _ => effect_cfg a) (unopened c requests answers)
    · split at h <;> cases h
    · cases h
  · cases h

/-- Settles O60: construction looks at R7 first, and keeps the parameters it was given. -/
theorem inadmissibleParametersAreRefused : Obligations.InadmissibleParametersAreRefused := by
  intro p spi gpio requests answers
  refine ⟨fun h => construct_of_not_wf h spi gpio requests answers, fun s h => ?_⟩
  by_cases hwf : p.Wf
  · rw [construct, dif_pos hwf] at h
    exact ⟨hwf, by rw [constructWith_live h]⟩
  · rw [construct_of_not_wf hwf] at h
    cases h

/-! ## An operation whose calls answer `ok` up to one that fails -/

/-- The calls of a sequence's beginning, all answered `ok`, take one answer each. -/
theorem runActions_append_of_oks {known : Bool} {xs ys : List Action} {s : State} {events : List Event}
    {rest : List Answer} (hr : dcReady known xs = true) (hs : known = true → s.lat.dc ≠ .unknown)
    (ht : (effects xs s).trace = s.trace ++ events) (ha : s.answers = List.replicate events.length .ok ++ rest) :
    runActions (xs ++ ys) s = runActions ys ((effects xs s).withAnswers rest) := by
  induction xs generalizing known s events with
  | nil =>
    obtain rfl : events = [] := by simpa using ht
    obtain rfl : s.answers = rest := by simpa using ha
    simp
  | cons a xs ih =>
    have hd : ∀ bytes, a = .spiWrite bytes → s.lat.dc ≠ .unknown := by
      rintro bytes rfl
      simp only [dcReady, Bool.and_eq_true] at hr
      exact hs hr.1
    obtain ⟨k, hk, hs'⟩ := effect_dc_known hr hs
    rw [List.cons_append, runActions]
    cases hcall : a.isCall with
    | false =>
      obtain ⟨hact, htrace⟩ := act_not_call s hcall
      simp only [hact]
      exact ih hk hs' (by rw [htrace]; exact ht) (by rw [effect_answers]; exact ha)
    | true =>
      obtain ⟨e, he, -, hok, -⟩ := act_answer hcall hd
      obtain ⟨events', hevents', -⟩ := effects_trace xs (effect a s)
      obtain rfl : e :: events' = events :=
        List.append_cancel_left (as := s.trace) (by rw [← ht, effects_cons, hevents', he]; simp)
      simp only [hok (List.replicate events'.length .ok ++ rest) (by simpa [List.replicate_succ] using ha)]
      rw [ih (events := events') hk (by simpa using hs') (by simp [effects_withAnswers, hevents'])
        (by simp)]
      simp [effects_withAnswers]

/-- The beginning of a ready sequence is ready. -/
theorem dcReady_of_append {known : Bool} {xs ys : List Action} (h : dcReady known (xs ++ ys) = true) :
    dcReady known xs = true := by
  induction xs generalizing known with
  | nil => rfl
  | cons a xs ih =>
    cases a with
    | spiWrite bytes =>
      simp only [List.cons_append, dcReady, Bool.and_eq_true] at h ⊢
      obtain ⟨hknown, hrest⟩ := h
      exact ⟨hknown, ih hrest⟩
    | gpioWrite p l => cases p <;> exact ih h
    | gpioOpen p => cases p <;> exact ih h
    | _ => exact ih h

theorem isCall_of_failingCall {a : Action} {s : State} {c : Call} (h : failingCall a s = some c) :
    a.isCall = true := by
  cases a with
  | gpioOpen _ | gpioWrite _ _ | spiWrite _ | gpioClose _ | spiClose => rfl
  | _ => cases h

/-- A call that can fail does, where the next answer is `error`. -/
theorem act_error {a : Action} {s : State} {c : Call} {rest : List Answer} (hc : failingCall a s = some c)
    (ha : s.answers = .error :: rest) : act a s = .err ((failEffect c s).withAnswers rest) := by
  have hd : ∀ bytes, a = .spiWrite bytes → s.lat.dc ≠ .unknown := by
    rintro bytes rfl
    obtain ⟨dc, hdc, -⟩ := failingCall_spiWrite hc
    simp [hdc]
  obtain ⟨e, he, -, -, -, ⟨⟨ms, rfl⟩, -⟩ | ⟨c', -, hc', herror⟩⟩ := act_answer (isCall_of_failingCall hc) hd
  · cases a with
    | sleep ms => cases hc
    | spiWrite bytes =>
      obtain ⟨dc, hdc, -⟩ := failingCall_spiWrite hc
      simp [effect, hdc] at he
    | _ => simp [effect] at he
  · obtain rfl := Option.some.inj (hc'.symm.trans hc)
    exact herror rest ha

theorem planOf_withAnswers (i : Instr) (s : State) (x : List Answer) : planOf i (s.withAnswers x) = planOf i s := by
  cases i <;> rfl

/-- An operation ends in `TransportError` at the call that is answered `error`, with the effects of the actions before
it and of the failed call (R245, R246). -/
theorem exec_error {i : Instr} {s : State} {o : Ending} {before after : List Action} {a : Action} {c : Call}
    {rest : List Answer} (events : List Event) (hp : planOf i s = .go o (before ++ a :: after))
    (ht : (effects before s).trace = s.trace ++ events) (hc : failingCall a (effects before s) = some c) :
    exec i (s.withAnswers (List.replicate events.length .ok ++ .error :: rest)) =
      .next (raiseTransportError o { failEffect c (effects before s) with
        trace := s.trace ++ (events ++ [.evFail c]), answers := rest }) := by
  have hend : { failEffect c (effects before s) with trace := s.trace ++ (events ++ [.evFail c]), answers := rest } =
      (failEffect c (effects before s)).withAnswers rest := by
    rw [← List.append_assoc, ← ht, ← failEffect_trace]
    rfl
  rw [hend]
  obtain ⟨-, hb⟩ := planOf_go hp
  have hready := dcReady_bodyOf s i
  rw [hb] at hready
  have hrun := runActions_append_of_oks (ys := a :: after) (rest := .error :: rest)
    (s := (s.withAnswers (List.replicate events.length .ok ++ .error :: rest)).begin) (dcReady_of_append hready)
    (by simp) (by rw [effects_begin, effects_withAnswers]; exact ht) rfl
  rw [effects_begin, effects_withAnswers] at hrun
  have hact := act_error
    (s := ((effects before s).withAnswers (List.replicate events.length .ok ++ .error :: rest)).begin.withAnswers
      (.error :: rest))
    (by rw [failingCall_withAnswers, failingCall_begin, failingCall_withAnswers]; exact hc) rfl
  rw [failEffect_withAnswers, failEffect_begin, failEffect_withAnswers] at hact
  rw [exec_eq_perform, planOf_withAnswers, hp]
  simp only [perform, hrun, runActions, hact]
  exact congrArg _ (raiseTransportError_begin o ((failEffect c (effects before s)).withAnswers rest))

/-! ## Failed calls of the Framer -/

/-- Settles O12: the call that fails is the first or the second of the two, after the assignments before it. -/
theorem framerFailures : Obligations.FramerFailures := by
  intro s opcode bytes rest hi hpos
  have hcommand : planOf (.sendCommand opcode) s = .go .internal (sendCommandSeq opcode) := whenLive_of_idle hi _
  have hdata : planOf (.sendData bytes) s = .go .internal (sendDataSeq bytes) := by
    rw [planOf, planSendData, whenLive_of_idle hi, if_neg (by simpa using List.length_pos_iff.1 hpos)]
  exact ⟨exec_error (before := [.disarm]) [] hcommand (List.append_nil _).symm rfl,
    exec_error (before := [.disarm, .gpioWrite .dc .low]) [.evWrite .dc .low] hcommand rfl rfl,
    exec_error (before := []) [] hdata (List.append_nil _).symm rfl,
    exec_error (before := [.gpioWrite .dc .high]) [.evWrite .dc .high] hdata rfl rfl⟩

/-! ## The backlight and the release -/

/-- Settles O23: one write of `BL`, of the level that the sign of the operand selects. -/
theorem setBacklightDrivesBl : Obligations.SetBacklightDrivesBl := by
  intro s level l rest hi hl
  have hlevel : backlightLevel level = l := by
    rw [backlightLevel]
    split
    · exact (hl.2 ‹_›).symm
    · cases l with
      | low => rfl
      | high => exact absurd (hl.1 rfl) ‹_›
  have hp : planOf (.setBacklight level) s = .go .ownEffectOnly [.gpioWrite .bl l] := by
    rw [planOf, planSetBacklight, whenLive_of_idle hi, hlevel]
  refine ⟨rfl, fun ho => exec_of_effects (events := [.evWrite .bl l]) hp ho rfl rfl, fun hans => ?_⟩
  have h := exec_error (before := []) (rest := rest) [] hp (List.append_nil _).symm rfl
  rw [show List.replicate ([] : List Event).length Answer.ok ++ .error :: rest = s.answers from hans.symm] at h
  exact h

/-- Settles O24, by the effect of the closes of the handles that are open. -/
theorem releaseCompletes : Obligations.ReleaseCompletes :=
  fun s hi ho => ⟨closeEvents s.handles, rfl,
    exec_of_effects (i := .release) (whenIdle_of_idle hi _) ho (effects_releaseSeq s) rfl⟩

theorem handles_of_live {s : State} (h : s.live = true) : s.handles = ⟨true, true, true, true⟩ := by
  simp only [State.live, Bool.and_eq_true] at h
  obtain ⟨⟨⟨hrst, hdc⟩, hbl⟩, hspi⟩ := h
  exact (Handles.mk.injEq ..).mpr ⟨hrst, hdc, hbl, hspi⟩

/-- Settles O25: the four closes of a live session in their order, one of them the failing call. -/
theorem releaseFailures : Obligations.ReleaseFailures := by
  intro s rest ⟨hseq, hlive⟩
  have hhandles := handles_of_live hlive
  have hp : planOf .release s =
      .go .ownEffectOnly [.gpioClose .rst, .gpioClose .dc, .gpioClose .bl, .spiClose] := by
    rw [planOf, planRelease, whenIdle_of_idle hseq, hhandles]
    rfl
  obtain ⟨cfg, phase, handles, lat, lastCmd, win, armed, trace, result, seq, requests, answers⟩ := s
  obtain rfl : handles = ⟨true, true, true, true⟩ := hhandles
  simp only [List.forall_mem_cons]
  exact ⟨exec_error (before := []) [] hp (List.append_nil _).symm rfl,
    exec_error (before := [.gpioClose .rst]) [.evClose .rst] hp rfl rfl,
    exec_error (before := [.gpioClose .rst, .gpioClose .dc]) [.evClose .rst, .evClose .dc] hp
      (List.append_assoc ..) rfl,
    exec_error (before := [.gpioClose .rst, .gpioClose .dc, .gpioClose .bl])
      [.evClose .rst, .evClose .dc, .evClose .bl] hp (by simp [effect]) rfl, by simp⟩

theorem exec_release_of_released {s : State} (hseq : s.seq = none) (hh : s.handles = ⟨false, false, false, false⟩) :
    exec .release s = .next (s.report .ok) := by
  have hp : planOf .release s = .go .ownEffectOnly [] := by
    rw [planOf, planRelease, whenIdle_of_idle hseq, hh]
    rfl
  rw [exec_eq_perform, hp]
  rfl

/-- Settles O26: a release that succeeded leaves no handle open, so the next one has no call to make. -/
theorem releaseIsIdempotent : Obligations.ReleaseIsIdempotent := by
  intro s t answers h hr
  obtain ⟨-, hseq, n, ht⟩ := exec_ok h hr
  have hhandles : t.handles = ⟨false, false, false, false⟩ := by
    rw [ht, bodyOf, effects_releaseSeq]
    rfl
  have hreport : { t with answers := answers }.report .ok = { t with answers := answers } := by
    rw [State.report, ← hr]
  have hagain := exec_release_of_released (s := { t with answers := answers }) ((exec_seq h).trans hseq) hhandles
  rw [hagain, hreport]

/-! ## Refusals -/

/-- Every operation's plan is checked for its turn first (R258). -/
theorem planOf_eq_whenIdle (i : Instr) (s : State) : ∃ p, planOf i s = whenIdle s p := by
  cases i <;> exact ⟨_, rfl⟩

/-- Every operation but `release()` is checked for a live session next (R28, R249 (1)). -/
theorem planOf_eq_whenLive {i : Instr} (hi : i ≠ .release) (s : State) : ∃ p, planOf i s = whenLive s p := by
  cases i with
  | release => exact absurd rfl hi
  | _ => exact ⟨_, rfl⟩

theorem exec_of_refuse {i : Instr} {s : State} {r : Refusal} (h : planOf i s = .refuse r) :
    exec i s = .refused r := by
  rw [exec_eq_perform, h, perform]

/-- Settles O27, by the two checks that come before all others. -/
theorem outOfTurnIsRefused : Obligations.OutOfTurnIsRefused := by
  refine fun s i => ⟨fun hseq => exec_of_refuse ?_, fun hseq hlive hi => exec_of_refuse ?_⟩
  · obtain ⟨p, hp⟩ := planOf_eq_whenIdle i s
    rw [hp, whenIdle, if_pos (Option.isSome_iff_ne_none.2 hseq)]
  · obtain ⟨p, hp⟩ := planOf_eq_whenLive hi s
    rw [hp, whenLive, whenIdle_of_idle hseq, hlive]
    rfl

/-- Settles O28: each of the four violations fails the test of the hard constraints. -/
theorem windowConstraintIsRefused : Obligations.WindowConstraintIsRefused := by
  intro s x y w h hi hbad
  have hfits : windowFits x y w h ≠ true := by
    rw [Ne, windowFits_iff]
    omega
  exact exec_of_refuse (by rw [planOf, planSetWindow, whenLive_of_idle hi, if_neg hfits])

/-- Settles O29: the four operations get past the earlier checks and meet the one of the phase. -/
theorem pixelBeforeDisplayOnIsRefused : Obligations.PixelBeforeDisplayOnIsRefused := by
  intro s color x y w h image hi hphase hiw hih hw hh hx hy
  have hfits : windowFits x y w h = true := (windowFits_iff x y w h).2 ⟨hw, hh, hx, hy⟩
  have hdisplay (p : Plan) : whenDisplayOn s p = .refuse .pixelBeforeDisplayOn := if_neg hphase
  simp only [List.forall_mem_cons]
  refine ⟨exec_of_refuse ?_, exec_of_refuse ?_, exec_of_refuse ?_, exec_of_refuse ?_, by simp⟩
  · rw [planOf, planFill, whenLive_of_idle hi, hdisplay]
  · rw [planOf, planClear, planFill, whenLive_of_idle hi, hdisplay]
  · rw [planOf, planShow, whenLive_of_idle hi, if_pos ⟨hiw, hih⟩, hdisplay]
  · rw [planOf, planSetWindow, whenLive_of_idle hi, if_pos hfits, hdisplay]

/-- Settles O30: the size check ends the operation before its sequence is looked at. -/
theorem showSizeMismatch : Obligations.ShowSizeMismatch := by
  intro s image hi hsize
  have hp : planOf (.showImage image) s = .fail .dimensionMismatchError := by
    rw [planOf, planShow, whenLive_of_idle hi, if_neg (by omega)]
  rw [exec_eq_perform, hp]
  rfl

/-- Settles O31, check by check. -/
theorem illFormedOperandsAreRefused : Obligations.IllFormedOperandsAreRefused := by
  intro s opcode payload image hi
  refine ⟨exec_of_refuse ?_, fun hlong => exec_of_refuse ?_, fun hw hh hphase hlength => exec_of_refuse ?_⟩
  · rw [planOf, planSendData, whenLive_of_idle hi]
    rfl
  · rw [planOf, planInitEntry, whenLive_of_idle hi, if_pos hlong]
  · have htotal : imageTotal image ≠ true := by simpa [imageTotal] using hlength
    rw [planOf, planShow, whenLive_of_idle hi, if_pos ⟨hw, hh⟩, whenDisplayOn, if_pos hphase, if_neg htotal]

/-! ## The step -/

/-- Settles O51: with no position held, the step looks at the next request and its decoding. -/
theorem stepRunsTheRequest : Obligations.StepRunsTheRequest := by
  intro s q rest i hseq
  refine ⟨fun hq hd => ?_, fun hq hd => ?_, fun hq => ?_⟩
  · simp only [step, hseq, hq, hd]
  · simp only [step, hseq, hq, hd]
  · simp only [step, hseq, hq]

end Sys2Proof.Machine
end

section
/-! PROOF. What a completed operation has appended, counted: the bytes of a frame (R201, R210), the wire view of a fill
(R204, R126), the events and the delays of `init()` (R154, R295). -/

namespace Sys2Proof.Machine

/-! ## The bytes of a frame -/

theorem dataBytesOf_append (xs ys : List Event) : dataBytesOf (xs ++ ys) = dataBytesOf xs ++ dataBytesOf ys :=
  List.flatMap_append

theorem dataBytesOf_dataEvents (bytes : List Byte) : dataBytesOf (dataEvents bytes) = bytes := by
  simp [dataBytesOf, dataEvents]

/-- The data bytes of a run of data writes are the writes' bytes in order. -/
theorem dataBytesOf_flatMap_dataEvents (bs : List (List Byte)) : dataBytesOf (bs.flatMap dataEvents) = bs.flatten := by
  induction bs with
  | nil => rfl
  | cons b bs ih => rw [List.flatMap_cons, dataBytesOf_append, dataBytesOf_dataEvents, ih, List.flatten_cons]

theorem dataBytesOf_streamEvents (c : Config) (buf : List Byte) : dataBytesOf (streamEvents c buf) = buf := by
  rw [streamEvents, dataBytesOf_flatMap_dataEvents, chunks_flatten (Config.one_le_chunkMax c)]

theorem length_dataEvents (bytes : List Byte) : (dataEvents bytes).length = 2 := rfl

theorem length_streamEvents (c : Config) (buf : List Byte) :
    (streamEvents c buf).length = 2 * chunkCount c.chunkMax buf.length := by
  rw [streamEvents, length_flatMap_of_const fun b _ => length_dataEvents b, chunks_length]

/-- A stream's events are control-line writes and data writes within `CHUNK_MAX`. -/
theorem mem_streamEvents {c : Config} {buf : List Byte} {e : Event} (h : e ∈ streamEvents c buf) :
    e = .evWrite .dc .high ∨ ∃ bytes, e = .evSpi .high bytes ∧ bytes.length ≤ c.chunkMax := by
  obtain ⟨chunk, hchunk, he⟩ := List.mem_flatMap.1 h
  obtain ⟨-, hmax⟩ := length_of_mem_chunks (Config.one_le_chunkMax c) buf chunk hchunk
  simp only [dataEvents, List.mem_cons, List.not_mem_nil, or_false] at he
  exact he.imp id fun he => ⟨chunk, he, hmax⟩

/-- A frame operation that returned `Ok` has appended its frame's events. -/
theorem exec_frame_trace {i : Instr} {s t : State} (h : exec i s = .next t) (hr : t.result = some .ok)
    {color : U16} {image : Image} (hi : i ∈ [Instr.fill color, .clear, .showImage image]) :
    ∃ buf, buf.length = s.cfg.frameBytes ∧ t.trace = s.trace ++ frameEvents s.cfg (fullWindow s.cfg) buf := by
  obtain ⟨hp, -, n, rfl⟩ := exec_ok h hr
  obtain ⟨-, buf, hbuf, hlen⟩ := planOf_frame hp hi
  refine ⟨buf, hlen, ?_⟩
  rw [hbuf, effects_frameSeq hlen]
  simp

/-- Settles O39: the frame's events are the ten of the window and those of the stream of the frame's bytes. -/
theorem frameByteTotals : Obligations.FrameByteTotals := by
  intro s t color image i hi h hr
  obtain ⟨buf, hlen, ht⟩ := exec_frame_trace h hr hi
  refine ⟨windowEvents s.cfg (fullWindow s.cfg), streamEvents s.cfg buf, ?_, rfl, rfl, ?_, ?_,
    fun e he => mem_streamEvents he⟩
  · rw [ht, frameEvents, List.append_assoc]
  · rw [length_streamEvents, hlen, chunkCount]
  · rw [dataBytesOf_streamEvents, hlen, Parameters.frameBytes]

/-! ## The wire view of a fill -/

theorem wire_append (xs ys : List Event) : wire (xs ++ ys) = wire xs ++ wire ys := List.flatMap_append

theorem wire_dataEvents (bytes : List Byte) : wire (dataEvents bytes) = bytes.map (.wByte .high) := by
  simp [wire, dataEvents, wireOf]

/-- On the wire a run of data writes is its bytes with the control line high, wherever they were cut (R126). -/
theorem wire_flatMap_dataEvents (bs : List (List Byte)) :
    wire (bs.flatMap dataEvents) = bs.flatten.map (.wByte .high) := by
  induction bs with
  | nil => rfl
  | cons b bs ih => rw [List.flatMap_cons, wire_append, wire_dataEvents, ih, List.flatten_cons, List.map_append]

theorem wire_streamEvents (c : Config) (buf : List Byte) : wire (streamEvents c buf) = buf.map (.wByte .high) := by
  rw [streamEvents, wire_flatMap_dataEvents, chunks_flatten (Config.one_le_chunkMax c)]

/-- Settles O40: the wire view of the window's ten events and of the stream of the solid frame. -/
theorem wireViewOfFill : Obligations.WireViewOfFill := by
  intro s t color x1 y1 hx hy h hr
  obtain ⟨-, -, n, rfl⟩ := exec_ok h hr
  simp only [bodyOf, effects_frameSeq (solid_length s.cfg color), fullWindow_eq hx hy]
  simp only [State.finish_trace, State.withAnswers_trace, State.begin_trace, frameEvents, wire_append,
    wire_streamEvents, List.append_assoc]
  obtain ⟨hhi, hlo⟩ : hi8 0#16 = 0#8 ∧ lo8 0#16 = 0#8 := by decide
  simp [wire, windowEvents, wireOf, solid, bigEndian, hhi, hlo]

/-! ## The events and delays of `init()` -/

theorem totalSleep_append (xs ys : List Event) : totalSleep (xs ++ ys) = totalSleep xs + totalSleep ys := by
  simp [totalSleep]

theorem totalSleep_commandEvents (opcode : Byte) : totalSleep (commandEvents opcode) = 0 := rfl

theorem totalSleep_evSleep (ms : Nat) : totalSleep [.evSleep ms] = ms := rfl

theorem totalSleep_pulseEvents (c : Config) : totalSleep (pulseEvents c) = 2 * c.tRst + c.tRstPost := by
  unfold pulseEvents
  split <;> simp [totalSleep, *] <;> omega

/-- No table entry has a delay (R146). -/
theorem totalSleep_table (table : List (Byte × List Byte)) : totalSleep (table.flatMap entryEvents) = 0 := by
  induction table with
  | nil => rfl
  | cons e table ih =>
    have hentry : totalSleep (entryEvents e) = 0 := by unfold entryEvents; split <;> rfl
    rw [List.flatMap_cons, totalSleep_append, hentry, ih]

theorem length_entryEvents (e : Byte × List Byte) :
    (entryEvents e).length = 2 + 2 * (if e.2 = [] then 0 else 1) := by
  unfold entryEvents; split <;> rfl

/-- Settles O41: the events of `init()`, block by block. -/
theorem initCounts : Obligations.InitCounts := by
  intro s t h hr
  obtain ⟨-, -, n, rfl⟩ := exec_ok h hr
  simp only [bodyOf, effects_initSeq]
  constructor
  · have hpulse : (pulseEvents s.cfg).length = 5 + (if 0 < s.cfg.tRstPost then 1 else 0) := by
      unfold pulseEvents
      rcases Nat.eq_zero_or_pos s.cfg.tRstPost with hz | hz
      · simp [hz]
      · simp [hz, hz.ne']
    simp [initEvents, hpulse, commandEvents, List.length_flatMap, length_entryEvents]
    omega
  · simp only [State.finish_trace, State.withAnswers_trace, State.begin_trace, initEvents, totalSleep_append,
      totalSleep_pulseEvents, totalSleep_table, totalSleep_commandEvents, totalSleep_evSleep]
    omega

end Sys2Proof.Machine
end

section
/-! PROOF. Where an answer stops an operation (R19, R243 to R249): the run of its sequence against the error-free run of
the same sequence, call by call. -/

namespace Sys2Proof.Machine

/-! ## The error-free run -/

/-- The run of an operation against a transport that answers `ok` to every call. -/
theorem exec_withoutAnswers {i : Instr} {s : State} {o : Ending} {acts : List Action} (hp : planOf i s = .go o acts) :
    exec i { s with answers := [] } = .next (((effects acts s).begin.withAnswers []).finish o) := by
  obtain ⟨events, -, h⟩ := exec_of_transportOk (s := s.withAnswers []) ((planOf_withAnswers i s []).trans hp)
    (fun _ hx => nomatch hx)
  rw [effects_withAnswers, State.withAnswers_answers, List.drop_nil] at h
  exact h

/-- An operation whose error-free run records anything has a plan that runs, and that run is its sequence's effect. -/
theorem planOf_go_of_trace {i : Instr} {s u : State} {completed missing : List Event} {e : Event}
    (h : exec i { s with answers := [] } = .next u) (ht : u.trace = s.trace ++ completed ++ e :: missing) :
    ∃ o acts, planOf i s = .go o acts ∧ (effects acts s).trace = s.trace ++ completed ++ e :: missing := by
  have hexec : exec i { s with answers := [] } = perform (planOf i s) { s with answers := [] } := by
    rw [exec_eq_perform]
    exact congrArg (perform · _) (planOf_withAnswers i s [])
  cases hp : planOf i s with
  | refuse r => rw [hexec, hp] at h; cases h
  | fail r =>
    rw [hexec, hp] at h
    cases h
    simp at ht
  | go o acts =>
    rw [exec_withoutAnswers hp] at h
    cases h
    exact ⟨o, acts, rfl, by simpa using ht⟩

/-- The error-free run goes on after the event of the call that the actual run stopped at. -/
theorem effects_trace_of_split {before after : List Action} {a : Action} {s : State} {completed : List Event} {e : Event}
    (h : (effect a (effects before s)).trace = s.trace ++ completed ++ [e]) :
    ∃ missing, (effects (before ++ a :: after) s).trace = s.trace ++ completed ++ e :: missing := by
  obtain ⟨missing, hmissing, -⟩ := effects_trace after (effect a (effects before s))
  exact ⟨missing, by rw [effects_append, effects_cons, hmissing, h]; simp⟩

/-- The events of a completed sequence are no failures. -/
theorem isFail_of_effects_trace {acts : List Action} {s : State} {events : List Event}
    (h : (effects acts s).trace = s.trace ++ events) : ∀ e ∈ events, e.isFail = false := by
  obtain ⟨events', h', hevents'⟩ := effects_trace acts s
  obtain rfl : events = events' := List.append_cancel_left (h.symm.trans h')
  exact fun e he => (hevents' e he).1

theorem completed_injective {c c' : Call} (h : c.completed = c'.completed) : c = c' := by
  cases c <;> cases c' <;> cases h <;> rfl

theorem completed_ne_evSleep (c : Call) (ms : Nat) : c.completed ≠ .evSleep ms := by
  cases c <;> simp [Call.completed]

/-- A plan that runs is ready, and its run from a started operation stops by the answers alone. -/
theorem dcReady_of_planOf {i : Instr} {s : State} {o : Ending} {acts : List Action} (hp : planOf i s = .go o acts) :
    dcReady false acts = true := by
  obtain ⟨-, hb⟩ := planOf_go hp
  have hready := dcReady_bodyOf s i
  rwa [hb] at hready

theorem exec_of_go {i : Instr} {s : State} {o : Ending} {acts : List Action} (hp : planOf i s = .go o acts) :
    exec i s = perform (.go o acts) s := by
  rw [exec_eq_perform, hp]

/-! ## Errors -/

/-- An operation that returned `TransportError` came to a call that failed, after calls that all completed. -/
theorem exec_transportError {i : Instr} {s t : State} (h : exec i s = .next t)
    (hr : t.result = some .transportError) :
    ∃ o before a after events c, planOf i s = .go o (before ++ a :: after) ∧
      (effects before s).trace = s.trace ++ events ∧ CallsComplete s.answers events ∧
      s.answers[events.length]? = some .error ∧
      (effect a (effects before s)).trace = s.trace ++ events ++ [c.completed] ∧
      t.trace = s.trace ++ events ++ [.evFail c] := by
  rw [exec_eq_perform] at h
  rcases perform_next h with ⟨e, hp, rfl⟩ | ⟨o, acts, u, hp, hrun, rfl⟩ | ⟨o, acts, u, hp, hrun, rfl⟩
  · obtain ⟨rfl, -⟩ := planOf_fail hp
    cases hr
  · obtain ⟨n, rfl⟩ := runActions_ok hrun
    rw [State.finish_result, effects_begin] at hr
    split at hr <;> cases hr
  · rcases runActions_stops (s := s.begin) (dcReady_of_planOf hp) (by simp) with
      ⟨u', h'⟩ | ⟨before, a, after, events, rfl, -, -, ht, hcomplete, ⟨-, h'⟩ | ⟨hans, c, hc, hta, h'⟩⟩ <;>
      rw [h'] at hrun <;> cases hrun
    rw [effects_begin] at ht hta
    rw [effect_begin] at hta
    refine ⟨o, before, a, after, events, c, hp, ht, hcomplete, hans, hta, ?_⟩
    rw [raiseTransportError_trace, State.withAnswers_trace, failEffect_trace, effects_begin]
    exact congrArg (· ++ [.evFail c]) ht

/-- Where a call of the error-free run that can fail is answered `error`, the operation ends there. -/
theorem exec_of_error_answer {i : Instr} {s : State} {o : Ending} {acts : List Action} {completed missing : List Event}
    {c : Call} (hp : planOf i s = .go o acts)
    (ht : (effects acts s).trace = s.trace ++ completed ++ c.completed :: missing)
    (hcomplete : CallsComplete s.answers completed) (hans : s.answers[completed.length]? = some .error) :
    ∃ t, exec i s = .next t ∧ t.result = some .transportError ∧
      t.trace = s.trace ++ completed ++ [.evFail c] ∧ t.answers = s.answers.drop (completed.length + 1) := by
  obtain ⟨before, a, after, rfl, hcall, hd, htb, hta, hrun⟩ :=
    runActions_reaches (s := s.begin) (dcReady_of_planOf hp) (by simp) (by rw [effects_begin]; exact ht) hcomplete
  obtain ⟨hlt, hget⟩ := List.getElem?_eq_some_iff.1 hans
  have hdrop : s.answers.drop completed.length = .error :: s.answers.drop (completed.length + 1) := by
    rw [List.drop_eq_getElem_cons hlt, hget]
  obtain ⟨e, he, -, -, -, ⟨⟨ms, rfl⟩, -⟩ | ⟨c', rfl, hc, herr⟩⟩ :=
    act_answer (s := (effects before s.begin).withAnswers (s.answers.drop completed.length)) hcall hd
  all_goals
    rw [effect_withAnswers, State.withAnswers_trace, State.withAnswers_trace, htb, hta] at he
    have heq := List.singleton_inj.1 (List.append_cancel_left he)
  · exact absurd heq (completed_ne_evSleep c ms)
  · obtain rfl := completed_injective heq
    have hexec : exec i s = .next (raiseTransportError o
        ((failEffect c ((effects before s.begin).withAnswers (s.answers.drop completed.length))).withAnswers
          (s.answers.drop (completed.length + 1)))) := by
      simp only [exec_of_go hp, perform, hrun, runActions, State.begin_answers, herr _ hdrop]
    exact ⟨_, hexec, by simp, by simp [failEffect_trace, htb], by simp⟩

/-- Settles O43: the sequence that ran is the one of the error-free run, which records the failed call's own event next,
and any call of it answered `error` ends it. -/
theorem errorsArePrecise : Obligations.ErrorsArePrecise := by
  refine fun s i => ⟨fun t h hr => ?_, fun completed c missing u hu ht hcomplete hans => ?_⟩
  · obtain ⟨o, before, a, after, events, c, hp, htb, hcomplete, hans, hta, ht⟩ := exec_transportError h hr
    obtain ⟨missing, hmissing⟩ := effects_trace_of_split (after := after) hta
    refine ⟨events, c, missing, _, ht, isFail_of_effects_trace htb, hcomplete, hans, exec_withoutAnswers hp, ?_, ?_⟩
    · cases o <;> simp
    · simpa using hmissing
  · obtain ⟨o, acts, hp, hacts⟩ := planOf_go_of_trace hu ht
    exact exec_of_error_answer hp hacts hcomplete hans

/-! ## Hangs -/

/-- Calls that all complete have used the answers before the first `noReturn`. -/
theorem length_takeWhile_of_callsComplete {answers : List Answer} {events : List Event}
    (hcomplete : CallsComplete answers events) (hans : answers[events.length]? = some .noReturn) :
    (answers.takeWhile (fun x => x != .noReturn)).length = events.length := by
  induction events generalizing answers with
  | nil =>
    cases answers with
    | nil => simp at hans
    | cons x xs =>
      obtain rfl : x = .noReturn := by simpa using hans
      rfl
  | cons e events ih =>
    cases answers with
    | nil => simp at hans
    | cons x xs =>
      have hx : (x != .noReturn) = true := by
        rcases hcomplete 0 e rfl with h | ⟨h, -⟩ <;> · cases h; rfl
      rw [List.takeWhile_cons_of_pos (p := fun x => x != Answer.noReturn) hx, List.length_cons, List.length_cons,
        ih (fun k e he => hcomplete (k + 1) e he) hans]

/-- An operation that stops came to a call that never returns, after calls that all completed. -/
theorem exec_fault {i : Instr} {s : State} {f : Fault} (h : exec i s = .fault f) :
    ∃ o before a after events, planOf i s = .go o (before ++ a :: after) ∧ a.isCall = true ∧
      (∀ bytes, a = .spiWrite bytes → (effects before s).lat.dc ≠ .unknown) ∧
      (effects before s).trace = s.trace ++ events ∧ CallsComplete s.answers events ∧
      s.answers[events.length]? = some .noReturn ∧
      f = .transportNeverReturns a ((effects before s).begin.withAnswers (s.answers.drop events.length)) := by
  cases hp : planOf i s with
  | refuse r => rw [exec_eq_perform, hp] at h; cases h
  | fail r => rw [exec_eq_perform, hp] at h; cases h
  | go o acts =>
    rw [exec_of_go hp, perform] at h
    rcases runActions_stops (s := s.begin) (dcReady_of_planOf hp) (by simp) with
      ⟨u', h'⟩ | ⟨before, a, after, events, rfl, hcall, hd, ht, hcomplete, ⟨hans, h'⟩ | ⟨-, c, -, -, h'⟩⟩ <;>
      rw [h'] at h <;> cases h
    rw [effects_begin] at hd ht ⊢
    exact ⟨o, before, a, after, events, rfl, hcall, hd, ht, hcomplete, hans, rfl⟩

/-- Settles O45: the sequence that ran is the one of the error-free run, which records the blocked call's own event next,
and any call of it that never returns stops it. -/
theorem onlyHangsStop : Obligations.OnlyHangsStop := by
  refine fun s i => ⟨fun f h => ?_, fun completed e missing u hu ht hcomplete hans => ?_⟩
  · obtain ⟨o, before, a, after, events, hp, hcall, hd, htb, hcomplete, hans, rfl⟩ := exec_fault h
    obtain ⟨e, hta, hnil, -⟩ := act_answer (s := (effects before s).begin.withAnswers []) hcall hd
    rw [effect_withAnswers, effect_begin] at hta
    obtain ⟨missing, hmissing⟩ := effects_trace_of_split (after := after) (completed := events) (e := e)
      (hta.trans (congrArg (· ++ [e]) htb))
    exact ⟨List.mem_of_getElem? hans, a, _, events, e, missing, _, _, rfl, hcall, htb, isFail_of_effects_trace htb,
      hcomplete, (length_takeWhile_of_callsComplete hcomplete hans).symm, rfl, exec_withoutAnswers hp,
      by simpa using hmissing, hnil rfl, by rw [effect_withAnswers, effect_begin]; exact hta⟩
  · obtain ⟨o, acts, hp, hacts⟩ := planOf_go_of_trace hu ht
    obtain ⟨before, a, after, rfl, hcall, hd, htb, -, hrun⟩ :=
      runActions_reaches (s := s.begin) (dcReady_of_planOf hp) (by simp) (by rw [effects_begin]; exact hacts) hcomplete
    obtain ⟨hlt, hget⟩ := List.getElem?_eq_some_iff.1 hans
    have hdrop : s.answers.drop completed.length = .noReturn :: s.answers.drop (completed.length + 1) := by
      rw [List.drop_eq_getElem_cons hlt, hget]
    obtain ⟨-, -, -, -, hstuck, -⟩ :=
      act_answer (s := (effects before s.begin).withAnswers (s.answers.drop completed.length)) hcall hd
    refine ⟨a, (effects before s.begin).withAnswers (s.answers.drop completed.length), ?_, hcall, htb, rfl⟩
    simp only [exec_of_go hp, perform, hrun, runActions, State.begin_answers, hstuck _ hdrop]

/-! ## Termination under a live transport -/

/-- An operation of well-formed operands in a state that admits it runs, or fails the size check. -/
theorem planOf_of_wellFormed {i : Instr} {s : State} (hseq : s.seq = none) (hwf : wellFormed s.cfg i = true)
    (hlive : s.live = true ∨ i = .release) (hphase : NeedsDisplayOn i → s.phase = .displayOn) :
    (∃ o acts, planOf i s = .go o acts) ∨ ∃ e, planOf i s = .fail e := by
  by_cases hrelease : i = .release
  · subst hrelease
    exact .inl ⟨_, _, whenIdle_of_idle hseq _⟩
  have hidle : s.Idle := ⟨hseq, hlive.resolve_right hrelease⟩
  have hdisplay (hneeds : NeedsDisplayOn i) (p : Plan) : whenDisplayOn s p = p := if_pos (hphase hneeds)
  cases i with
  | release => exact absurd rfl hrelease
  | clear => exact .inl ⟨_, _, (whenLive_of_idle hidle _).trans (hdisplay (.inl rfl) _)⟩
  | fill color => exact .inl ⟨_, _, (whenLive_of_idle hidle _).trans (hdisplay (.inr (.inl ⟨color, rfl⟩)) _)⟩
  | setWindow x y w h =>
    have hfits : windowFits x y w h = true := hwf
    rw [planOf, planSetWindow, whenLive_of_idle hidle, if_pos hfits, hdisplay (.inr (.inr (.inr ⟨x, y, w, h, rfl⟩)))]
    exact .inl ⟨_, _, rfl⟩
  | showImage image =>
    have htotal : imageTotal image = true := hwf
    rw [planOf, planShow, whenLive_of_idle hidle, hdisplay (.inr (.inr (.inl ⟨image, rfl⟩))), if_pos htotal]
    split
    · exact .inl ⟨_, _, rfl⟩
    · exact .inr ⟨_, rfl⟩
  | sendData bytes =>
    have hne : ¬ bytes.isEmpty = true := by simpa [wellFormed] using hwf
    rw [planOf, planSendData, whenLive_of_idle hidle, if_neg hne]
    exact .inl ⟨_, _, rfl⟩
  | initEntry opcode payload =>
    have hmax : ¬ s.cfg.chunkMax < payload.length := by simpa [wellFormed] using hwf
    rw [planOf, planInitEntry, whenLive_of_idle hidle, if_neg hmax]
    exact .inl ⟨_, _, rfl⟩
  | _ => exact .inl ⟨_, _, whenLive_of_idle hidle _⟩

/-- Settles O46: the operation runs or fails the size check, and a run that stops has come to a `noReturn`. -/
theorem liveTransportCompletes : Obligations.LiveTransportCompletes := by
  intro s i hseq hlive hwf hadmit hphase
  rcases planOf_of_wellFormed hseq hwf hadmit hphase with ⟨o, acts, hp⟩ | ⟨e, hp⟩
  · cases h : exec i s with
    | next t => exact ⟨t, rfl⟩
    | fault f =>
      obtain ⟨-, -, -, -, events, -, -, -, -, -, hans, -⟩ := exec_fault h
      exact absurd (List.mem_of_getElem? hans) hlive
    | refused r =>
      rw [exec_of_go hp, perform] at h
      split at h <;> cases h
  · exact ⟨_, by rw [exec_eq_perform, hp, perform]⟩

end Sys2Proof.Machine
end

section
/-! PROOF. What the trace says (R12, R15 to R17, R27, R29, R33, R229): the latches and handles are kept in step with it
action by action, a release closes only handles that are open, and the last Command is that of the last one recorded. -/

namespace Sys2Proof.Machine

/-! ## Pins and handles -/

@[simp] theorem latch_setSpiOpen (s : State) (v : Bool) (p : Pin) : (s.setSpiOpen v).latch p = s.latch p := by
  cases p <;> rfl

@[simp] theorem isOpen_setSpiOpen (s : State) (v : Bool) (p : Pin) : (s.setSpiOpen v).isOpen p = s.isOpen p := by
  cases p <;> rfl

section
variable (p : Pin) (t : List Event) (e : Event)

theorem latchOf_append_singleton : latchOf p (t ++ [e]) =
    match e with
    | .evOpen q => if q = p then .unknown else latchOf p t
    | .evWrite q l => if q = p then .known l else latchOf p t
    | .evFail (.gpioWrite q _) => if q = p then .unknown else latchOf p t
    | _ => latchOf p t :=
  List.foldl_append

theorem openOf_append_singleton : openOf p (t ++ [e]) =
    match e with
    | .evOpen q => if q = p then true else openOf p t
    | .evClose q => if q = p then false else openOf p t
    | .evFail (.gpioClose q) => if q = p then false else openOf p t
    | _ => openOf p t :=
  List.foldl_append

theorem spiOpenOf_append_singleton : spiOpenOf (t ++ [e]) =
    match e with
    | .evSpiClose => false
    | .evFail .spiClose => false
    | _ => spiOpenOf t :=
  List.foldl_append

end

namespace PinsFollowTrace

variable {s t : State}

/-- The agreement is about the latches, the handles and the trace only. -/
theorem of_eq (h : PinsFollowTrace s) (hlat : t.lat = s.lat) (hhandles : t.handles = s.handles)
    (htrace : t.trace = s.trace) : PinsFollowTrace t where
  latch p := by rw [htrace, ← h.latch p]; cases p <;> simp only [State.latch, hlat]
  isOpen p := by rw [htrace, ← h.isOpen p]; cases p <;> simp only [State.isOpen, hhandles]
  spiOpen := by rw [htrace, ← h.spiOpen, hhandles]

/-- Every completed action writes the latch or the handle that its event says (R12, R15 to R17). -/
theorem of_effect (h : PinsFollowTrace s) (a : Action) : PinsFollowTrace (effect a s) := by
  cases a with
  | gpioOpen p | gpioWrite p l | gpioClose p | sleep ms | spiClose =>
    exact ⟨fun q => by simp [effect, latchOf_append_singleton, h.latch q],
      fun q => by simp [effect, openOf_append_singleton, h.isOpen q],
      by simp [effect, spiOpenOf_append_singleton, h.spiOpen]⟩
  | spiWrite bytes =>
    simp only [effect]
    split
    · exact ⟨fun q => by simp [latchOf_append_singleton, h.latch q],
        fun q => by simp [openOf_append_singleton, h.isOpen q],
        by simp [spiOpenOf_append_singleton, h.spiOpen]⟩
    · exact h
  | _ => exact h.of_eq rfl rfl rfl

/-- A failed call writes the latch or the handle that its failure says (R12, R16, R17). -/
theorem of_failEffect (h : PinsFollowTrace s) (c : Call) : PinsFollowTrace (failEffect c s) := by
  cases c <;>
    exact ⟨fun q => by simp [failEffect, latchOf_append_singleton, h.latch q],
        fun q => by simp [failEffect, openOf_append_singleton, h.isOpen q],
        by simp [failEffect, spiOpenOf_append_singleton, h.spiOpen]⟩

theorem of_effects (h : PinsFollowTrace s) (acts : List Action) : PinsFollowTrace (effects acts s) :=
  effects_keeps (fun a _ _ hs => hs.of_effect a) h

theorem of_exec (h : PinsFollowTrace s) {i : Instr} (he : exec i s = .next t) : PinsFollowTrace t := by
  rcases exec_next he with ⟨-, rfl⟩ | ⟨-, -, n, rfl⟩ | ⟨-, -, before, a, after, c, n, -, -, rfl⟩
  · exact h.of_eq rfl rfl rfl
  · exact (h.of_effects (bodyOf s i).2).of_eq (by simp) (by simp) (by simp)
  · exact ((h.of_effects before).of_failEffect c).of_eq (by simp) (by simp) (by simp)

theorem of_advance (h : PinsFollowTrace s) {r : Running} (hadvance : advance r s = .next t) :
    PinsFollowTrace t := by
  rcases advance_next hadvance with ⟨-, rfl⟩ | ⟨a, rest, s', -, ha, rfl⟩ | ⟨a, rest, s', -, ha, rfl⟩
  · exact h.of_eq (by simp) (by simp) (by simp)
  · obtain ⟨n, rfl⟩ := eq_effect_of_act_ok ha
    exact (h.of_effect a).of_eq rfl rfl rfl
  · obtain ⟨c, n, -, rfl⟩ := eq_failEffect_of_act_err ha
    exact (h.of_failEffect c).of_eq (by simp) (by simp) (by simp)

end PinsFollowTrace

/-- Settles O54, by action: in a big step those of its sequence, in a small step the one it takes. -/
theorem stepKeepsPinsFollowTrace : Obligations.StepKeepsPinsFollowTrace := by
  intro s t h hstep
  rcases step_next hstep with ⟨-, -, rfl⟩ | ⟨q, rest, i, -, -, -, he⟩ | ⟨r, -, hadvance⟩
  · exact h
  · exact PinsFollowTrace.of_exec (s := { s with requests := rest }) (h.of_eq rfl rfl rfl) he
  · exact h.of_advance hadvance

/-! ## Closing once -/

/-- Every handle that is not open was the subject of one close call, every open one of none (R229). -/
structure CloseTally (s : State) : Prop where
  pins : ∀ p, closeCalls p s.trace = if s.isOpen p then 0 else 1
  spi : spiCloseCalls s.trace = if s.handles.spi then 0 else 1

theorem CloseTally.of_eq {s t : State} (h : CloseTally s) (hhandles : t.handles = s.handles)
    (hpins : ∀ p, closeCalls p t.trace = closeCalls p s.trace) (hspi : spiCloseCalls t.trace = spiCloseCalls s.trace) :
    CloseTally t where
  pins p := by
    have hopen : t.isOpen p = s.isOpen p := by cases p <;> simp only [State.isOpen, hhandles]
    rw [hpins, h.pins, hopen]
  spi := by rw [hspi, h.spi, hhandles]

theorem closeCalls_append (p : Pin) (xs ys : List Event) :
    closeCalls p (xs ++ ys) = closeCalls p xs + closeCalls p ys := List.countP_append

theorem spiCloseCalls_append (xs ys : List Event) :
    spiCloseCalls (xs ++ ys) = spiCloseCalls xs + spiCloseCalls ys := List.countP_append

/-- An action that closes a handle which is open. -/
def ClosesOpen (s : State) (a : Action) : Prop :=
  (∃ p, a = .gpioClose p ∧ s.isOpen p = true) ∨ (a = .spiClose ∧ s.handles.spi = true)

theorem closesOpen_of_mem_releaseSeq {s : State} {a : Action} (h : a ∈ releaseSeq s.handles) : ClosesOpen s a := by
  simp only [releaseSeq, List.mem_append, List.mem_ite_nil_right, List.mem_singleton] at h
  obtain ((⟨hopen, rfl⟩ | ⟨hopen, rfl⟩) | ⟨hopen, rfl⟩) | ⟨hopen, rfl⟩ := h
  · exact .inl ⟨.rst, rfl, hopen⟩
  · exact .inl ⟨.dc, rfl, hopen⟩
  · exact .inl ⟨.bl, rfl, hopen⟩
  · exact .inr ⟨rfl, hopen⟩

theorem releaseSeq_nodup (owned : Handles) : (releaseSeq owned).Nodup := by
  obtain ⟨rst, dc, bl, spi⟩ := owned
  revert rst dc bl spi
  decide

/-- Closing one handle leaves another one open. -/
theorem closesOpen_effect {s : State} {a b : Action} (ha : ClosesOpen s a) (hb : ClosesOpen s b) (hne : a ≠ b) :
    ClosesOpen (effect a s) b := by
  obtain ⟨p, rfl, hp⟩ | ⟨rfl, hp⟩ := ha <;> obtain ⟨q, rfl, hq⟩ | ⟨rfl, hq⟩ := hb
  · have hpq : p ≠ q := by rintro rfl; exact hne rfl
    exact .inl ⟨q, rfl, by simp [effect, hpq, hq]⟩
  · exact .inr ⟨rfl, by simp [effect, hq]⟩
  · exact .inl ⟨q, rfl, by simp [effect, hq]⟩
  · exact absurd rfl hne

theorem closeTally_effect {s : State} {a : Action} (h : CloseTally s) (ha : ClosesOpen s a) :
    CloseTally (effect a s) := by
  obtain ⟨p, rfl, hp⟩ | ⟨rfl, hp⟩ := ha
  · refine ⟨fun q => ?_, ?_⟩
    · by_cases hpq : p = q
      · subst hpq
        simp [effect, closeCalls_append, h.pins, hp]
        simp [closeCalls]
      · simp [effect, closeCalls_append, h.pins, hpq]
        simp [closeCalls, hpq]
    · simp [effect, spiCloseCalls_append, h.spi]
      simp [spiCloseCalls]
  · refine ⟨fun q => ?_, ?_⟩
    · simp [effect, closeCalls_append, h.pins]
      simp [closeCalls]
    · simp [effect, spiCloseCalls_append, h.spi, hp]
      simp [spiCloseCalls]

/-- A failed close counts as a close (D17). -/
theorem closeTally_failEffect {s : State} {a : Action} {c : Call} (h : CloseTally s) (ha : ClosesOpen s a)
    (hc : failingCall a s = some c) : CloseTally (failEffect c s) := by
  obtain ⟨p, rfl, hp⟩ | ⟨rfl, hp⟩ := ha <;> cases hc
  · refine ⟨fun q => ?_, ?_⟩
    · by_cases hpq : p = q
      · subst hpq
        simp [failEffect, closeCalls_append, h.pins, hp]
        simp [closeCalls]
      · simp [failEffect, closeCalls_append, h.pins, hpq]
        simp [closeCalls, hpq]
    · simp [failEffect, spiCloseCalls_append, h.spi]
      simp [spiCloseCalls]
  · refine ⟨fun q => ?_, ?_⟩
    · simp [failEffect, closeCalls_append, h.pins]
      simp [closeCalls]
    · simp [failEffect, spiCloseCalls_append, h.spi, hp]
      simp [spiCloseCalls]

/-- Closing different open handles keeps the tally, and leaves the further ones open. -/
theorem closeTally_effects {acts : List Action} {s : State} (h : CloseTally s) (hnodup : acts.Nodup)
    (hopen : ∀ a ∈ acts, ClosesOpen s a) :
    CloseTally (effects acts s) ∧ ∀ b, ClosesOpen s b → b ∉ acts → ClosesOpen (effects acts s) b := by
  induction acts generalizing s with
  | nil => exact ⟨h, fun b hb _ => hb⟩
  | cons a acts ih =>
    rw [List.nodup_cons] at hnodup
    rw [List.forall_mem_cons] at hopen
    obtain ⟨hnot, hnodup⟩ := hnodup
    obtain ⟨ha, hopen⟩ := hopen
    obtain ⟨htally, hrest⟩ := ih (closeTally_effect h ha) hnodup fun b hb =>
      closesOpen_effect ha (hopen b hb) (by rintro rfl; exact hnot hb)
    refine ⟨htally, fun b hb hnotin => ?_⟩
    rw [List.mem_cons, not_or] at hnotin
    obtain ⟨hne, hnotin⟩ := hnotin
    exact hrest b (closesOpen_effect ha hb (Ne.symm hne)) hnotin

/-- A release keeps the tally, also where a close of it fails. -/
theorem closeTally_release {s t : State} (h : CloseTally s) (he : exec .release s = .next t) : CloseTally t := by
  have hopen (a : Action) (ha : a ∈ releaseSeq s.handles) : ClosesOpen s a := closesOpen_of_mem_releaseSeq ha
  have hnodup := releaseSeq_nodup s.handles
  rcases exec_next he with ⟨⟨image, hi, -⟩, -⟩ | ⟨-, -, n, rfl⟩ | ⟨-, -, before, a, after, c, n, hb, hc, rfl⟩
  · cases hi
  · exact (closeTally_effects h hnodup hopen).1.of_eq (by simp [bodyOf]) (by simp [bodyOf]) (by simp [bodyOf])
  · have hb : releaseSeq s.handles = before ++ a :: after := hb
    rw [hb] at hnodup hopen
    obtain ⟨hnodupb, -, hdisjoint⟩ := List.nodup_append.1 hnodup
    obtain ⟨htally, hrest⟩ := closeTally_effects h hnodupb fun b hb => hopen b (by simp [hb])
    have ha := hrest a (hopen a (by simp)) fun hmem => hdisjoint a hmem a (by simp) rfl
    exact (closeTally_failEffect htally ha hc).of_eq (by simp) (by simp) (by simp)

/-- The other operations make no close call. -/
theorem closeTally_of_ne_release {i : Instr} {s t : State} (h : CloseTally s) (hi : i ≠ .release)
    (he : exec i s = .next t) : CloseTally t := by
  obtain ⟨events, ht, hevents⟩ := exec_trace he
  have hno : ∀ e ∈ events, (∀ p, e ≠ .evClose p ∧ e ≠ .evFail (.gpioClose p)) ∧
      e ≠ .evSpiClose ∧ e ≠ .evFail .spiClose := by
    intro e hmem
    obtain ⟨a, ha, hrec⟩ := hevents e hmem
    have hp := permits_of_mem_bodyOf s i a ha
    cases a with
    | gpioOpen p => exact hp.elim
    | gpioClose p | spiClose => exact absurd hp hi
    | gpioWrite p l => obtain rfl | rfl := hrec <;> simp
    | spiWrite bytes => obtain ⟨dc, rfl | rfl⟩ := hrec <;> simp
    | sleep ms => obtain rfl := hrec; simp
    | _ => exact hrec.elim
  refine h.of_eq (exec_handles he hi) (fun p => ?_) ?_
  · rw [ht, closeCalls_append, Nat.add_eq_left, closeCalls, List.countP_eq_zero]
    intro e hmem
    obtain ⟨hpins, -⟩ := hno e hmem
    simpa using hpins p
  · rw [ht, spiCloseCalls_append, Nat.add_eq_left, spiCloseCalls, List.countP_eq_zero]
    intro e hmem
    obtain ⟨-, hspi⟩ := hno e hmem
    simpa using hspi

/-- Settles O55: `release` closes open handles only, each once, and no other operation closes one. -/
theorem stepKeepsClosedOnce : Obligations.StepKeepsClosedOnce := by
  intro s t ⟨hbetween, hpins, hspi⟩ hstep
  rcases step_next hstep with ⟨-, -, rfl⟩ | ⟨q, rest, i, -, -, -, he⟩ | ⟨r, hr, -⟩
  · exact ⟨hbetween, hpins, hspi⟩
  · have h : CloseTally { s with requests := rest } := ⟨hpins, hspi⟩
    have ht : CloseTally t := by
      by_cases hi : i = .release
      · subst hi
        exact closeTally_release h he
      · exact closeTally_of_ne_release h hi he
    exact ⟨(exec_seq he).trans hbetween, ht.pins, ht.spi⟩
  · rw [hbetween] at hr; cases hr

/-! ## The last Command -/

/-- An event that is no Command, no write of `RST` and no failure on the bus, `DC` or `RST`. -/
def LeavesLastCmd (e : Event) : Prop := ∀ t, lastCmdOf (t ++ [e]) = lastCmdOf t

theorem lastCmdOf_append_of_leaves {events : List Event} (h : ∀ e ∈ events, LeavesLastCmd e) (t : List Event) :
    lastCmdOf (t ++ events) = lastCmdOf t := by
  induction events generalizing t with
  | nil => rw [List.append_nil]
  | cons e events ih =>
    rw [List.forall_mem_cons] at h
    obtain ⟨he, hrest⟩ := h
    rw [List.append_cons, ih hrest, he]

theorem leavesLastCmd_evSleep (ms : Nat) : LeavesLastCmd (.evSleep ms) := fun t => by
  rw [lastCmdOf, List.foldl_append]; rfl

theorem leavesLastCmd_dataEvents (bytes : List Byte) : ∀ e ∈ dataEvents bytes, LeavesLastCmd e := by
  simp only [dataEvents, List.forall_mem_cons]
  exact ⟨fun t => by rw [lastCmdOf, List.foldl_append]; rfl, fun t => by rw [lastCmdOf, List.foldl_append]; rfl,
    by simp⟩

/-- A Command is the last one, whatever came before it (R33). -/
theorem lastCmdOf_commandEvents (t : List Event) (opcode : Byte) :
    lastCmdOf (t ++ commandEvents opcode) = some opcode := by
  rw [lastCmdOf, List.foldl_append]; rfl

/-- The reset pulse leaves no last Command (R141). -/
theorem lastCmdOf_pulseEvents (t : List Event) (c : Config) : lastCmdOf (t ++ pulseEvents c) = none := by
  rw [lastCmdOf, List.foldl_append, pulseEvents]
  split <;> rfl

theorem lastCmdOf_dataEvents (t : List Event) (bytes : List Byte) : lastCmdOf (t ++ dataEvents bytes) = lastCmdOf t :=
  lastCmdOf_append_of_leaves (leavesLastCmd_dataEvents bytes) t

theorem lastCmdOf_evSleep (t : List Event) (ms : Nat) : lastCmdOf (t ++ [.evSleep ms]) = lastCmdOf t :=
  leavesLastCmd_evSleep ms t

theorem lastCmdOf_sendAll (t : List Event) (bs : List (List Byte)) :
    lastCmdOf (t ++ bs.flatMap dataEvents) = lastCmdOf t :=
  lastCmdOf_append_of_leaves (List.forall_mem_flatMap.2 fun b _ => leavesLastCmd_dataEvents b) t

/-- `last_cmd` is the Command the trace gives (D30). -/
def LastCmdFollows (s : State) : Prop := s.lastCmd = lastCmdOf s.trace

section
variable {s : State}

theorem lastCmdFollows_sendCommandSeq (opcode : Byte) : LastCmdFollows (effects (sendCommandSeq opcode) s) := by
  rw [effects_sendCommandSeq]
  exact (lastCmdOf_commandEvents _ _).symm

theorem lastCmdFollows_sendDataSeq (h : LastCmdFollows s) (bytes : List Byte) :
    LastCmdFollows (effects (sendDataSeq bytes) s) := by
  rw [effects_sendDataSeq]
  exact h.trans (lastCmdOf_dataEvents _ _).symm

theorem lastCmdFollows_sleep (h : LastCmdFollows s) (ms : Nat) : LastCmdFollows (effects [.sleep ms] s) :=
  h.trans (lastCmdOf_evSleep _ _).symm

theorem lastCmdOf_windowEvents (t : List Event) (c : Config) (w : Window) :
    lastCmdOf (t ++ windowEvents c w) = some c.opRamwr := by
  rw [lastCmdOf, List.foldl_append]
  rfl

theorem lastCmdOf_initEvents (t : List Event) (c : Config) : lastCmdOf (t ++ initEvents c) = some c.opDispon := by
  simp only [initEvents, ← List.append_assoc]
  rw [lastCmdOf_evSleep, lastCmdOf_commandEvents]

theorem lastCmdFollows_frameSeq {buf : List Byte} (hlen : buf.length = s.cfg.frameBytes) :
    LastCmdFollows (effects (frameSeq s.cfg buf) s) := by
  simp only [LastCmdFollows, effects_frameSeq hlen, frameEvents, streamEvents, ← List.append_assoc]
  rw [lastCmdOf_sendAll, lastCmdOf_windowEvents]

/-- A complete sequence that sends through the Framer or pulses `RST` keeps the ghost state. -/
theorem lastCmdFollows_bodyOf {i : Instr} (h : LastCmdFollows s)
    (hp : planOf i s = .go (bodyOf s i).1 (bodyOf s i).2) (ho : (bodyOf s i).1 ≠ .ownEffectOnly) :
    LastCmdFollows (effects (bodyOf s i).2 s) := by
  have hframe {color : U16} {image : Image} (hi : i ∈ [Instr.fill color, .clear, .showImage image]) :
      LastCmdFollows (effects (bodyOf s i).2 s) := by
    obtain ⟨-, buf, hbuf, hlen⟩ := planOf_frame hp hi
    exact hbuf ▸ lastCmdFollows_frameSeq hlen
  cases i with
  | reset =>
    simp only [bodyOf, effects_resetSeq]
    exact (lastCmdOf_pulseEvents _ _).symm
  | init =>
    simp only [bodyOf, effects_initSeq]
    exact (lastCmdOf_initEvents _ _).symm
  | clear => exact hframe (color := 0) (image := ⟨0, 0, []⟩) (by simp)
  | fill color => exact hframe (color := color) (image := ⟨0, 0, []⟩) (by simp)
  | showImage image => exact hframe (color := 0) (image := image) (by simp)
  | setWindow x y w e =>
    simp only [bodyOf, effects_windowSeq]
    exact (lastCmdOf_windowEvents _ _ _).symm
  | setBacklight level => exact absurd rfl ho
  | release => exact absurd rfl ho
  | sendData bytes => exact lastCmdFollows_sendDataSeq h bytes
  | dataByte d => exact lastCmdFollows_sendDataSeq h [d]
  | stream buf =>
    simp only [bodyOf, effects_streamSeq]
    exact h.trans (lastCmdOf_sendAll _ _).symm
  | caset first last | raset first last =>
    simp only [bodyOf, casetSeq, rasetSeq, effects_append]
    exact lastCmdFollows_sendDataSeq (lastCmdFollows_sendCommandSeq _) _
  | slpout | dispon =>
    simp only [bodyOf, effects_append]
    exact lastCmdFollows_sleep (lastCmdFollows_sendCommandSeq _) _
  | initEntry opcode payload =>
    simp only [bodyOf, transactionSeq, effects_append]
    split
    · exact lastCmdFollows_sendCommandSeq opcode
    · exact lastCmdFollows_sendDataSeq (lastCmdFollows_sendCommandSeq opcode) payload
  | sendCommand _ | ramwr | teon | invoff => exact lastCmdFollows_sendCommandSeq _

end

/-- A failure on the bus, `DC` or `RST` leaves no last Command (R246 (a)); the other failures are those of `setBacklight`
and `release`. -/
theorem lastCmdOf_evFail {i : Instr} {a : Action} (hp : Permits i a)
    (hi : ¬ (i = .release ∨ ∃ level, i = .setBacklight level))
    {s : State} {c : Call} (hc : failingCall a s = some c) (t : List Event) : lastCmdOf (t ++ [.evFail c]) = none := by
  cases a with
  | gpioOpen p => exact hp.elim
  | gpioClose p | spiClose => exact absurd (.inl hp) hi
  | gpioWrite p l =>
    cases hc
    cases p with
    | bl => exact absurd (.inr hp) hi
    | rst | dc => rw [lastCmdOf, List.foldl_append]; rfl
  | spiWrite bytes =>
    obtain ⟨dc, -, rfl⟩ := failingCall_spiWrite hc
    rw [lastCmdOf, List.foldl_append]; rfl
  | _ => cases hc

/-- `setBacklight` and `release` record nothing that bears on the last Command. -/
theorem leavesLastCmd_of_records {i : Instr} {a : Action} (hp : Permits i a)
    (hi : i = .release ∨ ∃ level, i = .setBacklight level) {e : Event} (hrec : a.records e) : LeavesLastCmd e := by
  have hframer := not_usesFramer hi
  have hreset : ¬ (i = .reset ∨ i = .init) := by rintro (rfl | rfl) <;> simp at hi
  cases a with
  | gpioOpen p => exact hp.elim
  | gpioClose p =>
    obtain rfl | rfl := hrec <;> exact fun t => by rw [lastCmdOf, List.foldl_append]; rfl
  | spiClose =>
    obtain rfl | rfl := hrec <;> exact fun t => by rw [lastCmdOf, List.foldl_append]; rfl
  | gpioWrite p l =>
    cases p with
    | rst => exact absurd hp hreset
    | dc => exact absurd hp hframer
    | bl => obtain rfl | rfl := hrec <;> exact fun t => by rw [lastCmdOf, List.foldl_append]; rfl
  | spiWrite bytes => exact absurd hp hframer
  | sleep ms => obtain rfl := hrec; exact leavesLastCmd_evSleep ms
  | _ => exact hrec.elim

/-- Settles O56, by the ending: for `setBacklight` and `release` neither side changes; for the others a complete sequence
keeps them equal, and a failure clears both. -/
theorem lastCommandFollowsTrace : Obligations.LastCommandFollowsTrace := by
  intro s t i h he
  by_cases hi : i = .release ∨ ∃ level, i = .setBacklight level
  · obtain ⟨events, ht, hevents⟩ := exec_trace he
    have hleaves : ∀ e ∈ events, LeavesLastCmd e := fun e hmem => by
      obtain ⟨a, ha, hrec⟩ := hevents e hmem
      exact leavesLastCmd_of_records (permits_of_mem_bodyOf s i a ha) hi hrec
    have hshadow := exec_shadowOf he hi
    simp only [shadowOf, Prod.mk.injEq] at hshadow
    obtain ⟨-, hlast, -⟩ := hshadow
    rw [hlast, ht, lastCmdOf_append_of_leaves hleaves, h]
  · have ho : (bodyOf s i).1 ≠ .ownEffectOnly := fun ho => hi (bodyOf_ownEffectOnly.1 ho)
    rcases exec_next he with ⟨-, rfl⟩ | ⟨hp, -, n, rfl⟩ | ⟨-, -, before, a, after, c, n, hb, hc, rfl⟩
    · exact h
    · simpa [LastCmdFollows] using lastCmdFollows_bodyOf h hp ho
    · have ha : a ∈ (bodyOf s i).2 := by simp [hb]
      have hshadow := shadowOf_raiseTransportError ho ((failEffect c (effects before s)).withAnswers (s.answers.drop n))
      simp only [shadowOf, Prod.mk.injEq] at hshadow
      obtain ⟨-, hlast, -⟩ := hshadow
      rw [hlast, raiseTransportError_trace, State.withAnswers_trace, failEffect_trace,
        lastCmdOf_evFail (permits_of_mem_bodyOf s i a ha) hi hc]

end Sys2Proof.Machine
end

section
/-! PROOF. The small steps (R36, D27): a position holds what the same sequence has done in one big step, so the two views
agree; what the phase and the position are follows from the part of the sequence that is done. -/

namespace Sys2Proof.Machine

/-! ## Actions and the position -/

section
variable (s : State) (x y : Option Running)

@[simp] theorem State.withSeq_seq : (s.withSeq x).seq = x := rfl
@[simp] theorem State.withSeq_withSeq : (s.withSeq x).withSeq y = s.withSeq y := rfl
@[simp] theorem State.withSeq_trace : (s.withSeq x).trace = s.trace := rfl
@[simp] theorem State.withSeq_phase : (s.withSeq x).phase = s.phase := rfl
@[simp] theorem State.withSeq_answers : (s.withSeq x).answers = s.answers := rfl

theorem State.withSeq_of_seq {s : State} (h : s.seq = none) : s.withSeq none = s := by
  rw [State.withSeq, ← h]

end

/-- A fault with another sequencer position in its stuck state. -/
def Fault.withSeq (x : Option Running) : Fault → Fault
  | .transportNeverReturns a stuck => .transportNeverReturns a (stuck.withSeq x)
  | .controlLineUnknown stuck => .controlLineUnknown (stuck.withSeq x)

/-- The end of an action with another sequencer position. -/
def Res.withSeq (x : Option Running) : Res → Res
  | .ok s => .ok (s.withSeq x)
  | .err s => .err (s.withSeq x)
  | .stuck f => .stuck (f.withSeq x)

theorem withoutPosition_withSeq (f : Fault) (x : Option Running) : (f.withSeq x).withoutPosition = f.withSeq none := by
  cases f <;> rfl

theorem transportCall_withSeq {a : Action} {c : Call} {onOk onErr : State → State} (x : Option Running)
    (hok : ∀ s, onOk (State.withSeq s x) = (onOk s).withSeq x)
    (herr : ∀ s, onErr (State.withSeq s x) = (onErr s).withSeq x) (s : State) :
    transportCall a c onOk onErr (s.withSeq x) = (transportCall a c onOk onErr s).withSeq x := by
  unfold transportCall
  rw [State.withSeq_answers]
  cases s.answers with
  | nil => exact congrArg Res.ok (hok s)
  | cons answer rest =>
    cases answer with
    | ok => exact congrArg Res.ok (hok { s with answers := rest })
    | error => exact congrArg Res.err (herr (State.log { s with answers := rest } (.evFail c)))
    | noReturn => rfl

/-- No action looks at the sequencer position. -/
theorem act_withSeq (a : Action) (s : State) (x : Option Running) : act a (s.withSeq x) = (act a s).withSeq x := by
  cases a with
  | gpioOpen p =>
    simp only [act, gpioOpen]
    exact transportCall_withSeq x (fun s => by cases p <;> rfl) (fun _ => rfl) s
  | gpioWrite p l =>
    simp only [act, gpioWrite]
    exact transportCall_withSeq x (fun s => by cases p <;> rfl) (fun s => by cases p <;> rfl) s
  | spiWrite bytes =>
    simp only [act, spiWrite, show (s.withSeq x).lat = s.lat from rfl]
    split
    · exact transportCall_withSeq x (fun _ => rfl) (fun _ => rfl) s
    · rfl
  | sleep ms =>
    simp only [act, sleep, State.withSeq_answers]
    split <;> rfl
  | gpioClose p =>
    simp only [act, gpioClose]
    exact transportCall_withSeq x (fun s => by cases p <;> rfl) (fun s => by cases p <;> rfl) s
  | spiClose =>
    simp only [act, spiClose]
    exact transportCall_withSeq x (fun _ => rfl) (fun _ => rfl) s
  | _ => rfl

theorem seq_of_act_ok {a : Action} {s t : State} (h : act a s = .ok t) : t.seq = s.seq := by
  obtain ⟨n, rfl⟩ := eq_effect_of_act_ok h
  simp

theorem seq_of_act_err {a : Action} {s t : State} (h : act a s = .err t) : t.seq = s.seq := by
  obtain ⟨c, n, -, rfl⟩ := eq_failEffect_of_act_err h
  simp

/-- What blocks an action between operations holds no position. -/
theorem withSeq_of_act_stuck {a : Action} {s : State} {f : Fault} (hs : s.seq = none) (h : act a s = .stuck f) :
    f.withSeq none = f := by
  have h' := act_withSeq a s none
  rw [State.withSeq_of_seq hs, h] at h'
  exact (Res.stuck.inj h').symm

/-! ## A run in small steps -/

/-- An outcome with the position of a stuck state set aside. -/
def outcomeWithoutPosition : Host.Outcome State Fault Refusal → Host.Outcome State Fault Refusal
  | .next t => .next t
  | .fault f => .fault f.withoutPosition
  | .refused r => .refused r

/-- The outcome of an operation by the end of its sequence. -/
def outcomeOf (o : Ending) : Res → Host.Outcome State Fault Refusal
  | .ok s => .next (s.finish o)
  | .err s => .next (raiseTransportError o s)
  | .stuck f => .fault f

theorem perform_go (o : Ending) (acts : List Action) (s : State) :
    perform (.go o acts) s = outcomeOf o (runActions acts s.begin) := by
  cases h : runActions acts s.begin <;> simp only [perform, outcomeOf, h]

theorem step_withSeq (s : State) (r : Running) : step (s.withSeq (some r)) = advance r (s.withSeq (some r)) := rfl

/-- Advancing a position action by action comes to the outcome of running its actions at once. -/
theorem ticks_of_position (i : Instr) (o : Ending) (done acts : List Action) {s : State} (hs : s.seq = none) :
    ∃ n, outcomeWithoutPosition (ticks n (s.withSeq (some ⟨i, o, done, acts⟩))) =
      outcomeOf o (runActions acts s) := by
  induction acts generalizing done s with
  | nil =>
    refine ⟨1, ?_⟩
    rw [ticks, step_withSeq, advance]
    exact congrArg (fun s : State => Host.Outcome.next (s.finish o)) (State.withSeq_of_seq hs)
  | cons a acts ih =>
    have hact := act_withSeq a s (some ⟨i, o, done, a :: acts⟩)
    cases h : act a s with
    | ok t =>
      obtain ⟨n, hn⟩ := ih (done ++ [a]) ((seq_of_act_ok h).trans hs)
      rw [h] at hact
      refine ⟨n + 1, ?_⟩
      simp only [ticks, step_withSeq, advance, hact, Res.withSeq, runActions, h]
      exact hn
    | err t =>
      rw [h] at hact
      refine ⟨1, ?_⟩
      simp only [ticks, step_withSeq, advance, hact, Res.withSeq, runActions, h]
      exact congrArg (fun s => Host.Outcome.next (raiseTransportError o s))
        (State.withSeq_of_seq ((seq_of_act_err h).trans hs))
    | stuck f =>
      rw [h] at hact
      refine ⟨1, ?_⟩
      simp only [ticks, step_withSeq, advance, hact, Res.withSeq, runActions, h, outcomeWithoutPosition, outcomeOf,
        withoutPosition_withSeq, withSeq_of_act_stuck hs h]

/-! ## The states a started operation comes to -/

/-- A state in which the operation `i`, started in `s`, holds the position `r`: the actions done are those that the same
sequence has completed in one run, and the actions left are the rest of it. -/
structure AtPosition (i : Instr) (s : State) (r : Running) (t : State) : Prop where
  instr : r.instr = i
  plan : planOf i s = .go r.ending (r.done ++ r.rest)
  run : ∃ v, v.seq = none ∧ runActions r.done s.begin = .ok v ∧ t = v.withSeq (some r)

/-- Between operations no step leaves a position. -/
theorem seq_of_ticks {n : Nat} {s t : State} (hs : s.seq = none) (h : ticks n s = .next t) : t.seq = none := by
  induction n generalizing s with
  | zero => cases h; exact hs
  | succ n ih =>
    rw [ticks] at h
    split at h
    · refine ih ?_ h
      rcases step_next ‹_› with ⟨-, -, rfl⟩ | ⟨q, rest, i, -, -, -, he⟩ | ⟨r, hr, -⟩
      · exact hs
      · exact (exec_seq he).trans hs
      · rw [hs] at hr; cases hr
    · rename_i hother
      exact absurd h (hother t)

/-- A small step of an operation in progress goes to the next action, or ends the operation. -/
theorem AtPosition.step {i : Instr} {s t u : State} {r : Running} (h : AtPosition i s r t) (hstep : step t = .next u) :
    u.seq = none ∨ ∃ a rest, r.rest = a :: rest ∧
      AtPosition i s { r with done := r.done ++ [a], rest := rest } u := by
  obtain ⟨hinstr, hplan, v, hv, hrun, rfl⟩ := h
  rw [step_withSeq] at hstep
  rcases advance_next hstep with ⟨-, rfl⟩ | ⟨a, rest, t', hrest, ha, rfl⟩ | ⟨a, rest, t', -, -, rfl⟩
  · exact .inl (by simp)
  · refine .inr ⟨a, rest, hrest, hinstr, by rw [hplan, hrest]; simp, ?_⟩
    rw [act_withSeq] at ha
    cases hv' : act a v with
    | ok v' =>
      rw [hv'] at ha
      cases ha
      exact ⟨v', (seq_of_act_ok hv').trans hv, by simp only [runActions_append, hrun, runActions, hv'], rfl⟩
    | err v' => rw [hv'] at ha; cases ha
    | stuck f => rw [hv'] at ha; cases ha
  · exact .inl (by cases r.ending <;> rfl)

/-- Wherever a started operation holds a position, it is at that position. -/
theorem atPosition_of_ticks {i : Instr} {s s₁ t : State} {n : Nat} {r : Running} (hs : s.seq = none)
    (hstart : start i s = .next s₁) (hticks : ticks n s₁ = .next t) (hr : t.seq = some r) : AtPosition i s r t := by
  have hfrom : ∀ n s₁ r₁, AtPosition i s r₁ s₁ → ticks n s₁ = .next t → AtPosition i s r t := by
    intro n
    induction n with
    | zero =>
      intro s₁ r₁ hat h
      cases h
      obtain ⟨v, -, -, hv⟩ := hat.run
      rw [hv] at hr
      cases hr
      exact hat
    | succ n ih =>
      intro s₁ r₁ hat h
      rw [ticks] at h
      split at h
      · rcases hat.step ‹_› with hnone | ⟨a, rest, -, hat'⟩
        · rw [seq_of_ticks hnone h] at hr; cases hr
        · exact ih _ _ hat' h
      · rename_i hother
        exact absurd h (hother t)
  rw [start] at hstart
  split at hstart <;> cases hstart
  · rw [seq_of_ticks (by simpa using hs) hticks] at hr; cases hr
  · exact hfrom n _ _ ⟨rfl, ‹_›, s.begin, hs, rfl, rfl⟩ hticks

/-- Settles O57: for the outcomes of the big step by the run in small steps, for a hang of the small steps by the position
it happens at. -/
theorem smallStepsAgree : Obligations.SmallStepsAgree := by
  intro s i hs
  have hgo {o acts} (hp : planOf i s = .go o acts) :
      ∃ s₁, start i s = .next s₁ ∧ ∃ n, outcomeWithoutPosition (ticks n s₁) = exec i s := by
    obtain ⟨n, hn⟩ := ticks_of_position i o [] acts (s := s.begin) hs
    exact ⟨s.begin.withSeq (some ⟨i, o, [], acts⟩), by rw [start, hp]; rfl, n,
      by rw [hn, exec_of_go hp, perform_go]⟩
  refine ⟨fun t h => ?_, fun r => ?_, fun f h => ?_, fun s₁ n u f' hstart hticks hu hstep => ?_⟩
  · have hseq : t.seq = none := (exec_seq h).trans hs
    cases hp : planOf i s with
    | refuse r => rw [exec_of_refuse hp] at h; cases h
    | fail e =>
      rw [exec_eq_perform, hp] at h
      exact ⟨t, 0, by rw [start, hp]; exact h, rfl, hseq⟩
    | go o acts =>
      obtain ⟨s₁, hs₁, n, hn⟩ := hgo hp
      rw [h] at hn
      cases hticks : ticks n s₁ with
      | next t' => rw [hticks] at hn; cases hn; exact ⟨s₁, n, hs₁, hticks, hseq⟩
      | fault f => rw [hticks] at hn; cases hn
      | refused r => rw [hticks] at hn; cases hn
  · cases hp : planOf i s with
    | refuse r' => rw [exec_of_refuse hp, start, hp]
    | fail e =>
      rw [exec_eq_perform, hp, start, hp]
      rfl
    | go o acts =>
      rw [exec_of_go hp, perform_go, start, hp]
      cases runActions acts s.begin <;> simp [outcomeOf]
  · obtain ⟨o, before, a, after, -, hp, -⟩ := exec_fault h
    obtain ⟨s₁, hs₁, n, hn⟩ := hgo hp
    rw [h] at hn
    cases hticks : ticks n s₁ with
    | next t' => rw [hticks] at hn; cases hn
    | fault f' => rw [hticks] at hn; exact ⟨s₁, n, f', hs₁, hticks, Host.Outcome.fault.inj hn⟩
    | refused r => rw [hticks] at hn; cases hn
  · obtain ⟨r, hr⟩ := Option.ne_none_iff_exists'.1 hu
    obtain ⟨-, hplan, v, hv, hrun, rfl⟩ := atPosition_of_ticks hs hstart hticks hr
    rw [step_withSeq, advance] at hstep
    split at hstep
    · cases hstep
    · rename_i a rest hrest
      rw [act_withSeq] at hstep
      cases ha : act a v with
      | ok v' => simp [ha, Res.withSeq] at hstep
      | err v' => simp [ha, Res.withSeq] at hstep
      | stuck f =>
        simp only [ha, Res.withSeq, Host.Outcome.fault.injEq] at hstep
        rw [exec_of_go hplan, perform_go, hrest, runActions_append, hrun]
        simp only [runActions, ha, outcomeOf, ← hstep, withoutPosition_withSeq, withSeq_of_act_stuck hv ha]

end Sys2Proof.Machine
end

section
/-! PROOF. Where the phase moves (R152, D19): the assignments of `reset()` and `init()` cut their sequences into parts
without one, so an assignment in the sequence tells what is done before it. -/

namespace Sys2Proof.Machine

/-! ## Cutting a sequence at its phase assignments -/

/-- A part of a sequence that assigns no phase. -/
def NoSetPhase (acts : List Action) : Prop := ∀ ph, Action.setPhase ph ∉ acts

theorem noSetPhase_append {xs ys : List Action} (hx : NoSetPhase xs) (hy : NoSetPhase ys) : NoSetPhase (xs ++ ys) :=
  fun ph h => (List.mem_append.1 h).elim (hx ph) (hy ph)

/-- The first assignment of a sequence, or one after it. -/
theorem split_at_setPhase {pre tail done rest : List Action} {q ph : Phase} (hpre : NoSetPhase pre)
    (h : pre ++ .setPhase q :: tail = done ++ .setPhase ph :: rest) :
    (ph = q ∧ done = pre ∧ rest = tail) ∨
    ∃ done', done = pre ++ .setPhase q :: done' ∧ tail = done' ++ .setPhase ph :: rest := by
  induction pre generalizing done with
  | nil =>
    cases done with
    | nil =>
      obtain ⟨hq, htail⟩ := List.cons.inj h
      cases hq
      exact .inl ⟨rfl, rfl, htail.symm⟩
    | cons a done =>
      obtain ⟨rfl, htail⟩ := List.cons.inj h
      exact .inr ⟨done, rfl, htail⟩
  | cons a pre ih =>
    cases done with
    | nil =>
      obtain ⟨rfl, -⟩ := List.cons.inj h
      exact absurd (List.mem_cons_self ..) (hpre ph)
    | cons b done =>
      obtain ⟨rfl, htail⟩ := List.cons.inj h
      rcases ih (fun ph hmem => hpre ph (List.mem_cons_of_mem a hmem)) htail with ⟨rfl, rfl, rfl⟩ | ⟨done', rfl, htail'⟩
      · exact .inl ⟨rfl, rfl, rfl⟩
      · exact .inr ⟨done', rfl, htail'⟩

theorem nil_ne_append_setPhase {done rest : List Action} {ph : Phase} : [] ≠ done ++ .setPhase ph :: rest := by
  simp

/-- The phase does not move where none is assigned. -/
theorem effects_phase_of_noSetPhase {acts : List Action} (h : NoSetPhase acts) (s : State) :
    (effects acts s).phase = s.phase := by
  refine effects_observe State.phase (fun a ha s => ?_) s
  rw [effect_phase]
  cases a with
  | setPhase ph => exact absurd ha (h ph)
  | _ => rfl

/-- After an assignment and a part without one, the phase is the one assigned. -/
theorem effects_phase_of_setPhase {pre mid : List Action} (ph : Phase) (h : NoSetPhase mid) (s : State) :
    (effects (pre ++ .setPhase ph :: mid) s).phase = ph := by
  rw [effects_append, effects_cons, effects_phase_of_noSetPhase h]
  rfl

/-- The phase a sequence leaves is the one it has assigned last, if it has assigned one. -/
theorem effects_phase_cases (acts : List Action) (s : State) :
    (NoSetPhase acts ∧ (effects acts s).phase = s.phase) ∨
    ∃ pre mid, acts = pre ++ .setPhase (effects acts s).phase :: mid := by
  induction acts generalizing s with
  | nil => exact .inl ⟨fun _ => List.not_mem_nil, rfl⟩
  | cons a acts ih =>
    rcases ih (effect a s) with ⟨hno, hphase⟩ | ⟨pre, mid, hacts⟩
    · rw [effects_cons, hphase]
      cases a with
      | setPhase ph => exact .inr ⟨[], acts, rfl⟩
      | _ => exact .inl ⟨fun ph h => (List.mem_cons.1 h).elim (nomatch ·) (hno ph), by rw [effect_phase]⟩
    · exact .inr ⟨a :: pre, mid, by rw [effects_cons, List.cons_append, ← hacts]⟩

/-! ## The parts of `reset()` and `init()` -/

/-- The pulse, without the assignment it starts with (R141). -/
theorem resetBodySeq_eq (c : Config) : resetBodySeq c = .setPhase .resetting :: (resetBodySeq c).tail := rfl

/-- `init()` between the reset pulse and the sleep-out Command (R146 to R149). -/
def configureSeq (c : Config) : List Action :=
  tableSeq c.initTable ++ sendCommandSeq c.opTeon ++ sendCommandSeq c.opInvoff ++ sendCommandSeq c.opSlpout

/-- `init()` up to the sleep-out Command (R144 to R149). -/
def untilSleepOutSeq (c : Config) : List Action := resetBodySeq c ++ .setPhase .configuring :: configureSeq c

/-- `init()` from the sleep-out delay to the display-on delay (R149, R150). -/
def wakeSeq (c : Config) : List Action :=
  .sleep c.tSlpout :: sendCommandSeq c.opDispon ++ [.sleep c.tDispon]

theorem initSeq_eq (c : Config) :
    initSeq c = resetBodySeq c ++ .setPhase .configuring ::
      (configureSeq c ++ .setPhase .sleepingOut :: (wakeSeq c ++ [.setPhase .displayOn])) := by
  simp [initSeq, configureSeq, wakeSeq]

theorem noSetPhase_tail_resetBodySeq (c : Config) : NoSetPhase (resetBodySeq c).tail := by
  intro ph
  unfold resetBodySeq
  split <;> simp

theorem noSetPhase_transactionSeq (opcode : Byte) (payload : List Byte) :
    NoSetPhase (transactionSeq opcode payload) := by
  intro ph
  unfold transactionSeq
  split <;> simp [sendCommandSeq, sendDataSeq]

theorem noSetPhase_configureSeq (c : Config) : NoSetPhase (configureSeq c) := by
  have htable : NoSetPhase (tableSeq c.initTable) := by
    intro ph h
    obtain ⟨e, -, he⟩ := List.mem_flatMap.1 h
    exact noSetPhase_append (noSetPhase_transactionSeq e.1 e.2) (fun ph => by simp) ph he
  have hcommand (opcode : Byte) : NoSetPhase (sendCommandSeq opcode) := fun ph => by simp [sendCommandSeq]
  exact noSetPhase_append (noSetPhase_append (noSetPhase_append htable (hcommand _)) (hcommand _)) (hcommand _)

theorem noSetPhase_wakeSeq (c : Config) : NoSetPhase (wakeSeq c) := fun ph => by simp [wakeSeq, sendCommandSeq]

/-- The two assignments of `reset()`. -/
theorem resetSeq_split {c : Config} {done rest : List Action} {ph : Phase}
    (h : resetSeq c = done ++ .setPhase ph :: rest) :
    (ph = .resetting ∧ done = []) ∨ (ph = .uninitialized ∧ done = resetBodySeq c) := by
  rw [resetSeq, resetBodySeq_eq, List.cons_append] at h
  rcases split_at_setPhase (pre := []) (fun _ => List.not_mem_nil) h with ⟨rfl, rfl, -⟩ | ⟨done₁, rfl, h₁⟩
  · exact .inl ⟨rfl, rfl⟩
  rcases split_at_setPhase (noSetPhase_tail_resetBodySeq c) h₁ with ⟨rfl, rfl, -⟩ | ⟨done₂, rfl, h₂⟩
  · exact .inr ⟨rfl, rfl⟩
  · exact absurd h₂ nil_ne_append_setPhase

/-- The four assignments of `init()`. -/
theorem initSeq_split {c : Config} {done rest : List Action} {ph : Phase}
    (h : initSeq c = done ++ .setPhase ph :: rest) :
    (ph = .resetting ∧ done = []) ∨ (ph = .configuring ∧ done = resetBodySeq c) ∨
    (ph = .sleepingOut ∧ done = untilSleepOutSeq c) ∨
    (ph = .displayOn ∧ rest = [] ∧ done = untilSleepOutSeq c ++ .setPhase .sleepingOut :: wakeSeq c) := by
  rw [initSeq_eq, resetBodySeq_eq, List.cons_append] at h
  rcases split_at_setPhase (pre := []) (fun _ => List.not_mem_nil) h with ⟨rfl, rfl, -⟩ | ⟨done₁, rfl, h₁⟩
  · exact .inl ⟨rfl, rfl⟩
  rcases split_at_setPhase (noSetPhase_tail_resetBodySeq c) h₁ with ⟨rfl, rfl, -⟩ | ⟨done₂, rfl, h₂⟩
  · exact .inr (.inl ⟨rfl, rfl⟩)
  rcases split_at_setPhase (noSetPhase_configureSeq c) h₂ with ⟨rfl, rfl, -⟩ | ⟨done₃, rfl, h₃⟩
  · exact .inr (.inr (.inl ⟨rfl, rfl⟩))
  rcases split_at_setPhase (noSetPhase_wakeSeq c) h₃ with ⟨rfl, rfl, rfl⟩ | ⟨done₄, rfl, h₄⟩
  · exact .inr (.inr (.inr ⟨rfl, rfl, by rw [untilSleepOutSeq, List.append_assoc]; rfl⟩))
  · exact absurd h₄ nil_ne_append_setPhase

/-! ## The traces at the assignments -/

theorem effects_wakeSeq_trace (c : Config) (s : State) :
    (effects (wakeSeq c) s).trace =
      s.trace ++ [.evSleep c.tSlpout] ++ commandEvents c.opDispon ++ [.evSleep c.tDispon] := by
  simp [wakeSeq, effects_append, effects_sendCommandSeq, effect]

/-- After the sleep-out Command its event is the last one (R149). -/
theorem effects_configureSeq_trace (c : Config) (s : State) :
    ∃ front, (effects (configureSeq c) s).trace = front ++ [.evSpi .low [c.opSlpout]] := by
  rw [configureSeq, effects_append, effects_sendCommandSeq]
  exact ⟨_, List.append_cons _ _ [_]⟩

/-- With the display-on delay done, the whole of `init()` is recorded. -/
theorem effects_untilDisplayOn_trace (c : Config) (s : State) :
    (effects (untilSleepOutSeq c ++ .setPhase .sleepingOut :: wakeSeq c) s).trace = s.trace ++ initEvents c := by
  have h := congrArg State.trace (effects_initSeq c s)
  rw [initSeq_eq] at h
  simpa [untilSleepOutSeq, effects_append, effect] using h

/-- What follows the sleep-out Command: its delay, the display-on Command and the delay of that. -/
theorem effects_untilSleepOut_trace (c : Config) (s : State) :
    (effects (untilSleepOutSeq c) s).trace ++ [.evSleep c.tSlpout] ++ commandEvents c.opDispon ++ [.evSleep c.tDispon] =
      s.trace ++ initEvents c := by
  rw [← effects_untilDisplayOn_trace, effects_append, effects_cons, effects_wakeSeq_trace]
  rfl

/-- What holds where an operation, started in `s`, has done `done` and assigns the phase `ph` next (R152). -/
theorem phaseMoveWhen_setPhase {i : Instr} {s t u : State} {done rest : List Action} {ph : Phase}
    (hb : (bodyOf s i).2 = done ++ .setPhase ph :: rest) (htphase : t.phase = (effects done s).phase)
    (hutrace : u.trace = (effects done s).trace) (huphase : u.phase = ph) :
    PhaseMove t.phase u.phase ∧ PhaseMoveWhen i s t u := by
  have hi : i = .reset ∨ i = .init := permits_of_mem_bodyOf s i (.setPhase ph) (by simp [hb])
  have hpulse := effects_resetBodySeq s.cfg s
  rw [htphase, huphase]
  obtain rfl | rfl := hi
  · rcases resetSeq_split hb with ⟨rfl, rfl⟩ | ⟨rfl, rfl⟩
    · exact ⟨trivial, fun _ => ⟨.inl rfl, hutrace⟩, by simp [huphase], by simp [huphase], by simp [huphase],
        by simp [huphase]⟩
    · rw [hpulse] at htphase hutrace ⊢
      exact ⟨trivial, by simp [huphase], by simp [huphase], by simp [huphase], by simp [huphase],
        fun _ => .inl ⟨rfl, htphase, hutrace⟩⟩
  · rcases initSeq_split hb with ⟨rfl, rfl⟩ | ⟨rfl, rfl⟩ | ⟨rfl, rfl⟩ | ⟨rfl, -, rfl⟩
    · exact ⟨trivial, fun _ => ⟨.inr rfl, hutrace⟩, by simp [huphase], by simp [huphase], by simp [huphase],
        by simp [huphase]⟩
    · rw [hpulse] at hutrace ⊢
      exact ⟨trivial, by simp [huphase], fun _ => ⟨rfl, hutrace⟩, by simp [huphase], by simp [huphase],
        by simp [huphase]⟩
    · have hconfiguring : (effects (untilSleepOutSeq s.cfg) s).phase = .configuring :=
        effects_phase_of_setPhase .configuring (noSetPhase_configureSeq s.cfg) s
      obtain ⟨front, hfront⟩ : ∃ front,
          (effects (untilSleepOutSeq s.cfg) s).trace = front ++ [.evSpi .low [s.cfg.opSlpout]] := by
        rw [untilSleepOutSeq, effects_append, effects_cons]
        exact effects_configureSeq_trace _ _
      rw [hconfiguring]
      exact ⟨trivial, by simp [huphase], by simp [huphase],
        fun _ => ⟨rfl, ⟨front, hutrace.trans hfront⟩, by rw [hutrace]; exact effects_untilSleepOut_trace _ _⟩,
        by simp [huphase], by simp [huphase]⟩
    · rw [effects_phase_of_setPhase .sleepingOut (noSetPhase_wakeSeq s.cfg)]
      rw [effects_untilDisplayOn_trace] at hutrace
      have hlast : ∃ front, u.trace = front ++ [.evSleep s.cfg.tDispon] :=
        ⟨_, by rw [hutrace, initEvents, ← List.append_assoc]⟩
      exact ⟨trivial, by simp [huphase], by simp [huphase], by simp [huphase], fun _ => ⟨rfl, hlast, hutrace⟩,
        by simp [huphase]⟩

/-! ## The move of a small step -/

namespace AtPosition

variable {i : Instr} {s t : State} {r : Running} (h : AtPosition i s r t)
include h

theorem body : bodyOf s i = (r.ending, r.done ++ r.rest) := (planOf_go h.plan).2

/-- Up to the answers, a position is reached with the effects of what is done. -/
theorem phase : t.phase = (effects r.done s).phase := by
  obtain ⟨v, -, hrun, rfl⟩ := h.run
  obtain ⟨n, rfl⟩ := runActions_ok hrun
  rw [effects_begin]
  rfl

theorem trace : t.trace = (effects r.done s).trace := by
  obtain ⟨v, -, hrun, rfl⟩ := h.run
  obtain ⟨n, rfl⟩ := runActions_ok hrun
  rw [effects_begin]
  rfl

/-- The phase of a started operation is its own only in `reset()` and `init()`. -/
theorem resets_of_phase_ne (hne : t.phase ≠ s.phase) : i = .reset ∨ i = .init := by
  by_contra! hi
  rw [h.phase] at hne
  refine hne (effects_observe State.phase (fun a ha => ?_) s)
  have hmem : a ∈ (bodyOf s i).2 := by rw [h.body]; exact List.mem_append_left _ ha
  exact effect_phase_of_permits (permits_of_mem_bodyOf s i a hmem) hi.1 hi.2

/-- `reset()` and `init()` make no call in `DisplayOn`: they leave it first, and come to it last. -/
theorem phase_ne_displayOn {a : Action} {rest : List Action} {c : Call} (hrest : r.rest = a :: rest)
    (hc : failingCall a t = some c) (hi : i = .reset ∨ i = .init) : t.phase ≠ .displayOn := by
  intro hphase
  have hbody : (bodyOf s i).2 = r.done ++ a :: rest := by rw [h.body, hrest]
  have hfirst : ∃ tail, (bodyOf s i).2 = .setPhase .resetting :: tail := by
    obtain rfl | rfl := hi
    · exact ⟨_, rfl⟩
    · exact ⟨_, rfl⟩
  rw [h.phase] at hphase
  rcases effects_phase_cases r.done s with ⟨hno, -⟩ | ⟨pre, mid, hdone⟩
  · obtain ⟨tail, htail⟩ := hfirst
    rw [htail] at hbody
    cases hd : r.done with
    | nil =>
      rw [hd] at hbody
      cases hbody
      cases hc
    | cons b done =>
      rw [hd] at hbody
      cases hbody
      exact hno .resetting (by rw [hd]; exact List.mem_cons_self ..)
  · rw [hphase] at hdone
    rw [hdone, List.append_assoc, List.cons_append] at hbody
    obtain rfl | rfl := hi
    · rcases resetSeq_split hbody with ⟨hph, -⟩ | ⟨hph, -⟩ <;> cases hph
    · rcases initSeq_split hbody with ⟨hph, -⟩ | ⟨hph, -⟩ | ⟨hph, -⟩ | ⟨-, hnil, -⟩
      · cases hph
      · cases hph
      · cases hph
      · simp at hnil

end AtPosition

theorem phaseMove_of_eq {i : Instr} {s t u : State} (h : u.phase = t.phase) :
    PhaseMove t.phase u.phase ∧ (t.phase ≠ u.phase → PhaseMoveWhen i s t u) := by
  rw [h]
  exact ⟨by cases t.phase <;> trivial, fun hne => absurd rfl hne⟩

/-- The move a failed call makes (R246 (a)), where the operation is not one of its own effect only. -/
theorem AtPosition.phaseMove_of_err {i : Instr} {s t u : State} {r : Running} (h : AtPosition i s r t)
    (hown : r.ending ≠ .ownEffectOnly) {a : Action} {rest : List Action} {c : Call} (hrest : r.rest = a :: rest)
    (hc : failingCall a t = some c) (hphase : u.phase = .uninitialized) (hresult : u.result = some .transportError)
    (htrace : u.trace = t.trace ++ [.evFail c]) :
    PhaseMove t.phase u.phase ∧ (t.phase ≠ u.phase → PhaseMoveWhen i s t u) := by
  have hnot : i ≠ .release ∧ ∀ level, i ≠ .setBacklight level := by
    have hbody : (bodyOf s i).1 ≠ .ownEffectOnly := by rwa [h.body]
    simpa [bodyOf_ownEffectOnly] using hbody
  have hdisplayOn (hon : t.phase = .displayOn) : i ≠ .reset ∧ i ≠ .init :=
    not_or.1 fun hi => h.phase_ne_displayOn hrest hc hi hon
  exact ⟨by rw [hphase]; cases t.phase <;> trivial, fun _ => ⟨by simp [hphase], by simp [hphase], by simp [hphase],
    by simp [hphase],
    fun _ => .inr ⟨hresult, ⟨c, htrace⟩, hnot.2, hnot.1, hdisplayOn, h.resets_of_phase_ne⟩⟩⟩

/-- Settles O58: the end of an operation moves no phase, an action that completes moves it only where the sequence
assigns it, and a failed call moves it to `Uninitialized`. -/
theorem phaseMovesByTheTable : Obligations.PhaseMovesByTheTable := by
  intro s s₁ t u i n hs hstart hticks hseq hstep
  obtain ⟨r, hr⟩ := Option.ne_none_iff_exists'.1 hseq
  have hat := atPosition_of_ticks hs hstart hticks hr
  simp only [step, hr] at hstep
  rcases advance_next hstep with ⟨-, rfl⟩ | ⟨a, rest, t', hrest, ha, rfl⟩ | ⟨a, rest, t', hrest, ha, rfl⟩
  · exact phaseMove_of_eq (by cases r.ending <;> rfl)
  · obtain ⟨k, rfl⟩ := eq_effect_of_act_ok ha
    cases a with
    | setPhase ph =>
      have hbody : (bodyOf s i).2 = r.done ++ .setPhase ph :: rest := by rw [hat.body, hrest]
      obtain ⟨hmove, hwhen⟩ := phaseMoveWhen_setPhase hbody hat.phase hat.trace
        (u := ((effect (.setPhase ph) t).withAnswers (t.answers.drop k)).withSeq _) rfl
      exact ⟨hmove, fun _ => hwhen⟩
    | _ => exact phaseMove_of_eq (effect_phase _ t)
  · obtain ⟨c, k, hc, rfl⟩ := eq_failEffect_of_act_err ha
    by_cases hown : r.ending = .ownEffectOnly
    · exact phaseMove_of_eq (by rw [hown]; exact failEffect_phase c t)
    · have hphase (v : State) : (raiseTransportError r.ending v).phase = .uninitialized := by
        cases ho : r.ending with
        | ownEffectOnly => exact absurd ho hown
        | _ => rfl
      have htrace (v : State) : (raiseTransportError r.ending v).trace = v.trace := raiseTransportError_trace ..
      exact hat.phaseMove_of_err hown hrest hc (hphase _) (raiseTransportError_result ..)
        ((htrace _).trans (failEffect_trace c t))

end Sys2Proof.Machine
end

section
/-! PROOF. The bounds of the position (R36): the views of a position are counts over the part of the sequence that is
done, and the trace has one event for each call of that part. -/

namespace Sys2Proof.Machine

/-! ## Counting what is done -/

/-- A ready sequence records one event for each of its calls. -/
theorem length_effects_trace {known : Bool} {acts : List Action} {s : State} (hready : dcReady known acts = true)
    (hs : known = true → s.lat.dc ≠ .unknown) :
    (effects acts s).trace.length = s.trace.length + acts.countP Action.isCall := by
  induction acts generalizing known s with
  | nil => rfl
  | cons a acts ih =>
    have hdc : ∀ bytes, a = .spiWrite bytes → s.lat.dc ≠ .unknown := by
      rintro bytes rfl
      exact dc_known_of_ready (before := []) hready hs
    obtain ⟨known', hready', hs'⟩ := effect_dc_known hready hs
    rw [effects_cons, ih hready' hs', List.countP_cons]
    cases hcall : a.isCall with
    | false => rw [(act_not_call s hcall).2]; rfl
    | true =>
      obtain ⟨e, he, -⟩ := act_answer hcall hdc
      rw [he, List.length_append]
      simp
      omega

/-- The bytes put on the bus from the first stream mark of a sequence on. -/
def streamedBytes (acts : List Action) : Nat :=
  ((acts.dropWhile fun a => a != .startStream).map Action.busBytes).sum

theorem byteOffset_eq (r : Running) : r.byteOffset = streamedBytes r.done := rfl

theorem streamedBytes_cons (a : Action) (acts : List Action) :
    streamedBytes (a :: acts) = if a = .startStream then (acts.map Action.busBytes).sum else streamedBytes acts := by
  by_cases h : a = .startStream <;> simp [streamedBytes, h, Action.busBytes]

/-- Before the mark nothing counts. -/
theorem streamedBytes_append_of_notMem {xs ys : List Action} (h : .startStream ∉ xs) :
    streamedBytes (xs ++ ys) = streamedBytes ys := by
  induction xs with
  | nil => rfl
  | cons a xs ih =>
    obtain ⟨ha, hxs⟩ := not_or.1 (mt List.mem_cons.2 h)
    rw [List.cons_append, streamedBytes_cons, if_neg (Ne.symm ha), ih hxs]

theorem streamedBytes_of_notMem {acts : List Action} (h : .startStream ∉ acts) : streamedBytes acts = 0 := by
  rw [← List.append_nil acts, streamedBytes_append_of_notMem h]
  rfl

theorem streamedBytes_append_le (xs ys : List Action) : streamedBytes xs ≤ streamedBytes (xs ++ ys) := by
  induction xs with
  | nil => exact Nat.zero_le _
  | cons a xs ih =>
    rw [List.cons_append, streamedBytes_cons, streamedBytes_cons]
    split
    · simp
    · exact ih

/-! ## Streams -/

theorem sum_busBytes_flatMap_sendDataSeq (bs : List (List Byte)) :
    ((bs.flatMap sendDataSeq).map Action.busBytes).sum = bs.flatten.length := by
  induction bs with
  | nil => rfl
  | cons b bs ih =>
    rw [List.flatMap_cons, List.map_append, List.sum_append, ih, List.flatten_cons, List.length_append]
    simp [sendDataSeq, Action.busBytes]

theorem streamedBytes_streamSeq (c : Config) (buf : List Byte) :
    streamedBytes (streamSeq c buf.length buf) = buf.length := by
  rw [streamSeq, List.append_assoc, List.singleton_append, streamedBytes_cons, if_pos rfl, List.map_append,
    List.sum_append, sum_busBytes_flatMap_sendDataSeq, chunks_flatten (Config.one_le_chunkMax c)]
  rfl

/-- A sequence that does nothing to the control line and the bus but a stream's writes. -/
def OnlyStreams (acts : List Action) : Prop :=
  ∀ a ∈ acts, a = .startStream ∨ a = .gpioWrite .dc .high ∨ (∃ bytes, a = .spiWrite bytes) ∨ a = .disarm

theorem onlyStreams_streamSeq (c : Config) (n : Nat) (buf : List Byte) : OnlyStreams (streamSeq c n buf) := by
  intro a ha
  simp only [streamSeq, sendDataSeq, List.mem_append, List.mem_flatMap, List.mem_cons, List.not_mem_nil, or_false] at ha
  obtain (rfl | ⟨chunk, -, rfl | rfl⟩) | rfl := ha <;> simp

/-- With the control line known high from its first bus write on, all the bytes of a stream are data bytes. -/
theorem length_dataBytesOf_effects {known : Bool} {acts : List Action} {s : State} (hready : dcReady known acts = true)
    (hs : known = true → s.lat.dc = .known .high) (hacts : OnlyStreams acts) :
    (dataBytesOf (effects acts s).trace).length = (dataBytesOf s.trace).length + (acts.map Action.busBytes).sum := by
  induction acts generalizing known s with
  | nil => rfl
  | cons a acts ih =>
    have hrest : OnlyStreams acts := fun b hb => hacts b (List.mem_cons_of_mem a hb)
    rw [effects_cons, List.map_cons, List.sum_cons]
    obtain rfl | rfl | ⟨bytes, rfl⟩ | rfl := hacts a (List.mem_cons_self ..)
    · rw [ih (s := effect .startStream s) hready hs hrest]
      simp [effect, Action.busBytes]
    · rw [ih (known := true) hready (fun _ => rfl) hrest]
      simp [effect, Action.busBytes, dataBytesOf]
    · obtain ⟨hknown, hready⟩ := Bool.and_eq_true_iff.1 hready
      have heffect : effect (.spiWrite bytes) s = s.log (.evSpi .high bytes) := by simp only [effect, hs hknown]
      rw [heffect, ih (s := s.log (.evSpi .high bytes)) hready hs hrest]
      simp [Action.busBytes, dataBytesOf, Nat.add_assoc]
    · rw [ih (s := effect .disarm s) hready hs hrest]
      simp [effect, Action.busBytes]

/-- A stream's position has streamed all the bytes on the bus so far: the mark comes first. -/
theorem streamedBytes_of_prefix {c : Config} {n : Nat} {buf : List Byte} {done rest : List Action}
    (h : streamSeq c n buf = done ++ rest) : streamedBytes done = (done.map Action.busBytes).sum := by
  cases done with
  | nil => rfl
  | cons a done =>
    obtain ⟨rfl, -⟩ := List.cons.inj h
    rw [streamedBytes_cons, if_pos rfl, List.map_cons, List.sum_cons]
    exact (Nat.zero_add _).symm

/-! ## The bounds -/

theorem startStream_notMem_windowSeq (c : Config) (w : Window) : .startStream ∉ windowSeq c w := by
  simp [windowSeq, casetSeq, rasetSeq, sendCommandSeq, sendDataSeq]

/-- Outside a `stream` issued by itself, an operation streams at most a frame. -/
theorem streamedBytes_le_frameBytes {i : Instr} {s : State} {o : Ending} {acts : List Action}
    (hplan : planOf i s = .go o acts) (hi : ∀ buf, i ≠ .stream buf) : streamedBytes acts ≤ s.cfg.frameBytes := by
  have hbody := (planOf_go hplan).2
  have hframe {color : U16} {image : Image} (hmem : i ∈ [Instr.fill color, .clear, .showImage image]) :
      streamedBytes acts ≤ s.cfg.frameBytes := by
    obtain ⟨-, buf, rfl, hlen⟩ := planOf_frame hplan hmem
    rw [frameSeq, ← hlen, streamedBytes_append_of_notMem (startStream_notMem_windowSeq _ _), streamedBytes_streamSeq]
  by_cases hmem : .startStream ∈ acts
  · have hpermits : Permits i .startStream := permits_of_mem_bodyOf s i _ (by rwa [hbody])
    obtain (rfl | ⟨color, rfl⟩ | ⟨image, rfl⟩ | ⟨x, y, w, e, rfl⟩) | ⟨buf, rfl⟩ := hpermits
    · exact hframe (color := 0) (image := ⟨0, 0, []⟩) (by simp)
    · exact hframe (color := color) (image := ⟨0, 0, []⟩) (by simp)
    · exact hframe (color := 0) (image := image) (by simp)
    · cases hbody
      exact absurd hmem (startStream_notMem_windowSeq _ _)
    · exact absurd rfl (hi buf)
  · rw [streamedBytes_of_notMem hmem]
    exact Nat.zero_le _

theorem count_nextEntry_tableSeq (table : List (Byte × List Byte)) :
    (tableSeq table).count .nextEntry = table.length := by
  induction table with
  | nil => rfl
  | cons e table ih =>
    have hentry : (transactionSeq e.1 e.2 ++ [Action.nextEntry]).count Action.nextEntry = 1 := by
      unfold transactionSeq
      split <;> simp [sendCommandSeq, sendDataSeq]
    rw [tableSeq, List.flatMap_cons, List.count_append, hentry, ← tableSeq, ih, List.length_cons, Nat.add_comm]

/-- An operation sends at most the table (R143). -/
theorem count_nextEntry_bodyOf_le (s : State) (i : Instr) :
    (bodyOf s i).2.count .nextEntry ≤ s.cfg.initTable.length := by
  by_cases hmem : .nextEntry ∈ (bodyOf s i).2
  · obtain rfl : i = .init := permits_of_mem_bodyOf s i _ hmem
    have hpulse : (resetBodySeq s.cfg).count .nextEntry = 0 := by
      unfold resetBodySeq
      split <;> simp
    simp [bodyOf, initSeq, hpulse, count_nextEntry_tableSeq, sendCommandSeq]
  · rw [List.count_eq_zero.2 hmem]
    exact Nat.zero_le _

/-- Settles O59: a position has done a first part of the operation's sequence, so what it has counted is at most what the
whole sequence counts. -/
theorem positionBounds : Obligations.PositionBounds := by
  intro s s₁ t i n r hs hstart hticks hr
  have hat := atPosition_of_ticks hs hstart hticks hr
  have hbody := hat.body
  have hready : dcReady false r.done = true := dcReady_of_append (dcReady_of_planOf hat.plan)
  obtain ⟨added, hadded, -⟩ := effects_trace r.done s
  have hcalls := length_effects_trace (s := s) hready (by simp)
  refine ⟨hat.instr, hat.plan, ⟨added, hat.trace.trans hadded, ?_, ?_⟩, ?_, fun hi => ?_⟩
  · rw [hadded, List.length_append] at hcalls
    exact (Nat.add_left_cancel hcalls).symm
  · rintro buf rfl
    have hstream : streamSeq s.cfg buf.length buf = r.done ++ r.rest := congrArg Prod.snd hbody
    have honly : OnlyStreams r.done := fun a ha =>
      onlyStreams_streamSeq s.cfg buf.length buf a (by rw [hstream]; exact List.mem_append_left _ ha)
    have hbytes := length_dataBytesOf_effects (s := s) hready (by simp) honly
    rw [hadded, dataBytesOf_append, List.length_append] at hbytes
    rw [byteOffset_eq]
    constructor
    · rw [streamedBytes_of_prefix hstream]
      exact (Nat.add_left_cancel hbytes).symm
    · rw [← streamedBytes_streamSeq s.cfg buf, hstream]
      exact streamedBytes_append_le ..
  · calc r.tableIndex ≤ (r.done ++ r.rest).count .nextEntry := by rw [List.count_append]; exact Nat.le_add_right ..
      _ ≤ s.cfg.initTable.length := by simpa only [hbody] using count_nextEntry_bodyOf_le s i
  · exact (streamedBytes_append_le ..).trans (streamedBytes_le_frameBytes hat.plan hi)

end Sys2Proof.Machine
end
